-- ==== Sys2Proof/Word.lean ====
section
/-! DEFINITION. The word type, colours, ports and the 32-segment vector (spec/00_scope.md R6, R9 to R11). -/

namespace Sys2Proof

/-- One interface word: 32 bits (20_memory.md R66). -/
abbrev Word := BitVec 32

/-- A colour is a triple of 8-bit channels (00_scope.md R10); its packing is R11 (Machine/Operands.lean). -/
structure Color where
  r : BitVec 8
  g : BitVec 8
  b : BitVec 8
deriving DecidableEq, Repr, Inhabited

/-- 0x000000. -/
def Color.black : Color := ⟨0, 0, 0⟩

/-- The two command ports, A (aggregator and resolver) and C (compositor) (00_scope.md R13). -/
inductive Port where
  | a
  | c
deriving DecidableEq, Repr, Inhabited

/-- One value per segment. `NSEG = 32` is fixed (00_scope.md R6). -/
abbrev Segs (α : Type) := Vector α 32

end Sys2Proof
end

