-- ==== Sys2Proof/Syntax.lean ====
section
/-! DEFINITION. The instruction set: one constructor per row of spec/opcode_table.json (spec/30_encoding.md R85). -/

namespace Sys2Proof

/-- The commands of the block, with their operands as 30_encoding.md R83 and R84 assemble them. -/
inductive Instr where
  | nop
  | read (idx : BitVec 8)
  | fuse
  | brev (nm1 : BitVec 5) (v : Word)
  | pubt
  | setgmode (v8 : BitVec 8)
  | resolve
  | resolvei (x : Word)
  | setbri (u24 : BitVec 24)
  | setspd (u24 : BitVec 24)
  | setimode (v8 : BitVec 8)
  | settmode (v8 : BitVec 8)
  | seticol (c : Color)
  | settcol (c : Color)
  | setupc (b1 : Bool)
  | setraw (b1 : Bool)
  | settouch (x : Word)
  | setpc (c : Color)
  | clrpc
  | tick (e : BitVec 24)
  | raw (d : List Word)
deriving DecidableEq, Repr

/-- The defined opcodes, one per row of 30_encoding.md R85. -/
inductive Opcode where
  | nop | read | fuse | brev | pubt | setgmode | resolve | resolvei
  | setbri | setspd | setimode | settmode | seticol | settcol | setupc | setraw
  | settouch | setpc | clrpc | tick | raw
deriving DecidableEq, Repr

/-- The six command-word formats (30_encoding.md R82). -/
inductive Format where
  | z
  | v8
  | u24
  | c
  | b1
  | n5
deriving DecidableEq, Repr

/-- Why a command word and its data words are no instruction, by name. -/
inductive DecodeError where
  /-- An opcode outside the map (30_encoding.md R88). -/
  | undefinedOpcode
  /-- A 1 in a bit that the opcode's format marks 0 (30_encoding.md R87). -/
  | reservedBits
  /-- Not ND data words (30_encoding.md R80): the parser never hands over such a command. -/
  | dataCount
  /-- A word list that ends inside a command (30_encoding.md R81). -/
  | truncated
deriving DecidableEq, Repr

/-- The pseudo-instructions (30_encoding.md R93). -/
inductive Pseudo where
  | clrtouch
  | blackout
  | rawfill (c : Word)
  | restick
deriving DecidableEq, Repr

end Sys2Proof
end

