-- ==== Sys2Proof/WellFormed.lean ====
section
/-! DEFINITION. When an instruction has an encoding: the one operand bound its type does not already hold. -/

namespace Sys2Proof

/-- An instruction is well formed when its operands fit its format. Every field's type is its width
(30_encoding.md R82), so the one check left is RAW's 32 data words (R84). -/
def Instr.wf : Instr → Bool
  | .nop => true
  | .read _ => true
  | .fuse => true
  | .brev _ _ => true
  | .pubt => true
  | .setgmode _ => true
  | .resolve => true
  | .resolvei _ => true
  | .setbri _ => true
  | .setspd _ => true
  | .setimode _ => true
  | .settmode _ => true
  | .seticol _ => true
  | .settcol _ => true
  | .setupc _ => true
  | .setraw _ => true
  | .settouch _ => true
  | .setpc _ => true
  | .clrpc => true
  | .tick _ => true
  | .raw d => d.length == 32

end Sys2Proof
end

