-- ==== Sys2Proof/Decode.lean ====
section
/-! DEFINITION. Decoding and encoding: the opcode map, the formats, the decoder (total, rejecting by name)
and the encoder (spec/30_encoding.md R80 to R91, R93). -/

namespace Sys2Proof

/-- `OP = w[31:24]` (30_encoding.md R80). -/
def opcodeField (w : Word) : BitVec 8 := w.extractLsb' 24 8

/-- The operand field `w[23:0]` (30_encoding.md R80). -/
def operandField (w : Word) : BitVec 24 := w.extractLsb' 0 24

/-- The colour of a 24-bit colour word: r in [23:16], g in [15:8], b in [7:0] (00_scope.md R11). -/
def colorOfWord (w : BitVec 24) : Color :=
  ⟨w.extractLsb' 16 8, w.extractLsb' 8 8, w.extractLsb' 0 8⟩

/-- The colour word `{r, g, b}` of a colour (00_scope.md R11). -/
def colorWord (c : Color) : BitVec 24 := (c.r ++ c.g ++ c.b : BitVec (8 + 8 + 8))

/-- Column OP of 30_encoding.md R85. -/
def Opcode.bits : Opcode → BitVec 8
  | .nop => 0x00
  | .read => 0x01
  | .fuse => 0x10
  | .brev => 0x11
  | .pubt => 0x12
  | .setgmode => 0x20
  | .resolve => 0x21
  | .resolvei => 0x22
  | .setbri => 0x30
  | .setspd => 0x31
  | .setimode => 0x32
  | .settmode => 0x33
  | .seticol => 0x34
  | .settcol => 0x35
  | .setupc => 0x36
  | .setraw => 0x37
  | .settouch => 0x38
  | .setpc => 0x39
  | .clrpc => 0x3A
  | .tick => 0x3B
  | .raw => 0x3C

/-- Column format of 30_encoding.md R85. -/
def Opcode.format : Opcode → Format
  | .nop => .z
  | .read => .v8
  | .fuse => .z
  | .brev => .n5
  | .pubt => .z
  | .setgmode => .v8
  | .resolve => .z
  | .resolvei => .z
  | .setbri => .u24
  | .setspd => .u24
  | .setimode => .v8
  | .settmode => .v8
  | .seticol => .c
  | .settcol => .c
  | .setupc => .b1
  | .setraw => .b1
  | .settouch => .z
  | .setpc => .c
  | .clrpc => .z
  | .tick => .u24
  | .raw => .z

/-- Column port of 30_encoding.md R85: is the command legal on this port (R86)? -/
def Opcode.legalOn : Opcode → Port → Bool
  | .nop, _ => true
  | .read, _ => true
  | .fuse, p => p == .a
  | .brev, p => p == .a
  | .pubt, p => p == .a
  | .setgmode, p => p == .a
  | .resolve, p => p == .a
  | .resolvei, p => p == .a
  | .setbri, p => p == .c
  | .setspd, p => p == .c
  | .setimode, p => p == .c
  | .settmode, p => p == .c
  | .seticol, p => p == .c
  | .settcol, p => p == .c
  | .setupc, p => p == .c
  | .setraw, p => p == .c
  | .settouch, p => p == .c
  | .setpc, p => p == .c
  | .clrpc, p => p == .c
  | .tick, p => p == .c
  | .raw, p => p == .c

/-- Column ND of 30_encoding.md R85. -/
def Opcode.nd : Opcode → Nat
  | .nop => 0
  | .read => 0
  | .fuse => 0
  | .brev => 1
  | .pubt => 0
  | .setgmode => 0
  | .resolve => 0
  | .resolvei => 1
  | .setbri => 0
  | .setspd => 0
  | .setimode => 0
  | .settmode => 0
  | .seticol => 0
  | .settcol => 0
  | .setupc => 0
  | .setraw => 0
  | .settouch => 1
  | .setpc => 0
  | .clrpc => 0
  | .tick => 0
  | .raw => 32

/-- The rows of 30_encoding.md R85, in its order. -/
def allOpcodes : List Opcode :=
  [.nop, .read, .fuse, .brev, .pubt, .setgmode, .resolve, .resolvei, .setbri, .setspd, .setimode,
   .settmode, .seticol, .settcol, .setupc, .setraw, .settouch, .setpc, .clrpc, .tick, .raw]

/-- The row of an opcode value, if it is defined (30_encoding.md R85, R88). -/
def opcodeOfBits (op : BitVec 8) : Option Opcode := allOpcodes.find? (fun o => o.bits == op)

/-- `ND(OP)`, for every opcode value: an undefined one has ND = 0 (30_encoding.md R85, R88). -/
def ndOf (op : BitVec 8) : Nat :=
  match opcodeOfBits op with
  | some o => o.nd
  | none => 0

/-- The bits of [23:0] that a format marks `0` (30_encoding.md R82). -/
def Format.reservedMask : Format → BitVec 24
  | .z => 0xFFFFFF
  | .v8 => 0xFFFF00
  | .u24 => 0x000000
  | .c => 0x000000
  | .b1 => 0xFFFFFE
  | .n5 => 0xFFFFE0

/-- No reserved bit is 1 (30_encoding.md R87). -/
def reservedClear (f : Format) (w : Word) : Bool := operandField w &&& f.reservedMask == 0

/-- The one data word of an ND = 1 command. -/
def withDataWord (data : List Word) (f : Word → Instr) : Except DecodeError Instr :=
  match data with
  | [d] => .ok (f d)
  | _ => .error .dataCount

/-- The instruction of a defined opcode, its command word and its data words (30_encoding.md R83, R84). -/
def buildInstr (o : Opcode) (w : Word) (data : List Word) : Except DecodeError Instr :=
  let field := operandField w
  let v8 := w.extractLsb' 0 8
  let b1 := w.getLsbD 0
  match o with
  | .nop => .ok .nop
  | .read => .ok (.read v8)
  | .fuse => .ok .fuse
  | .brev => withDataWord data (.brev (w.extractLsb' 0 5))
  | .pubt => .ok .pubt
  | .setgmode => .ok (.setgmode v8)
  | .resolve => .ok .resolve
  | .resolvei => withDataWord data .resolvei
  | .setbri => .ok (.setbri field)
  | .setspd => .ok (.setspd field)
  | .setimode => .ok (.setimode v8)
  | .settmode => .ok (.settmode v8)
  | .seticol => .ok (.seticol (colorOfWord field))
  | .settcol => .ok (.settcol (colorOfWord field))
  | .setupc => .ok (.setupc b1)
  | .setraw => .ok (.setraw b1)
  | .settouch => withDataWord data .settouch
  | .setpc => .ok (.setpc (colorOfWord field))
  | .clrpc => .ok .clrpc
  | .tick => .ok (.tick field)
  | .raw => .ok (.raw data)

/-- The instruction a command word and its data words stand for, or why they stand for none
(30_encoding.md R85, R87, R88). Which port they arrived on is not decoding's concern (R89: `perform`
in Machine/Ops.lean). -/
def decodeCommand (w : Word) (data : List Word) : Except DecodeError Instr :=
  match opcodeOfBits (opcodeField w) with
  | none => .error .undefinedOpcode
  | some o =>
    if data.length ≠ o.nd then .error .dataCount
    else if reservedClear o.format w then buildInstr o w data
    else .error .reservedBits

/-- The first instruction of a word stream and the words after it (30_encoding.md R80, R81, R91). -/
def decode (ws : List Word) : Except DecodeError (Instr × List Word) :=
  match ws with
  | [] => .error .truncated
  | w :: rest =>
    let n := ndOf (opcodeField w)
    if rest.length < n then .error .truncated
    else
      match decodeCommand w (rest.take n) with
      | .ok i => .ok (i, rest.drop n)
      | .error e => .error e

/-- The words an opcode-table word stands for: bits 31..0 are the command word, and each data word
takes the next 32 bits; bits from `nbits` up are 0. -/
def tableWords (nbits w : Nat) : List Word :=
  let v := w % 2 ^ nbits
  let cmd := BitVec.ofNat 32 v
  cmd :: (List.range (ndOf (opcodeField cmd))).map (fun k => BitVec.ofNat 32 (v >>> (32 * (k + 1))))

/-- The instruction the decoder reads from an opcode-table word. -/
def decodeTableWord (nbits w : Nat) : Option Instr :=
  match decode (tableWords nbits w) with
  | .ok (i, []) => some i
  | _ => none

/-- The row of an instruction (30_encoding.md R85). -/
def Instr.opcode : Instr → Opcode
  | .nop => .nop
  | .read _ => .read
  | .fuse => .fuse
  | .brev _ _ => .brev
  | .pubt => .pubt
  | .setgmode _ => .setgmode
  | .resolve => .resolve
  | .resolvei _ => .resolvei
  | .setbri _ => .setbri
  | .setspd _ => .setspd
  | .setimode _ => .setimode
  | .settmode _ => .settmode
  | .seticol _ => .seticol
  | .settcol _ => .settcol
  | .setupc _ => .setupc
  | .setraw _ => .setraw
  | .settouch _ => .settouch
  | .setpc _ => .setpc
  | .clrpc => .clrpc
  | .tick _ => .tick
  | .raw _ => .raw

/-- The operand field [23:0] of an instruction's command word (30_encoding.md R82, R83). -/
def Instr.operands : Instr → BitVec 24
  | .nop => 0
  | .read v8 => v8.setWidth 24
  | .fuse => 0
  | .brev nm1 _ => nm1.setWidth 24
  | .pubt => 0
  | .setgmode v8 => v8.setWidth 24
  | .resolve => 0
  | .resolvei _ => 0
  | .setbri u24 => u24
  | .setspd u24 => u24
  | .setimode v8 => v8.setWidth 24
  | .settmode v8 => v8.setWidth 24
  | .seticol c => colorWord c
  | .settcol c => colorWord c
  | .setupc b1 => (BitVec.ofBool b1).setWidth 24
  | .setraw b1 => (BitVec.ofBool b1).setWidth 24
  | .settouch _ => 0
  | .setpc c => colorWord c
  | .clrpc => 0
  | .tick e => e
  | .raw _ => 0

/-- The data words of an instruction (30_encoding.md R84). -/
def Instr.dataWords : Instr → List Word
  | .nop => []
  | .read _ => []
  | .fuse => []
  | .brev _ v => [v]
  | .pubt => []
  | .setgmode _ => []
  | .resolve => []
  | .resolvei x => [x]
  | .setbri _ => []
  | .setspd _ => []
  | .setimode _ => []
  | .settmode _ => []
  | .seticol _ => []
  | .settcol _ => []
  | .setupc _ => []
  | .setraw _ => []
  | .settouch x => [x]
  | .setpc _ => []
  | .clrpc => []
  | .tick _ => []
  | .raw d => d

/-- The command word of an instruction (30_encoding.md R80). -/
def commandWord (i : Instr) : Word := (i.opcode.bits ++ i.operands : BitVec (8 + 24))

/-- The words of an instruction: its command word, then its data words (30_encoding.md R80, R91). -/
def encode (i : Instr) : List Word := commandWord i :: i.dataWords

/-- What each pseudo-instruction stands for (30_encoding.md R93). -/
def Pseudo.expand : Pseudo → List Instr
  | .clrtouch => [.settouch 0]
  | .blackout => [.setbri 0]
  | .rawfill c => [.raw (List.replicate 32 c)]
  | .restick => [.setgmode 0, .setgmode 1]

end Sys2Proof
end

