-- ==== Sys2Proof/Config.lean ====
section
/-! DEFINITION. The construction parameters of spec/00_scope.md R7, and their values in a built block. -/

namespace Sys2Proof

/-- The three chip families (00_scope.md R8). -/
inductive AdapterKind where
  | e12
  | e8
  | k16
deriving DecidableEq, Repr, Inhabited

/-- The native mask width `w` of a kind (00_scope.md R8). -/
def AdapterKind.width : AdapterKind → Nat
  | .e12 => 12
  | .e8 => 8
  | .k16 => 16

/-- One adapter's SegmentMapping (40_aggregator.md R101), with the ranges of 00_scope.md R7: a slice
outside them cannot be built, which is the refusal of 93_implementation_defined.md I7. -/
structure Adapter where
  kind : AdapterKind := .e8
  srcLo : Nat := 0
  len : Nat := 1
  dstLo : Nat := 0
  rev : Bool := false
  len_pos : 1 ≤ len := by decide
  slice_fits : srcLo + len ≤ kind.width := by decide
  dst_le : dstLo ≤ 31 := by decide
deriving DecidableEq, Repr, Inhabited

/-- `STICK_RULE` (00_scope.md R7, 41_resolver.md R133). -/
inductive StickRule where
  | either
  | leftStrict
  | rightStrict
deriving DecidableEq, Repr, Inhabited

/-- The four stepper timelines P, R, F and B (00_scope.md R13). -/
inductive Timeline where
  | pulse
  | rainbow
  | fade
  | blend
deriving DecidableEq, Repr, Inhabited

/-- `THR(t, speed)` as a table: one 32-bit threshold for each timeline and each speed 0..255
(00_scope.md R7; a function of the same arguments is exactly such a table, log 4). -/
structure Thresholds where
  pulse : Vector Word 256 := Vector.replicate 256 1
  rainbow : Vector Word 256 := Vector.replicate 256 1
  fade : Vector Word 256 := Vector.replicate 256 1
  blend : Vector Word 256 := Vector.replicate 256 1
deriving DecidableEq, Repr, Inhabited

/-- The construction parameters (00_scope.md R7), with their ranges as proofs: an ill-formed
configuration cannot be built, which is the refusal of 93_implementation_defined.md I4, I6, I7, I9.
`NA` is `adapters.length`, `GLEN` is `gradient.length`. The field defaults of RATE_MS, CENTER, STICK_RULE,
PULSE_MIN and PULSE_MAX are R7's values; the others are defaults of this record only (CENTER: log 3). -/
structure Params where
  adapters : List Adapter := []
  reverse : Bool := false
  rateMs : Nat := 1
  center : BitVec 8 := 0x80
  stickRule : StickRule := .either
  lps : Nat := 1
  pulseMin : Nat := 40
  pulseMax : Nat := 100
  gradient : List Color := [Color.black]
  rbOff : Segs Nat := Vector.replicate 32 0
  thr : Thresholds := {}
  na_le : adapters.length ≤ 32 := by decide
  rate_pos : 1 ≤ rateMs := by decide
  lps_pos : 1 ≤ lps := by decide
  pulse_le : pulseMin ≤ pulseMax := by decide
  pulse_max_le : pulseMax ≤ 100 := by decide
  glen_pos : 0 < gradient.length := by decide
  glen_le : gradient.length ≤ 2 ^ 32 := by decide
deriving DecidableEq, Repr, Inhabited

/-- `NA`, the number of configured adapters. -/
def Params.na (p : Params) : Nat := p.adapters.length

/-- `GLEN`, the length of the gradient table. -/
def Params.glen (p : Params) : Nat := p.gradient.length

/-- Parameter values nothing is known of: the OPEN ones (92_eei_decisions.md D37) are taken from here (log 2). -/
opaque Config.unknown : Params

/-- The block as built: RATE_MS, CENTER, STICK_RULE, PULSE_MIN and PULSE_MAX at the values of 00_scope.md R7,
every OPEN parameter left unknown (92_eei_decisions.md D37; log 2). -/
def Config.built : Params :=
  { Config.unknown with
    rateMs := 1, center := 0x80, stickRule := .either, pulseMin := 40, pulseMax := 100
    rate_pos := by decide, pulse_le := by decide, pulse_max_le := by decide }

/-- EX-A, the spec's own test configuration (95_test_vectors.md, conventions). Used by tests and witnesses only. -/
def Config.exA : Params :=
  { adapters :=
      [{ kind := .e12, srcLo := 0, len := 12, dstLo := 0, rev := true },
       { kind := .e12, srcLo := 0, len := 12, dstLo := 12, rev := true },
       { kind := .e8, srcLo := 0, len := 8, dstLo := 24, rev := false }] }

end Sys2Proof
end

