-- ==== Sys2Proof/Machine/State.lean ====
section
/-! DEFINITION. The state of the block (spec/10_state.md), the interfaces it stands behind (spec/20_memory.md),
the stop reasons, and the state after reset (spec/70_reset_and_hazards.md R270, R271). -/

namespace Sys2Proof.Machine

/-- One GestureTrack record (10_state.md R26). -/
structure Track where
  lm : BitVec 4
  rm : BitVec 4
  axis : BitVec 8
deriving DecidableEq, Repr

/-- `{0, 15, CENTER}`, a track's default (10_state.md R26, 41_resolver.md R133, R135). -/
def Track.default (center : BitVec 8) : Track := ⟨0, 15, center⟩

/-- `AXES`: left_axis, left_y, right_axis, right_y (10_state.md R27). -/
structure Axes where
  la : BitVec 8
  ly : BitVec 8
  ra : BitVec 8
  ry : BitVec 8
deriving DecidableEq, Repr

/-- The recognized gesture modes (41_resolver.md R131). -/
inductive GestureMode where
  | arcade
  | stick
deriving DecidableEq, Repr

/-- The recognized idle modes (42_compositor_config.md R151). -/
inductive IdleMode where
  | off
  | static
  | pulse
  | rainbowStatic
  | rainbowCycle
deriving DecidableEq, Repr

/-- The recognized touched modes (42_compositor_config.md R151). -/
inductive TouchedMode where
  | off
  | idle
  | touched
  | touchedFade
  | touchedIdle
deriving DecidableEq, Repr

/-- A command parser's state: `Idle`, or `Collect(cmd, k, buf)` with k data words still due (10_state.md R21). -/
inductive Parser where
  | idle
  | collect (cmd : Word) (k : Nat) (buf : List Word)
deriving DecidableEq, Repr

/-- A command whose words have all arrived (30_encoding.md R81). -/
structure Command where
  word : Word
  data : List Word
deriving DecidableEq, Repr

/-- A polling FUSE that waits on an adapter: the sampled time, and the masks received so far, adapter 0
first (20_memory.md R68, 40_aggregator.md R110; log 11). -/
structure FuseWait where
  t : Word
  got : List Word
deriving DecidableEq, Repr

/-- Unit A's registers (10_state.md R21 to R29) and its FUSE in progress. -/
structure UnitA where
  parser : Parser
  bitmap : Word
  valid : Bool
  lastMs : Word
  gmode : BitVec 8
  trkL : Track
  trkR : Track
  axes : Axes
  bres : Word
  err : Bool
  fuseWait : Option FuseWait
deriving DecidableEq, Repr

/-- The mailbox, `MBOX_VAL` and `MBOX_FULL` (10_state.md R30). -/
structure Mailbox where
  val : Word
  full : Bool
deriving DecidableEq, Repr

/-- Unit C's registers (10_state.md R21, R31 to R40). -/
structure UnitC where
  parser : Parser
  touch : Word
  bri : BitVec 8
  spd : BitVec 8
  imode : BitVec 8
  tmode : BitVec 8
  icol : Color
  tcol : Color
  upc : Bool
  rawen : Bool
  pcp : Bool
  pcol : Color
  accP : Word
  accR : Word
  accF : Word
  accB : Word
  pulseP : BitVec 7
  pulseDir : Bool
  phase : Word
  fadeF : Segs (BitVec 7)
  fadeC : Segs Color
  blend : BitVec 7
  idleL : Segs Color
  touchL : Segs Color
  err : Bool
deriving DecidableEq, Repr

/-- What can happen next outside or inside the block (20_memory.md R71, R77; 70_reset_and_hazards.md R270). -/
inductive Event where
  /-- The unit of this port takes a turn: one word, or its wait on the adapters (20_memory.md R71). -/
  | unit (p : Port)
  /-- The host sends a word on a command port (20_memory.md R77). -/
  | send (p : Port) (w : Word)
  /-- The host presents a TIME_MS value (20_memory.md R65). -/
  | time (t : Word)
  /-- Adapter a answers a poll with this mask (40_aggregator.md R102). -/
  | answer (a : Fin 32) (m : Word)
  /-- The reset input (70_reset_and_hazards.md R270). -/
  | reset
deriving DecidableEq, Repr

/-- What stands on the block's interfaces (20_memory.md R60): host words not yet taken, the time input,
adapter answers not yet used, the words and frames emitted so far, and the events still to come. Every
list is oldest first. -/
structure Io where
  cmdA : List Word
  cmdC : List Word
  timeMs : Word
  sense : Vector (List Word) 32
  respA : List Word
  respC : List Word
  frames : List (List (BitVec 24))
  events : List Event
deriving DecidableEq, Repr

/-- The whole machine: its construction parameters (written by no step; log 1), unit A, the mailbox,
unit C, the interfaces, and the port whose command is taking effect (log 14). -/
structure State where
  cfg : Params
  a : UnitA
  mbox : Mailbox
  c : UnitC
  io : Io
  port : Port
deriving DecidableEq, Repr

/-- Why the machine stops. The spec names no stop (60_exceptions.md R250, 70_reset_and_hazards.md R280). -/
inductive Fault where
  /-- Raised by `takeEffect` (Machine/Units.lean) when a parser hands over a command with another number of
  data words than ND(OP). No run reaches such a parser state (Safety.lean `Inv`), so it is safe (log 16). -/
  | dataCount
deriving DecidableEq, Repr

/-- Why an instruction has no meaning. -/
inductive Refusal where
  /-- Raised by `exec` for a row of the opcode table that is not modelled yet: safe. No arm raises it. -/
  | notModelled (mnemonic : String)
deriving DecidableEq, Repr

/-- Unit A after reset, in a block built with `cfg` (70_reset_and_hazards.md R271; its 0x80 is CENTER, log 3). -/
def UnitA.reset (cfg : Params) : UnitA :=
  { parser := .idle, bitmap := 0, valid := false, lastMs := 0, gmode := 0
    trkL := Track.default cfg.center, trkR := Track.default cfg.center
    axes := ⟨cfg.center, cfg.center, cfg.center, cfg.center⟩, bres := 0, err := false, fuseWait := none }

/-- The mailbox after reset (70_reset_and_hazards.md R271). -/
def Mailbox.reset : Mailbox := ⟨0, false⟩

/-- Unit C after reset, in a block built with `cfg` (70_reset_and_hazards.md R271). -/
def UnitC.reset (cfg : Params) : UnitC :=
  { parser := .idle, touch := 0, bri := 0, spd := 0, imode := 0, tmode := 0
    icol := Color.black, tcol := Color.black, upc := false, rawen := false
    pcp := false, pcol := Color.black, accP := 0, accR := 0, accF := 0, accB := 0
    pulseP := BitVec.ofNat 7 cfg.pulseMax, pulseDir := false, phase := 0
    fadeF := Vector.replicate 32 0, fadeC := Vector.replicate 32 Color.black, blend := 100
    idleL := Vector.replicate 32 Color.black, touchL := Vector.replicate 32 Color.black, err := false }

/-- Interfaces on which nothing has happened yet (logs 7 to 10, 12). -/
def Io.quiet : Io :=
  { cmdA := [], cmdC := [], timeMs := 0, sense := Vector.replicate 32 [], respA := [], respC := []
    frames := [], events := [] }

/-- A block built with `cfg`, right after reset (70_reset_and_hazards.md R270, R271). -/
def State.resetWith (cfg : Params) : State :=
  { cfg := cfg, a := UnitA.reset cfg, mbox := Mailbox.reset, c := UnitC.reset cfg, io := Io.quiet, port := .a }

/-- The block right after reset (70_reset_and_hazards.md R270, R271). -/
def State.reset : State := State.resetWith Config.built

end Sys2Proof.Machine
end

