-- ==== Sys2Proof/Machine/Flags.lean ====
section
/-! DEFINITION. The single-bit status state: the sticky error bits and the status words that READ packs
(spec/10_state.md R43, spec/44_system.md R232, R233). No command computes a condition code. -/

namespace Sys2Proof.Machine

/-- Three status bits, the first in bit 0. -/
def statusWord (b0 b1 b2 : Bool) : Word :=
  (BitVec.ofBool b2 ++ BitVec.ofBool b1 ++ BitVec.ofBool b0 : BitVec (1 + 1 + 1)).setWidth 32

/-- STATUS_A: VALID in [0], ERR_A in [1], MBOX_FULL in [2] (44_system.md R232). -/
def statusA (a : UnitA) (m : Mailbox) : Word := statusWord a.valid a.err m.full

/-- STATUS_C: 0 in [0], ERR_C in [1], MBOX_FULL in [2] (44_system.md R232). -/
def statusC (c : UnitC) (m : Mailbox) : Word := statusWord false c.err m.full

/-- FLAGS: UPC in [0], RAWEN in [1], PCP in [2] (44_system.md R232). -/
def flagsC (c : UnitC) : Word := statusWord c.upc c.rawen c.pcp

/-- `ERR_X <- 1` for the port X whose command is taking effect (44_system.md R233). -/
def setErr (s : State) : State :=
  match s.port with
  | .a => { s with a := { s.a with err := true } }
  | .c => { s with c := { s.c with err := true } }

end Sys2Proof.Machine
end

