-- ==== Sys2Proof/Machine/Operands.lean ====
section
/-! DEFINITION. Operand forms, mode numbers, bit reversal and per-channel colour arithmetic
(spec/30_encoding.md R83, spec/42_compositor_config.md R150, R151, spec/40_aggregator.md R100,
spec/43_compositor_render.md R189 to R193). -/

namespace Sys2Proof.Machine

/-- BREV's bit count `n = nm1 + 1`, in 1..32 (30_encoding.md R83). -/
def bitCount (nm1 : BitVec 5) : Nat := nm1.toNat + 1

/-- `min(u24, 255)` (42_compositor_config.md R150). -/
def clampByte (u24 : BitVec 24) : BitVec 8 := BitVec.ofNat 8 (min u24.toNat 255)

/-- GMODE's numbering: 0 arcade, 1 stick, any other value unrecognized (41_resolver.md R131). -/
def gestureModeOf (v : BitVec 8) : Option GestureMode :=
  if v = 0 then some .arcade
  else if v = 1 then some .stick
  else none

/-- IMODE's numbering (42_compositor_config.md R151). -/
def idleModeOf (v : BitVec 8) : Option IdleMode :=
  if v = 0 then some .off
  else if v = 1 then some .static
  else if v = 2 then some .pulse
  else if v = 3 then some .rainbowStatic
  else if v = 4 then some .rainbowCycle
  else none

/-- TMODE's numbering (42_compositor_config.md R151). -/
def touchedModeOf (v : BitVec 8) : Option TouchedMode :=
  if v = 0 then some .off
  else if v = 1 then some .idle
  else if v = 2 then some .touched
  else if v = 3 then some .touchedFade
  else if v = 4 then some .touchedIdle
  else none

/-- `bitrev(n, v)`: the n-bit value whose bit k is bit n-1-k of `v mod 2^n` (40_aggregator.md R100).
The input's bits are taken from low to high, each into the mirrored position. -/
def bitrev : Nat → Nat → Nat
  | 0, _ => 0
  | n + 1, v => (v % 2) <<< n ||| bitrev n (v >>> 1)

/-- One value for each of the 32 segments. -/
def perSegment {α : Type} (f : Fin 32 → α) : Segs α := ⟨⟨List.ofFn f⟩, by simp only [List.size_toArray, List.length_ofFn]⟩

/-- An operation on a colour acts on each channel by itself (00_scope.md R10, 44_system.md R235). -/
def mapChannels (f : Nat → Nat) (c : Color) : Color :=
  ⟨BitVec.ofNat 8 (f c.r.toNat), BitVec.ofNat 8 (f c.g.toNat), BitVec.ofNat 8 (f c.b.toNat)⟩

/-- The same for an operation on two colours. -/
def zipChannels (f : Nat → Nat → Nat) (c d : Color) : Color :=
  ⟨BitVec.ofNat 8 (f c.r.toNat d.r.toNat), BitVec.ofNat 8 (f c.g.toNat d.g.toNat),
   BitVec.ofNat 8 (f c.b.toNat d.b.toNat)⟩

/-- `(c.ch * p) div 100` (43_compositor_render.md R183). -/
def scalePercent (p : Nat) (c : Color) : Color := mapChannels (fun ch => ch * p / 100) c

/-- `mix(tgt, c, f)` (43_compositor_render.md R189). -/
def mix (tgt c : Color) (f : Nat) : Color :=
  zipChannels (fun t ch => (ch * f + t * (100 - f)) / 100) tgt c

/-- `max((idle.ch * BLEND) div 100, touched.ch)` (43_compositor_render.md R190). -/
def compositeColor (blend : Nat) (idle touched : Color) : Color :=
  zipChannels (fun i t => max (i * blend / 100) t) idle touched

/-- `(out.ch * BRI) div 255` (43_compositor_render.md R191). -/
def brighten (bri : Nat) (c : Color) : Color := mapChannels (fun ch => ch * bri / 255) c

/-- `max(c.r, c.g, c.b)`. -/
def maxChannel (c : Color) : Nat := max c.r.toNat (max c.g.toNat c.b.toNat)

/-- Raw normalization (43_compositor_render.md R193). -/
def rawnorm (bri : Nat) (c : Color) : Color :=
  if bri < maxChannel c then mapChannels (fun ch => ch * bri / maxChannel c) c else c

end Sys2Proof.Machine
end

