-- ==== Sys2Proof/Machine/Ops.lean ====
section
/-! DEFINITION. The shared operations: the bad command, the port check, the mailbox, the output streams,
the stepper, and the interfaces' queues and parsers (spec/44_system.md R233, spec/20_memory.md R60 to R65,
spec/43_compositor_render.md R180, spec/30_encoding.md R81, R89). -/

namespace Sys2Proof.Machine

/-! ### The one error: a bad command

The block takes no exception and returns from none (60_exceptions.md R250, R253, R254); what stands here
is its one error operation. -/

/-- `BadCmd()`: the sticky error bit of the receiving port, and no other effect (44_system.md R233). -/
def badCmd (s : State) : State := setErr s

/-- A command takes effect: its effect on a port its row names, BadCmd on any other (30_encoding.md R86, R89). -/
def perform (o : Opcode) (effect : State → State) (s : State) : Host.Outcome State Fault Refusal :=
  if o.legalOn s.port then .next (effect s) else .next (badCmd s)

/-! ### The mailbox -/

/-- `Send(v)` (20_memory.md R62). -/
def mailboxSend (v : Word) : Mailbox := ⟨v, true⟩

/-- `Take()`: the unread value, if there is one, and the mailbox after it (20_memory.md R62). -/
def mailboxTake (m : Mailbox) : Option Word × Mailbox :=
  if m.full then (some m.val, { m with full := false }) else (none, m)

/-! ### The output streams and the continuous outputs -/

/-- `Emit(RESP_X, w)`, X the port whose command is taking effect (20_memory.md R64). -/
def emitResponse (w : Word) (s : State) : State :=
  match s.port with
  | .a => { s with io := { s.io with respA := s.io.respA ++ [w] } }
  | .c => { s with io := { s.io with respC := s.io.respC ++ [w] } }

/-- The frame of 32 segment colours: LPS colour words for each, in segment order
(43_compositor_render.md R192, 20_memory.md R63). -/
def frameOf (lps : Nat) (segs : List Color) : List (BitVec 24) :=
  segs.flatMap (fun c => List.replicate lps (colorWord c))

/-- `Emit(FRAME_C, px)` (20_memory.md R63). -/
def emitFrame (px : List (BitVec 24)) (s : State) : State :=
  { s with io := { s.io with frames := s.io.frames ++ [px] } }

/-- The output BITMAP_OUT always shows BITMAP (20_memory.md R61). -/
def bitmapOut (s : State) : Word := s.a.bitmap

/-- The output AXES_OUT always shows AXES (20_memory.md R61). -/
def axesOut (s : State) : Axes := s.a.axes

/-! ### The stepper -/

/-- A timeline's accumulator (10_state.md R34). -/
def acc (c : UnitC) : Timeline → Word
  | .pulse => c.accP
  | .rainbow => c.accR
  | .fade => c.accF
  | .blend => c.accB

/-- Write a timeline's accumulator. -/
def setAcc (c : UnitC) (t : Timeline) (v : Word) : UnitC :=
  match t with
  | .pulse => { c with accP := v }
  | .rainbow => { c with accR := v }
  | .fade => { c with accF := v }
  | .blend => { c with accB := v }

/-- `THR(t, speed)` (00_scope.md R7). -/
def thr (cfg : Params) (t : Timeline) (spd : BitVec 8) : Word :=
  match t with
  | .pulse => cfg.thr.pulse[spd.toNat]
  | .rainbow => cfg.thr.rainbow[spd.toNat]
  | .fade => cfg.thr.fade[spd.toNat]
  | .blend => cfg.thr.blend[spd.toNat]

/-- `max(1, THR(t, SPD))` (43_compositor_render.md R180). -/
def threshold (cfg : Params) (t : Timeline) (spd : BitVec 8) : Nat := max 1 (thr cfg t spd).toNat

/-- `advance(t, e)`: the step count, and unit C with the accumulator's remainder. The sum is exact
(43_compositor_render.md R180). DESIGN CHOICE (log 23): at e = 0 this is R180's pseudocode too, so a threshold
that SETSPD lowered to the stored accumulator or below gives steps, where R200's corner case (a) says that
e = 0 advances no stepper. -/
def advance (cfg : Params) (t : Timeline) (e : Nat) (c : UnitC) : Nat × UnitC :=
  let sum := (acc c t).toNat + e
  let limit := threshold cfg t c.spd
  (sum / limit, setAcc c t (BitVec.ofNat 32 (sum % limit)))

/-! ### The command ports -/

/-- The words sent on a port and not yet taken. -/
def pending (s : State) : Port → List Word
  | .a => s.io.cmdA
  | .c => s.io.cmdC

/-- Replace a port's untaken words. -/
def setPending (s : State) (p : Port) (ws : List Word) : State :=
  match p with
  | .a => { s with io := { s.io with cmdA := ws } }
  | .c => { s with io := { s.io with cmdC := ws } }

/-- A port's parser state (10_state.md R21). -/
def parserOf (s : State) : Port → Parser
  | .a => s.a.parser
  | .c => s.c.parser

/-- Replace a port's parser state. -/
def setParser (s : State) (p : Port) (q : Parser) : State :=
  match p with
  | .a => { s with a := { s.a with parser := q } }
  | .c => { s with c := { s.c with parser := q } }

/-- One word through a parser: the state after it, and the command it completes, if it completes one
(30_encoding.md R81). -/
def acceptWord (q : Parser) (w : Word) : Parser × Option Command :=
  match q with
  | .idle =>
    let n := ndOf (opcodeField w)
    if n = 0 then (.idle, some ⟨w, []⟩) else (.collect w n [], none)
  | .collect cmd k buf =>
    if 1 < k then (.collect cmd (k - 1) (buf ++ [w]), none) else (.idle, some ⟨cmd, buf ++ [w]⟩)

/-! ### What the host and the adapters do -/

/-- The host sends a word (20_memory.md R77). -/
def hostSend (p : Port) (w : Word) (s : State) : State := setPending s p (pending s p ++ [w])

/-- The host presents a TIME_MS value (20_memory.md R65). -/
def hostTime (t : Word) (s : State) : State := { s with io := { s.io with timeMs := t } }

/-- An adapter answers (40_aggregator.md R102; log 10). -/
def adapterAnswer (a : Fin 32) (m : Word) (s : State) : State :=
  { s with io := { s.io with sense := s.io.sense.set a (s.io.sense[a] ++ [m]) } }

/-- The reset input: both units and the mailbox go to their reset values, a command half collected and a
waiting FUSE are dropped, and nothing is emitted (70_reset_and_hazards.md R270; log 13). -/
def resetBlock (s : State) : State :=
  { s with a := UnitA.reset s.cfg, mbox := Mailbox.reset, c := UnitC.reset s.cfg, port := .a }

end Sys2Proof.Machine
end

