-- ==== Sys2Proof/Machine/Aggregator.lean ====
section
/-! DEFINITION. Touch-bitmap aggregator: FUSE, BREV, PUBT (spec/40_aggregator.md). -/

namespace Sys2Proof.Machine

/-- An answer as FUSE takes it: `m mod 2^w` (40_aggregator.md R102). -/
def nativeMask (ad : Adapter) (m : Word) : Word := BitVec.ofNat 32 (m.toNat % 2 ^ ad.kind.width)

/-- `contrib(a, m)` (40_aggregator.md R103): bits above 31 are dropped. -/
def contrib (ad : Adapter) (m : Word) : Word :=
  let v := (m.toNat >>> ad.srcLo) % 2 ^ ad.len
  let v := if ad.rev then bitrev ad.len v else v
  BitVec.ofNat 32 (v <<< ad.dstLo)

/-- The OR-tree over the adapters' masks; with no adapter it is 0 (40_aggregator.md R104). -/
def fuseMasks : List Adapter → List Word → Word
  | ad :: ads, m :: ms => contrib ad m ||| fuseMasks ads ms
  | _, _ => 0

/-- `orient(x)` (40_aggregator.md R105). -/
def orient (cfg : Params) (x : Word) : Word :=
  if cfg.reverse then BitVec.ofNat 32 (bitrev 32 x.toNat) else x

/-- `due(t)` (40_aggregator.md R106). The difference is taken modulo 2^32. -/
def due (cfg : Params) (a : UnitA) (t : Word) : Bool :=
  !a.valid || decide (cfg.rateMs ≤ (t - a.lastMs).toNat)

/-- Poll the adapters from index `k` on, in order, as far as answers are ready: the masks received, and
the answers left (40_aggregator.md R102, R110). -/
def pollFrom : List Adapter → Nat → Vector (List Word) 32 → List Word × Vector (List Word) 32
  | [], _, q => ([], q)
  | ad :: ads, k, q =>
    if h : k < 32 then
      match q[k] with
      | [] => ([], q)
      | m :: rest =>
        let r := pollFrom ads (k + 1) (q.set k rest)
        (nativeMask ad m :: r.1, r.2)
    else ([], q)

/-- A polling FUSE goes on: it takes the answers that are ready; with the last one it writes BITMAP,
LAST_MS and VALID together, and until then it waits and no register changes (40_aggregator.md R110,
20_memory.md R68). -/
def fuseContinue (fw : FuseWait) (s : State) : State :=
  let r := pollFrom (s.cfg.adapters.drop fw.got.length) fw.got.length s.io.sense
  let got := fw.got ++ r.1
  let io := { s.io with sense := r.2 }
  if got.length < s.cfg.na then
    { s with io := io, a := { s.a with fuseWait := some { fw with got := got } } }
  else
    { s with
      io := io
      a := { s.a with
        bitmap := orient s.cfg (fuseMasks s.cfg.adapters got), lastMs := fw.t, valid := true
        fuseWait := none } }

/-- FUSE (40_aggregator.md R110): TIME_MS is sampled once; a FUSE that is not due changes nothing. -/
def fuseEffect (s : State) : State :=
  if due s.cfg s.a s.io.timeMs then fuseContinue ⟨s.io.timeMs, []⟩ s else s

/-- FUSE (40_aggregator.md R110). -/
def execFuse (s : State) : Host.Outcome State Fault Refusal := perform .fuse fuseEffect s

/-- BREV: `BRES <- zext_32(bitrev(n, v))` (40_aggregator.md R111). -/
def brevEffect (nm1 : BitVec 5) (v : Word) (s : State) : State :=
  { s with a := { s.a with bres := BitVec.ofNat 32 (bitrev (bitCount nm1) v.toNat) } }

/-- BREV (40_aggregator.md R111). -/
def execBrev (nm1 : BitVec 5) (v : Word) (s : State) : Host.Outcome State Fault Refusal :=
  perform .brev (brevEffect nm1 v) s

/-- PUBT: `Send(BITMAP)` (40_aggregator.md R112). -/
def pubtEffect (s : State) : State := { s with mbox := mailboxSend s.a.bitmap }

/-- PUBT (40_aggregator.md R112). -/
def execPubt (s : State) : Host.Outcome State Fault Refusal := perform .pubt pubtEffect s

end Sys2Proof.Machine
end

