-- ==== Sys2Proof/Machine/CompositorConfig.lean ====
section
/-! DEFINITION. Compositor configuration: SETBRI to CLRPC (spec/42_compositor_config.md). Each setter is legal
on port C only, and each takes effect at once. -/

namespace Sys2Proof.Machine

/-- SETBRI: `BRI <- min(u24, 255)` (42_compositor_config.md R152). -/
def setbriEffect (u24 : BitVec 24) (s : State) : State :=
  { s with c := { s.c with bri := clampByte u24 } }

/-- SETBRI (42_compositor_config.md R152). -/
def execSetbri (u24 : BitVec 24) (s : State) : Host.Outcome State Fault Refusal :=
  perform .setbri (setbriEffect u24) s

/-- SETSPD: `SPD <- min(u24, 255)`; no accumulator is reset (42_compositor_config.md R153). -/
def setspdEffect (u24 : BitVec 24) (s : State) : State :=
  { s with c := { s.c with spd := clampByte u24 } }

/-- SETSPD (42_compositor_config.md R153). -/
def execSetspd (u24 : BitVec 24) (s : State) : Host.Outcome State Fault Refusal :=
  perform .setspd (setspdEffect u24) s

/-- SETIMODE: on a change, the mode and the idle timelines' reset (42_compositor_config.md R154). -/
def setimodeEffect (v8 : BitVec 8) (s : State) : State :=
  if v8 ≠ s.c.imode then
    { s with
      c := { s.c with
        imode := v8, pulseP := BitVec.ofNat 7 s.cfg.pulseMax, pulseDir := false
        phase := 0, accP := 0, accR := 0 } }
  else s

/-- SETIMODE (42_compositor_config.md R154). -/
def execSetimode (v8 : BitVec 8) (s : State) : Host.Outcome State Fault Refusal :=
  perform .setimode (setimodeEffect v8) s

/-- SETTMODE: on a change, the mode and the fade timeline's reset (42_compositor_config.md R155). -/
def settmodeEffect (v8 : BitVec 8) (s : State) : State :=
  if v8 ≠ s.c.tmode then
    { s with
      c := { s.c with
        tmode := v8, fadeF := perSegment fun _ => 0, fadeC := perSegment fun _ => Color.black
        accF := 0 } }
  else s

/-- SETTMODE (42_compositor_config.md R155). -/
def execSettmode (v8 : BitVec 8) (s : State) : Host.Outcome State Fault Refusal :=
  perform .settmode (settmodeEffect v8) s

/-- SETICOL: `ICOL <- w[23:0]` (42_compositor_config.md R156). -/
def seticolEffect (col : Color) (s : State) : State :=
  { s with c := { s.c with icol := col } }

/-- SETICOL (42_compositor_config.md R156). -/
def execSeticol (col : Color) (s : State) : Host.Outcome State Fault Refusal :=
  perform .seticol (seticolEffect col) s

/-- SETTCOL: `TCOL <- w[23:0]` (42_compositor_config.md R157). -/
def settcolEffect (col : Color) (s : State) : State :=
  { s with c := { s.c with tcol := col } }

/-- SETTCOL (42_compositor_config.md R157). -/
def execSettcol (col : Color) (s : State) : Host.Outcome State Fault Refusal :=
  perform .settcol (settcolEffect col) s

/-- SETUPC: `UPC <- b1` (42_compositor_config.md R158). -/
def setupcEffect (b1 : Bool) (s : State) : State :=
  { s with c := { s.c with upc := b1 } }

/-- SETUPC (42_compositor_config.md R158). -/
def execSetupc (b1 : Bool) (s : State) : Host.Outcome State Fault Refusal :=
  perform .setupc (setupcEffect b1) s

/-- SETRAW: `RAWEN <- b1` (42_compositor_config.md R159). -/
def setrawEffect (b1 : Bool) (s : State) : State :=
  { s with c := { s.c with rawen := b1 } }

/-- SETRAW (42_compositor_config.md R159). -/
def execSetraw (b1 : Bool) (s : State) : Host.Outcome State Fault Refusal :=
  perform .setraw (setrawEffect b1) s

/-- SETTOUCH: `TOUCH <- x`; the mailbox is untouched (42_compositor_config.md R160). -/
def settouchEffect (x : Word) (s : State) : State :=
  { s with c := { s.c with touch := x } }

/-- SETTOUCH (42_compositor_config.md R160). -/
def execSettouch (x : Word) (s : State) : Host.Outcome State Fault Refusal :=
  perform .settouch (settouchEffect x) s

/-- SETPC: `PCOL <- w[23:0]; PCP <- 1` (42_compositor_config.md R161). -/
def setpcEffect (col : Color) (s : State) : State :=
  { s with c := { s.c with pcol := col, pcp := true } }

/-- SETPC (42_compositor_config.md R161). -/
def execSetpc (col : Color) (s : State) : Host.Outcome State Fault Refusal :=
  perform .setpc (setpcEffect col) s

/-- CLRPC: `PCP <- 0; PCOL <- 0x000000` (42_compositor_config.md R162). -/
def clrpcEffect (s : State) : State :=
  { s with c := { s.c with pcp := false, pcol := Color.black } }

/-- CLRPC (42_compositor_config.md R162). -/
def execClrpc (s : State) : Host.Outcome State Fault Refusal :=
  perform .clrpc clrpcEffect s

end Sys2Proof.Machine
end

