-- ==== Sys2Proof/Machine/Render.lean ====
section
/-! DEFINITION. Compositor rendering: TICK, RAW (spec/43_compositor_render.md). -/

namespace Sys2Proof.Machine

/-- The blend update (43_compositor_render.md R181); B advances on every rendering TICK (R194). -/
def blendUpdate (cfg : Params) (e : Nat) (c : UnitC) : UnitC :=
  let n := (advance cfg .blend e c).1
  let c := (advance cfg .blend e c).2
  { c with
    blend := BitVec.ofNat 7
      (if c.touch ≠ 0 then c.blend.toNat - min c.blend.toNat n else min 100 (c.blend.toNat + n)) }

/-! ### Idle layer -/

/-- `EIC`, the effective idle colour (43_compositor_render.md R182). -/
def effectiveIdleColor (c : UnitC) : Color := if c.upc && c.pcp then c.pcol else c.icol

/-- `pulse_unit_step` on (PULSE_P, PULSE_DIR) (43_compositor_render.md R183). -/
def pulseUnitStep (cfg : Params) (p : Nat × Bool) : Nat × Bool :=
  match p with
  | (v, false) => if v - 1 ≤ cfg.pulseMin then (cfg.pulseMin, true) else (v - 1, false)
  | (v, true) => if cfg.pulseMax ≤ v + 1 then (cfg.pulseMax, false) else (v + 1, true)

/-- `n` unit steps, one after the other. -/
def pulseSteps (cfg : Params) : Nat → Nat × Bool → Nat × Bool
  | 0, p => p
  | n + 1, p => pulseSteps cfg n (pulseUnitStep cfg p)

/-- After how many unit steps the triangle wave repeats (43_compositor_render.md R183). -/
def pulsePeriod (cfg : Params) : Nat :=
  if cfg.pulseMin < cfg.pulseMax then 2 * (cfg.pulseMax - cfg.pulseMin) else 2

/-- A step count with the same effect as `n` that is never large: R183 lets a model reduce nP by the
period. The first 128 steps are kept, so that the count is right from any 7-bit PULSE_P (log 17). -/
def pulseReduced (cfg : Params) (n : Nat) : Nat :=
  if n < 128 then n else 128 + (n - 128) % pulsePeriod cfg

/-- Pulse (43_compositor_render.md R183). -/
def pulseLayer (cfg : Params) (e : Nat) (c : UnitC) : UnitC :=
  let n := (advance cfg .pulse e c).1
  let c := (advance cfg .pulse e c).2
  let p := pulseSteps cfg (pulseReduced cfg n) (c.pulseP.toNat, c.pulseDir)
  let col := scalePercent p.1 (effectiveIdleColor c)
  { c with pulseP := BitVec.ofNat 7 p.1, pulseDir := p.2, idleL := perSegment fun _ => col }

/-- `G[i mod GLEN]` (43_compositor_render.md R184, R185). -/
def gradientAt (cfg : Params) (i : Nat) : Color :=
  cfg.gradient[i % cfg.gradient.length]'(Nat.mod_lt _ cfg.glen_pos)

/-- RainbowStatic (43_compositor_render.md R184). -/
def rainbowStaticLayer (cfg : Params) (c : UnitC) : UnitC :=
  { c with idleL := perSegment fun i => gradientAt cfg cfg.rbOff[i] }

/-- RainbowCycle: the phase advances before this TICK's read (43_compositor_render.md R185). -/
def rainbowCycleLayer (cfg : Params) (e : Nat) (c : UnitC) : UnitC :=
  let n := (advance cfg .rainbow e c).1
  let c := (advance cfg .rainbow e c).2
  let ph := (c.phase.toNat + n) % cfg.glen
  { c with
    phase := BitVec.ofNat 32 ph
    idleL := perSegment fun i => gradientAt cfg (ph + cfg.rbOff[i]) }

/-- The idle-layer dispatch (43_compositor_render.md R182): an unrecognized mode leaves the layer. -/
def idleLayer (cfg : Params) (e : Nat) (c : UnitC) : UnitC :=
  match idleModeOf c.imode with
  | some .off => { c with idleL := perSegment fun _ => Color.black }
  | some .static => { c with idleL := perSegment fun _ => effectiveIdleColor c }
  | some .pulse => pulseLayer cfg e c
  | some .rainbowStatic => rainbowStaticLayer cfg c
  | some .rainbowCycle => rainbowCycleLayer cfg e c
  | none => c

/-! ### Touched layer -/

/-- `TOUCH[s]`. -/
def touchedAt (c : UnitC) (i : Fin 32) : Bool := c.touch.getLsbD i

/-- The fade modes, with each segment's target (43_compositor_render.md R188). -/
def fadeLayer (cfg : Params) (e : Nat) (tgt : UnitC → Fin 32 → Color) (c : UnitC) : UnitC :=
  let n := (advance cfg .fade e c).1
  let c := (advance cfg .fade e c).2
  let f := fun i : Fin 32 =>
    if touchedAt c i then 100 else c.fadeF[i].toNat - min c.fadeF[i].toNat n
  let col := fun i : Fin 32 => if touchedAt c i then c.tcol else c.fadeC[i]
  { c with
    fadeF := perSegment fun i => BitVec.ofNat 7 (f i)
    fadeC := perSegment col
    touchL := perSegment fun i => mix (tgt c i) (col i) (f i) }

/-- The touched-layer dispatch (43_compositor_render.md R186, R187): an unrecognized mode leaves the layer. -/
def touchedLayer (cfg : Params) (e : Nat) (c : UnitC) : UnitC :=
  match touchedModeOf c.tmode with
  | some .off => { c with touchL := perSegment fun _ => Color.black }
  | some .idle => { c with touchL := perSegment fun i => c.idleL[i] }
  | some .touched =>
    { c with touchL := perSegment fun i => if touchedAt c i then c.tcol else Color.black }
  | some .touchedFade => fadeLayer cfg e (fun _ _ => Color.black) c
  | some .touchedIdle => fadeLayer cfg e (fun c i => c.idleL[i]) c
  | none => c

/-! ### Composite, brightness, commands -/

/-- Blend, idle layer and touched layer, in that order (43_compositor_render.md R200). -/
def renderLayers (cfg : Params) (e : Nat) (c : UnitC) : UnitC :=
  touchedLayer cfg e (idleLayer cfg e (blendUpdate cfg e c))

/-- `fin[s]`: composite, then brightness (43_compositor_render.md R190, R191). -/
def finalColors (c : UnitC) : Segs Color :=
  perSegment fun i => brighten c.bri.toNat (compositeColor c.blend.toNat c.idleL[i] c.touchL[i])

/-- TICK's mailbox take: `if r = some v: TOUCH <- v` (43_compositor_render.md R200). -/
def takeTouch (s : State) : State :=
  match (mailboxTake s.mbox).1 with
  | some v => { s with mbox := (mailboxTake s.mbox).2, c := { s.c with touch := v } }
  | none => { s with mbox := (mailboxTake s.mbox).2 }

/-- TICK's rendering: the layers, then one frame (43_compositor_render.md R200). -/
def renderFrame (e : Nat) (s : State) : State :=
  let c := renderLayers s.cfg e s.c
  emitFrame (frameOf s.cfg.lps (finalColors c).toList) { s with c := c }

/-- TICK (43_compositor_render.md R200): with RAWEN = 1 it stops after the mailbox take. -/
def tickEffect (e : Nat) (s : State) : State :=
  if (takeTouch s).c.rawen then takeTouch s else renderFrame e (takeTouch s)

/-- TICK (43_compositor_render.md R200). -/
def execTick (e : BitVec 24) (s : State) : Host.Outcome State Fault Refusal :=
  perform .tick (tickEffect e.toNat) s

/-- The segment colours of a raw frame; bits [31:24] of a data word are ignored (43_compositor_render.md R201). -/
def rawColors (bri : BitVec 8) (d : List Word) : List Color :=
  d.map fun w => rawnorm bri.toNat (colorOfWord (operandField w))

/-- RAW: with RAWEN = 1, one frame of the normalized colours; with RAWEN = 0 it is ignored
(43_compositor_render.md R201). -/
def rawEffect (d : List Word) (s : State) : State :=
  if s.c.rawen then emitFrame (frameOf s.cfg.lps (rawColors s.c.bri d)) s else s

/-- RAW (43_compositor_render.md R201). -/
def execRaw (d : List Word) (s : State) : Host.Outcome State Fault Refusal := perform .raw (rawEffect d) s

end Sys2Proof.Machine
end

