-- ==== Sys2Proof/Machine/Resolver.lean ====
section
/-! DEFINITION. Gesture position resolver: SETGMODE, RESOLVE, RESOLVEI (spec/41_resolver.md). -/

namespace Sys2Proof.Machine

/-- `hL = x[31:16]` (41_resolver.md R130). -/
def leftHalf (x : Word) : BitVec 16 := x.extractLsb' 16 16

/-- `hR = x[15:0]` (41_resolver.md R130). -/
def rightHalf (x : Word) : BitVec 16 := x.extractLsb' 0 16

/-- Scan from bit `i` downward for a set bit; 0 when none is met. -/
def scanDown (h : BitVec 16) : Nat → Nat
  | 0 => 0
  | i + 1 => if h.getLsbD (i + 1) then i + 1 else scanDown h i

/-- Scan `n` bits upward from bit `i` for a set bit; `i + n` when none is met. -/
def scanUp (h : BitVec 16) : Nat → Nat → Nat
  | 0, i => i
  | n + 1, i => if h.getLsbD i then i else scanUp h n (i + 1)

/-- `msb(h)`, the highest set bit's index of a nonzero half: bit 15 downward (41_resolver.md R130). -/
def msb (h : BitVec 16) : BitVec 4 := BitVec.ofNat 4 (scanDown h 15)

/-- `lsb(h)`, the lowest set bit's index of a nonzero half: bit 0 upward (41_resolver.md R130). -/
def lsb (h : BitVec 16) : BitVec 4 := BitVec.ofNat 4 (scanUp h 15 0)

/-- Both extents moved toward index 15, in the reading of `STICK_RULE` (41_resolver.md R133). -/
def toward15 (rule : StickRule) (t : Track) (l r : BitVec 4) : Bool :=
  match rule with
  | .either => decide (t.lm ≤ l ∧ t.rm ≤ r ∧ (t.lm < l ∨ t.rm < r))
  | .leftStrict => decide (t.lm < l ∧ t.rm ≤ r)
  | .rightStrict => decide (t.lm ≤ l ∧ t.rm < r)

/-- Both extents moved toward index 0, in the reading of `STICK_RULE` (41_resolver.md R133). -/
def toward0 (rule : StickRule) (t : Track) (l r : BitVec 4) : Bool :=
  match rule with
  | .either => decide (l ≤ t.lm ∧ r ≤ t.rm ∧ (l < t.lm ∨ r < t.rm))
  | .leftStrict => decide (l < t.lm ∧ r ≤ t.rm)
  | .rightStrict => decide (l ≤ t.lm ∧ r < t.rm)

/-- `track(T, h)` (41_resolver.md R133). -/
def trackUpdate (cfg : Params) (t : Track) (h : BitVec 16) : Track :=
  if h = 0 then Track.default cfg.center
  else
    { lm := msb h, rm := lsb h
      axis :=
        if toward15 cfg.stickRule t (msb h) (lsb h) then 0x00
        else if toward0 cfg.stickRule t (msb h) (lsb h) then 0xFF
        else t.axis }

/-- `arcade(x)` (41_resolver.md R132, whose 0x80 is CENTER, 44_system.md R234 (a); log 3). -/
def arcadeAxes (center : BitVec 8) (x : Word) : Axes :=
  { la := x.extractLsb' 0 8 ^^^ center
    ly := x.extractLsb' 8 8 ^^^ center
    ra := x.extractLsb' 16 8 ^^^ center
    ry := x.extractLsb' 24 8 ^^^ center }

/-- `stick(x)` (41_resolver.md R134). -/
def stickResolve (cfg : Params) (x : Word) (a : UnitA) : UnitA :=
  let l := trackUpdate cfg a.trkL (leftHalf x)
  let r := trackUpdate cfg a.trkR (rightHalf x)
  { a with
    trkL := l, trkR := r
    axes := { la := l.axis, ly := cfg.center, ra := r.axis, ry := cfg.center } }

/-- Resolve a bitmap in the current gesture mode; an unrecognized mode does nothing (41_resolver.md R131, R136). -/
def resolveBitmap (cfg : Params) (x : Word) (a : UnitA) : UnitA :=
  match gestureModeOf a.gmode with
  | some .arcade => { a with axes := arcadeAxes cfg.center x }
  | some .stick => stickResolve cfg x a
  | none => a

/-- SETGMODE: on a change of mode, the mode and both tracks' defaults (41_resolver.md R135). -/
def setgmodeEffect (v8 : BitVec 8) (s : State) : State :=
  if v8 ≠ s.a.gmode then
    { s with
      a := { s.a with gmode := v8, trkL := Track.default s.cfg.center, trkR := Track.default s.cfg.center } }
  else s

/-- SETGMODE (41_resolver.md R135). -/
def execSetgmode (v8 : BitVec 8) (s : State) : Host.Outcome State Fault Refusal :=
  perform .setgmode (setgmodeEffect v8) s

/-- RESOLVE: resolve BITMAP (41_resolver.md R136). -/
def resolveEffect (s : State) : State := { s with a := resolveBitmap s.cfg s.a.bitmap s.a }

/-- RESOLVE (41_resolver.md R136). -/
def execResolve (s : State) : Host.Outcome State Fault Refusal := perform .resolve resolveEffect s

/-- RESOLVEI: resolve the data word; BITMAP is neither read nor written (41_resolver.md R137). -/
def resolveiEffect (x : Word) (s : State) : State := { s with a := resolveBitmap s.cfg x s.a }

/-- RESOLVEI (41_resolver.md R137). -/
def execResolvei (x : Word) (s : State) : Host.Outcome State Fault Refusal :=
  perform .resolvei (resolveiEffect x) s

end Sys2Proof.Machine
end

