-- ==== Sys2Proof/Machine/System.lean ====
section
/-! DEFINITION. System commands: NOP, READ and the readback maps (spec/44_system.md R230 to R232). -/

namespace Sys2Proof.Machine

/-- AXES as READ packs it: LA in [7:0] up to RY in [31:24] (44_system.md R232). -/
def axesWord (x : Axes) : Word := (x.ry ++ x.ra ++ x.ly ++ x.la : BitVec (8 + 8 + 8 + 8))

/-- A track as READ packs it: lm in [7:0], rm in [15:8], axis in [23:16] (44_system.md R232). -/
def trackWord (t : Track) : Word :=
  (t.axis ++ t.rm.setWidth 8 ++ t.lm.setWidth 8 : BitVec (8 + 8 + 8)).setWidth 32

/-- Port A's readback map (44_system.md R232): an index not listed reads 0. -/
def readbackA (s : State) (idx : Nat) : Word :=
  match idx with
  | 0 => s.a.bitmap
  | 1 => axesWord s.a.axes
  | 2 => trackWord s.a.trkL
  | 3 => trackWord s.a.trkR
  | 4 => s.a.gmode.setWidth 32
  | 5 => s.a.bres
  | 6 => s.a.lastMs
  | 7 => statusA s.a s.mbox
  | _ => 0

/-- Port C's single registers, indices 0 to 16 (44_system.md R232). -/
def readbackScalarC (s : State) (idx : Nat) : Word :=
  match idx with
  | 0 => s.c.touch
  | 1 => s.c.bri.setWidth 32
  | 2 => s.c.spd.setWidth 32
  | 3 => s.c.imode.setWidth 32
  | 4 => s.c.tmode.setWidth 32
  | 5 => (colorWord s.c.icol).setWidth 32
  | 6 => (colorWord s.c.tcol).setWidth 32
  | 7 => flagsC s.c
  | 8 => (colorWord s.c.pcol).setWidth 32
  | 9 => s.c.blend.setWidth 32
  | 10 => (BitVec.ofBool s.c.pulseDir ++ s.c.pulseP.setWidth 8 : BitVec (1 + 8)).setWidth 32
  | 11 => s.c.phase
  | 12 => s.c.accP
  | 13 => s.c.accR
  | 14 => s.c.accF
  | 15 => s.c.accB
  | 16 => statusC s.c s.mbox
  | _ => 0

/-- Port C's readback map (44_system.md R232): an index not listed reads 0. -/
def readbackC (s : State) (idx : Nat) : Word :=
  if idx < 32 then readbackScalarC s idx
  else if h : idx - 32 < 32 then s.c.fadeF[idx - 32].setWidth 32
  else if h : idx - 64 < 32 then (colorWord s.c.fadeC[idx - 64]).setWidth 32
  else if h : idx - 96 < 32 then (colorWord s.c.idleL[idx - 96]).setWidth 32
  else if h : idx - 128 < 32 then (colorWord s.c.touchL[idx - 128]).setWidth 32
  else 0

/-- `readback_X(idx)`, X the port whose command is taking effect (44_system.md R231). -/
def readback (s : State) (idx : BitVec 8) : Word :=
  match s.port with
  | .a => readbackA s idx.toNat
  | .c => readbackC s idx.toNat

/-- NOP: nothing (44_system.md R230). -/
def nopEffect (s : State) : State := s

/-- NOP (44_system.md R230). -/
def execNop (s : State) : Host.Outcome State Fault Refusal := perform .nop nopEffect s

/-- READ: `Emit(RESP_X, readback_X(idx))` (44_system.md R231). -/
def readEffect (idx : BitVec 8) (s : State) : State := emitResponse (readback s idx) s

/-- READ (44_system.md R231). -/
def execRead (idx : BitVec 8) (s : State) : Host.Outcome State Fault Refusal := perform .read (readEffect idx) s

end Sys2Proof.Machine
end

