-- ==== Sys2Proof/Machine/Dispatch.lean ====
section
/-! DEFINITION. One arm per command: its meaning (spec/30_encoding.md R85). -/

namespace Sys2Proof.Machine

def exec (i : Instr) (s : State) : Host.Outcome State Fault Refusal :=
  match i with
  | .nop => Sys2Proof.Machine.execNop s
  | .read idx => Sys2Proof.Machine.execRead idx s
  | .fuse => Sys2Proof.Machine.execFuse s
  | .brev nm1 v => Sys2Proof.Machine.execBrev nm1 v s
  | .pubt => Sys2Proof.Machine.execPubt s
  | .setgmode v8 => Sys2Proof.Machine.execSetgmode v8 s
  | .resolve => Sys2Proof.Machine.execResolve s
  | .resolvei x => Sys2Proof.Machine.execResolvei x s
  | .setbri u24 => Sys2Proof.Machine.execSetbri u24 s
  | .setspd u24 => Sys2Proof.Machine.execSetspd u24 s
  | .setimode v8 => Sys2Proof.Machine.execSetimode v8 s
  | .settmode v8 => Sys2Proof.Machine.execSettmode v8 s
  | .seticol c => Sys2Proof.Machine.execSeticol c s
  | .settcol c => Sys2Proof.Machine.execSettcol c s
  | .setupc b1 => Sys2Proof.Machine.execSetupc b1 s
  | .setraw b1 => Sys2Proof.Machine.execSetraw b1 s
  | .settouch x => Sys2Proof.Machine.execSettouch x s
  | .setpc c => Sys2Proof.Machine.execSetpc c s
  | .clrpc => Sys2Proof.Machine.execClrpc s
  | .tick e => Sys2Proof.Machine.execTick e s
  | .raw d => Sys2Proof.Machine.execRaw d s

end Sys2Proof.Machine
end

