-- ==== Sys2Proof/Machine/Units.lean ====
section
/-! DEFINITION. One turn of a unit: it takes one word, or goes on with a FUSE that waits
(spec/20_memory.md R68, R71, spec/30_encoding.md R81, R87 to R89). -/

namespace Sys2Proof.Machine

/-- A command whose words have all arrived takes effect on its port; one that decodes to no instruction
is bad (30_encoding.md R81, R87, R88). -/
def takeEffect (p : Port) (cmd : Command) (s : State) : Host.Outcome State Fault Refusal :=
  match decodeCommand cmd.word cmd.data with
  | .ok i => exec i { s with port := p }
  | .error .undefinedOpcode => .next (badCmd { s with port := p })
  | .error .reservedBits => .next (badCmd { s with port := p })
  | .error .dataCount => .fault .dataCount
  | .error .truncated => .fault .dataCount

/-- A port takes one word whole (20_memory.md R68): the parser moves, and a completed command takes
effect (30_encoding.md R81). -/
def takeWord (p : Port) (w : Word) (s : State) : Host.Outcome State Fault Refusal :=
  match (acceptWord (parserOf s p) w).2 with
  | none => .next (setParser s p (acceptWord (parserOf s p) w).1)
  | some cmd => takeEffect p cmd (setParser s p (acceptWord (parserOf s p) w).1)

/-- The FUSE that holds a port, if one does: only port A is ever held (20_memory.md R74, 60_exceptions.md R256). -/
def heldBy (s : State) : Port → Option FuseWait
  | .a => s.a.fuseWait
  | .c => none

/-- A unit's turn: a held port goes on waiting and takes no word; a free port takes its next word, if the
host has sent one (20_memory.md R71, 60_exceptions.md R256, R262). -/
def unitTurn (p : Port) (s : State) : Host.Outcome State Fault Refusal :=
  match heldBy s p with
  | some fw => .next (fuseContinue fw s)
  | none =>
    match pending s p with
    | [] => .next s
    | w :: rest => takeWord p w (setPending s p rest)

/-- One event (20_memory.md R71, R77). -/
def handleEvent (ev : Event) (s : State) : Host.Outcome State Fault Refusal :=
  match ev with
  | .unit p => unitTurn p s
  | .send p w => .next (hostSend p w s)
  | .time t => .next (hostTime t s)
  | .answer a m => .next (adapterAnswer a m s)
  | .reset => .next (resetBlock s)

/-- The port an opcode-table word is placed on: one its row names, A where both are named (30_encoding.md R86). -/
def fetchPort (cmd : Word) : Port :=
  match opcodeOfBits (opcodeField cmd) with
  | some o => if o.legalOn .a then .a else .c
  | none => .a

/-- `s` with a command's words where the next step takes the last of them: the parser holds every word
before it, the last one is the next on the port, and the unit has the turn (30_encoding.md R81; log 15). -/
def placeCommand (p : Port) (ws : List Word) (s : State) : State :=
  let s := { s with io := { s.io with events := .unit p :: s.io.events } }
  let s := { s with a := { s.a with fuseWait := if p = .a then none else s.a.fuseWait } }
  match ws with
  | [] => s
  | [w] => setPending (setParser s p .idle) p (w :: pending s p)
  | w :: d :: ds =>
    let data := d :: ds
    setPending (setParser s p (.collect w 1 data.dropLast)) p (data.getLastD 0 :: pending s p)

end Sys2Proof.Machine
end

