-- ==== Sys2Proof/Machine/Step.lean ====
section
/-! DEFINITION. One step of the machine: the next event happens (spec/20_memory.md R71, R72; logs 6, 7). -/

namespace Sys2Proof.Machine

/-- One step. With no event left nothing happens: the block never halts by itself
(70_reset_and_hazards.md R280; log 7). -/
def step (s : State) : Host.Outcome State Fault Refusal :=
  match s.io.events with
  | [] => .next s
  | ev :: rest => handleEvent ev { s with io := { s.io with events := rest } }

/-- `s` with an opcode-table word's command as the very next one to take effect (log 15). -/
def State.withFetchWord (s : State) (nbits w : Nat) : State :=
  placeCommand (fetchPort (BitVec.ofNat 32 (w % 2 ^ nbits))) (tableWords nbits w) s

end Sys2Proof.Machine
end

