-- ==== Sys2Proof/Machine/Assembler.lean ====
section
/-! DEFINITION. The assembler: one command per line, operands range-checked, pseudo-instructions expanded
(spec/30_encoding.md R92, R93; log 22 for what R92 leaves open about blanks and capitals). -/

namespace Sys2Proof.Machine

/-- The mnemonics of 30_encoding.md R85. -/
def mnemonicOf : Opcode → String
  | .nop => "NOP"
  | .read => "READ"
  | .fuse => "FUSE"
  | .brev => "BREV"
  | .pubt => "PUBT"
  | .setgmode => "SETGMODE"
  | .resolve => "RESOLVE"
  | .resolvei => "RESOLVEI"
  | .setbri => "SETBRI"
  | .setspd => "SETSPD"
  | .setimode => "SETIMODE"
  | .settmode => "SETTMODE"
  | .seticol => "SETICOL"
  | .settcol => "SETTCOL"
  | .setupc => "SETUPC"
  | .setraw => "SETRAW"
  | .settouch => "SETTOUCH"
  | .setpc => "SETPC"
  | .clrpc => "CLRPC"
  | .tick => "TICK"
  | .raw => "RAW"

/-- The only operand, if it is below `bound`. -/
def oneOperand (bound : Nat) (ops : List Nat) (f : Nat → Instr) : Option Instr :=
  match ops with
  | [v] => if v < bound then some (f v) else none
  | _ => none

/-- No operand. -/
def noOperand (ops : List Nat) (i : Instr) : Option Instr :=
  match ops with
  | [] => some i
  | _ => none

/-- The instruction of a mnemonic and its operands; an operand outside its field's range is refused
(30_encoding.md R92). -/
def assembleInstr (o : Opcode) (ops : List Nat) : Option Instr :=
  match o with
  | .nop => noOperand ops .nop
  | .read => oneOperand (2 ^ 8) ops fun v => .read (BitVec.ofNat 8 v)
  | .fuse => noOperand ops .fuse
  | .brev =>
    match ops with
    | [n, v] =>
      if 1 ≤ n ∧ n ≤ 32 ∧ v < 2 ^ 32 then some (.brev (BitVec.ofNat 5 (n - 1)) (BitVec.ofNat 32 v)) else none
    | _ => none
  | .pubt => noOperand ops .pubt
  | .setgmode => oneOperand (2 ^ 8) ops fun v => .setgmode (BitVec.ofNat 8 v)
  | .resolve => noOperand ops .resolve
  | .resolvei => oneOperand (2 ^ 32) ops fun v => .resolvei (BitVec.ofNat 32 v)
  | .setbri => oneOperand (2 ^ 24) ops fun v => .setbri (BitVec.ofNat 24 v)
  | .setspd => oneOperand (2 ^ 24) ops fun v => .setspd (BitVec.ofNat 24 v)
  | .setimode => oneOperand (2 ^ 8) ops fun v => .setimode (BitVec.ofNat 8 v)
  | .settmode => oneOperand (2 ^ 8) ops fun v => .settmode (BitVec.ofNat 8 v)
  | .seticol => oneOperand (2 ^ 24) ops fun v => .seticol (colorOfWord (BitVec.ofNat 24 v))
  | .settcol => oneOperand (2 ^ 24) ops fun v => .settcol (colorOfWord (BitVec.ofNat 24 v))
  | .setupc => oneOperand 2 ops fun v => .setupc (v == 1)
  | .setraw => oneOperand 2 ops fun v => .setraw (v == 1)
  | .settouch => oneOperand (2 ^ 32) ops fun v => .settouch (BitVec.ofNat 32 v)
  | .setpc => oneOperand (2 ^ 24) ops fun v => .setpc (colorOfWord (BitVec.ofNat 24 v))
  | .clrpc => noOperand ops .clrpc
  | .tick => oneOperand (2 ^ 24) ops fun v => .tick (BitVec.ofNat 24 v)
  | .raw =>
    if ops.length = 32 ∧ ops.all (· < 2 ^ 32) then some (.raw (ops.map (BitVec.ofNat 32))) else none

/-- The pseudo-instruction of a mnemonic and its operands (30_encoding.md R93). -/
def assemblePseudo (name : List Char) (ops : List Nat) : Option Pseudo :=
  match ops with
  | [] =>
    if name = "CLRTOUCH".toList then some .clrtouch
    else if name = "BLACKOUT".toList then some .blackout
    else if name = "RESTICK".toList then some .restick
    else none
  | [c] =>
    if name = "RAWFILL".toList ∧ c < 2 ^ 32 then some (.rawfill (BitVec.ofNat 32 c)) else none
  | _ => none

/-- The words of a mnemonic, pseudo-instruction or directive and its operands (30_encoding.md R92, R93). -/
def assembleOp (name : List Char) (ops : List Nat) : Option (List Word) :=
  match allOpcodes.find? (fun o => (mnemonicOf o).toList == name) with
  | some o => (assembleInstr o ops).map encode
  | none =>
    if name = ".word".toList then
      match ops with
      | [w] => if w < 2 ^ 32 then some [BitVec.ofNat 32 w] else none
      | _ => none
    else (assemblePseudo name ops).map fun p => p.expand.flatMap encode

/-- The value of one digit. -/
def digitValue (base : Nat) (c : Char) : Option Nat :=
  let v :=
    if '0' ≤ c ∧ c ≤ '9' then c.toNat - '0'.toNat
    else if 'a' ≤ c ∧ c ≤ 'f' then c.toNat - 'a'.toNat + 10
    else if 'A' ≤ c ∧ c ≤ 'F' then c.toNat - 'A'.toNat + 10
    else base
  if v < base then some v else none

/-- Digits, most significant first, after the value `n`. -/
def digitsFrom (base : Nat) : Nat → List Char → Option Nat
  | n, [] => some n
  | n, c :: cs =>
    match digitValue base c with
    | some d => digitsFrom base (n * base + d) cs
    | none => none

/-- A decimal or `0x` hexadecimal number (30_encoding.md R92). -/
def number (cs : List Char) : Option Nat :=
  match cs with
  | [] => none
  | '0' :: 'x' :: ds => if ds.isEmpty then none else digitsFrom 16 0 ds
  | ds => digitsFrom 10 0 ds

/-- A blank. -/
def isBlank (c : Char) : Bool := c == ' ' || c == '\t'

/-- Without blanks at either end. -/
def trimBlanks (cs : List Char) : List Char := ((cs.dropWhile isBlank).reverse.dropWhile isBlank).reverse

/-- The pieces between commas. -/
def splitCommas : List Char → List (List Char)
  | [] => [[]]
  | c :: cs =>
    if c = ',' then [] :: splitCommas cs
    else
      match splitCommas cs with
      | p :: ps => (c :: p) :: ps
      | [] => [[c]]

/-- The numbers of a list of pieces; one that is no number refuses all. -/
def numbers : List (List Char) → Option (List Nat)
  | [] => some []
  | p :: ps =>
    match number (trimBlanks p), numbers ps with
    | some n, some ns => some (n :: ns)
    | _, _ => none

/-- One source line: `;` starts a comment, an empty line has no words (30_encoding.md R92). -/
def assembleLine (line : String) : Option (List Word) :=
  let cs := trimBlanks (line.toList.takeWhile (· ≠ ';'))
  if cs.isEmpty then some []
  else
    let name := cs.takeWhile (fun c => !isBlank c)
    let rest := trimBlanks (cs.dropWhile (fun c => !isBlank c))
    if rest.isEmpty then assembleOp name []
    else (numbers (splitCommas rest)).bind (assembleOp name)

/-- A program for one port: the words of its lines, in order. -/
def assemble : List String → Option (List Word)
  | [] => some []
  | l :: ls =>
    match assembleLine l, assemble ls with
    | some ws, some rest => some (ws ++ rest)
    | _, _ => none

end Sys2Proof.Machine
end

