-- ==== Sys2Proof/Safety.lean ====
section
/-! DEFINITION. The invariant of every reachable state (spec/10_state.md R45), safe steps, and the quiescent
run with its observation (spec/70_reset_and_hazards.md R280). -/

namespace Sys2Proof.Machine

/-- A parser state that 30_encoding.md R81 can reach: k ≥ 1 data words are due, and with those received
they are ND(OP). -/
def ParserOk : Parser → Prop
  | .idle => True
  | .collect cmd k buf => 1 ≤ k ∧ buf.length + k = ndOf (opcodeField cmd)

/-- An axis value stick mode can leave: 0x00, CENTER or 0xFF (10_state.md R45 (b), whose 0x80 is CENTER; log 3). -/
def AxisOk (center axis : BitVec 8) : Prop := axis = 0x00 ∨ axis = center ∨ axis = 0xFF

/-- What holds in every reachable state: 10_state.md R45 (b), (d), (e), (f), the parser states of R21 and
30_encoding.md R81, and that a port held by a FUSE still lacks a mask and has taken no further word
(40_aggregator.md R110, 60_exceptions.md R256). R45 (a) is the type of its registers. -/
structure Inv (s : State) : Prop where
  parser_a : ParserOk s.a.parser
  parser_c : ParserOk s.c.parser
  axis_l : AxisOk s.cfg.center s.a.trkL.axis
  axis_r : AxisOk s.cfg.center s.a.trkR.axis
  pulse_lo : s.cfg.pulseMin ≤ s.c.pulseP.toNat
  pulse_hi : s.c.pulseP.toNat ≤ s.cfg.pulseMax
  fade_le : ∀ i : Fin 32, s.c.fadeF[i].toNat ≤ 100
  blend_le : s.c.blend.toNat ≤ 100
  phase_lt : s.c.phase.toNat < s.cfg.glen
  wait_idle : ∀ fw, s.a.fuseWait = some fw → s.a.parser = .idle
  wait_short : ∀ fw, s.a.fuseWait = some fw → fw.got.length < s.cfg.na

/-- The step goes on. The block never halts by itself (70_reset_and_hazards.md R280). -/
def GoesOn (s : State) : Prop := ∃ t, step s = .next t

/-- `n` steps, stopping at the first stop. -/
def runSteps : Nat → State → Host.Outcome State Fault Refusal
  | 0, s => .next s
  | n + 1, s =>
    match step s with
    | .next t => runSteps n t
    | .fault r => .fault r
    | .refused r => .refused r

/-- A quiescent state (70_reset_and_hazards.md R280): both parsers Idle, no FUSE waiting, no word left. -/
def Quiescent (s : State) : Prop :=
  s.a.parser = .idle ∧ s.c.parser = .idle ∧ s.a.fuseWait = none ∧ s.io.cmdA = [] ∧ s.io.cmdC = []

/-- What is observed of a quiescent run (70_reset_and_hazards.md R280): the readback values of both ports,
the continuous outputs, and the emitted sequences. -/
structure Observation where
  readA : List Word
  readC : List Word
  bitmapOut : Word
  axesOut : Axes
  respA : List Word
  respC : List Word
  frames : List (List (BitVec 24))
deriving DecidableEq, Repr

/-- The observation of a state. -/
def observe (s : State) : Observation :=
  { readA := (List.range 256).map (readbackA s), readC := (List.range 256).map (readbackC s)
    bitmapOut := bitmapOut s, axesOut := axesOut s
    respA := s.io.respA, respC := s.io.respC, frames := s.io.frames }

end Sys2Proof.Machine
end

