-- ==== Sys2Proof/Certificates/Slice0/Obligations.lean ====
section
/-! DEFINITION. The statements for the provers. Each docstring names the rules of spec/ it formalises. -/

namespace Sys2Proof.Machine

/-! ### Words the statements share -/

/-- From `s` to `t` only the sticky error bit of `s.port` is set (44_system.md R233). -/
def OnlyErrSet (s t : State) : Prop :=
  (s.port = .a → t = { s with a := { s.a with err := true } }) ∧
  (s.port = .c → t = { s with c := { s.c with err := true } })

/-- On port `p` this instruction is a bad command, whatever the state (30_encoding.md R89). -/
def BadOn (p : Port) (i : Instr) : Prop :=
  ∀ s : State, s.port = p → ∃ t, exec i s = .next t ∧ OnlyErrSet s t

/-- `s` after port `p`'s untaken words became `rest` and the events to come became `es`. -/
def takenTo (s : State) (p : Port) (rest : List Word) (es : List Event) : State :=
  setPending { s with io := { s.io with events := es } } p rest

/-- Port `p` is free and its parser Idle, it has `ws` and then `rest` to take, and the next events are
one turn of its unit for each word of `ws`, then `es`. -/
def ReadyFor (s : State) (p : Port) (ws rest : List Word) (es : List Event) : Prop :=
  heldBy s p = none ∧ parserOf s p = .idle ∧ pending s p = ws ++ rest ∧
  s.io.events = List.replicate ws.length (.unit p) ++ es

/-- Column ND of 30_encoding.md R85, written out by opcode value. -/
def dataWordsDue (op : BitVec 8) : Nat :=
  if op = 0x11 ∨ op = 0x22 ∨ op = 0x38 then 1 else if op = 0x3C then 32 else 0

/-- A command word of opcode `op` with a 1 in a bit of `mask` performs only BadCmd when its data words have
arrived, on either port and whatever they are (30_encoding.md R87). -/
def ReservedBitsAreBad (op : BitVec 8) (mask : BitVec 24) : Prop :=
  ∀ (s : State) (p : Port) (w : Word) (data : List Word),
    w.extractLsb' 24 8 = op → w.extractLsb' 0 24 &&& mask ≠ 0 → data.length = dataWordsDue op →
    ∃ t, takeEffect p ⟨w, data⟩ s = .next t ∧ OnlyErrSet { s with port := p } t

/-- A 1 in a bit that the format of a defined opcode marks 0 (30_encoding.md R82, R85), written out by opcode value. -/
def ReservedBitSet (w : Word) : Prop :=
  (w.extractLsb' 24 8 ∈ ([0x00, 0x10, 0x12, 0x21, 0x22, 0x38, 0x3A, 0x3C] : List (BitVec 8)) ∧
    w.extractLsb' 0 24 ≠ 0) ∨
  (w.extractLsb' 24 8 ∈ ([0x01, 0x20, 0x32, 0x33] : List (BitVec 8)) ∧ w.extractLsb' 8 16 ≠ 0) ∨
  (w.extractLsb' 24 8 ∈ ([0x36, 0x37] : List (BitVec 8)) ∧ w.extractLsb' 1 23 ≠ 0) ∨
  (w.extractLsb' 24 8 = 0x11 ∧ w.extractLsb' 5 19 ≠ 0)

/-- Adapters `k`, `k+1`, … up to the last configured one have the answers `ms` ready, in order
(40_aggregator.md R102). -/
def AnswersReady (s : State) (k : Nat) (ms : List Word) : Prop :=
  k + ms.length = s.cfg.na ∧
  ∀ (j : Fin 32) (m : Word), k ≤ j.val → ms[j.val - k]? = some m → ∃ rest, s.io.sense[j] = m :: rest

/-- Polling the adapters `k`, `k+1`, … in order with the answers `q` ready receives the masks `got` and leaves
the answers `q'`: one answer of each, its low w bits kept, up to the first adapter with none ready, and no other
answer is touched (40_aggregator.md R102, R110). -/
def PollsUpTo (cfg : Params) (k : Nat) (q : Vector (List Word) 32) (got : List Word)
    (q' : Vector (List Word) 32) : Prop :=
  k + got.length ≤ cfg.na ∧
  (∀ j : Fin 32, k ≤ j.val → j.val < k + got.length →
    ∃ (ad : Adapter) (m : Word), cfg.adapters[j.val]? = some ad ∧ q[j] = m :: q'[j] ∧
      got[j.val - k]? = some (BitVec.ofNat 32 (m.toNat % 2 ^ ad.kind.width))) ∧
  (∀ j : Fin 32, j.val < k ∨ k + got.length ≤ j.val → q'[j] = q[j]) ∧
  (∀ j : Fin 32, j.val = k + got.length → j.val < cfg.na → q[j] = [])

/-- Bit `i` of the fused value of the masks `ms` (40_aggregator.md R101, R103, R104), said of the masks'
own bits: some adapter places a set bit of its slice there, mirrored within the slice if `rev`. -/
def FusedBit (cfg : Params) (ms : List Word) (i : Nat) : Prop :=
  ∃ (k : Nat) (ad : Adapter) (m : Word), cfg.adapters[k]? = some ad ∧ ms[k]? = some m ∧
    ad.dstLo ≤ i ∧ i < ad.dstLo + ad.len ∧
    m.getLsbD (if ad.rev then ad.srcLo + (ad.len - 1 - (i - ad.dstLo)) else ad.srcLo + (i - ad.dstLo)) = true

/-- `bm` is the oriented fusion of the masks `ms` (40_aggregator.md R104, R105). -/
def IsFusionOf (cfg : Params) (ms : List Word) (bm : Word) : Prop :=
  ∀ i, i < 32 → (bm.getLsbD i = true ↔ FusedBit cfg ms (if cfg.reverse then 31 - i else i))

/-- The touch bitmap a TICK renders with: the mailbox value if it is unread, else TOUCH (43_compositor_render.md R200). -/
def touchAfterTake (s : State) : Word := if s.mbox.full then s.mbox.val else s.c.touch

/-- One pulse unit step from (PULSE_P, PULSE_DIR) = `p` to `q`: falling or rising by 1, with the clamp and the
flip at the bound it reaches (43_compositor_render.md R183). -/
def PulseUnitStep (cfg : Params) (p q : Nat × Bool) : Prop :=
  (p.2 = false → cfg.pulseMin + 1 < p.1 → q = (p.1 - 1, false)) ∧
  (p.2 = false → p.1 ≤ cfg.pulseMin + 1 → q = (cfg.pulseMin, true)) ∧
  (p.2 = true → p.1 + 1 < cfg.pulseMax → q = (p.1 + 1, true)) ∧
  (p.2 = true → cfg.pulseMax ≤ p.1 + 1 → q = (cfg.pulseMax, false))

/-- The assembler makes of this mnemonic's opcode and operands an instruction with these words (30_encoding.md R92). -/
def AssemblesTo (o : Opcode) (ops ws : List Nat) : Prop :=
  ∃ i, assembleInstr o ops = some i ∧ (encode i).map BitVec.toNat = ws

/-- A 24-bit colour word from its channels' values (00_scope.md R11). -/
def packRgb (r g b : Nat) : BitVec 24 :=
  (BitVec.ofNat 8 r ++ BitVec.ofNat 8 g ++ BitVec.ofNat 8 b : BitVec (8 + 8 + 8))

/-- A channel of a colour word: 0 blue, 1 green, 2 red. -/
def channelOf (px : BitVec 24) (ch : Fin 3) : Nat := (px.extractLsb' (8 * ch.val) 8).toNat

end Sys2Proof.Machine

open Sys2Proof Sys2Proof.Machine

/-! ### Encoding -/

/-- Words written out from 30_encoding.md R82 to R85 and the examples of 95_test_vectors.md decode to
their instructions, one per family. -/
def Obligations.DecodesWrittenOutWords : Prop :=
  decode [0x01000007] = .ok (.read 7, []) ∧
  decode [0x1100000B, 0x00000ABC] = .ok (.brev 11 0xABC, []) ∧
  decode [0x20000001, 0x21000000] = .ok (.setgmode 1, [0x21000000]) ∧
  decode [0x34C86432] = .ok (.seticol ⟨200, 100, 50⟩, []) ∧
  decode [0x36000001] = .ok (.setupc true, []) ∧
  decode [0x3B000032] = .ok (.tick 50, []) ∧
  decode [0x22000000, 0x38000000] = .ok (.resolvei 0x38000000, []) ∧
  decode [0x36000002] = .error .reservedBits ∧
  decode [0x3D000000] = .error .undefinedOpcode

/-- Decoding the words of any well-formed instruction gives it back, every operand at every value, and
leaves the words after it (30_encoding.md R80 to R85). -/
def Obligations.DecodeOfEncodeIsTheInstruction : Prop :=
  ∀ (i : Instr) (rest : List Word), i.wf = true → decode (encode i ++ rest) = .ok (i, rest)

/-- Words that decode have one reading: encoding what was decoded gives the words taken
(30_encoding.md R80, R82, R87: reserved bits are zero and no other bit is dropped). -/
def Obligations.EncodeOfDecodeIsTheWords : Prop :=
  ∀ (ws : List Word) (i : Instr) (rest : List Word), decode ws = .ok (i, rest) →
    i.wf = true ∧ encode i ++ rest = ws

/-- R87: a command word of a defined opcode with a reserved bit set takes its ND data words, then performs
only BadCmd. -/
def Obligations.ReservedBitPerformsOnlyBadCmd : Prop :=
  ∀ (s : State) (p : Port) (w : Word) (data rest : List Word) (es : List Event),
    ReservedBitSet w → data.length = dataWordsDue (w.extractLsb' 24 8) →
    ReadyFor s p (w :: data) rest es →
    ∃ t, runSteps (data.length + 1) s = .next t ∧ OnlyErrSet { takenTo s p rest es with port := p } t

/-- R88: an undefined opcode has ND = 0 and performs only BadCmd on its port. -/
def Obligations.UndefinedOpcodePerformsOnlyBadCmd : Prop :=
  ∀ (s : State) (p : Port) (w : Word) (rest : List Word) (es : List Event),
    let op := (w.extractLsb' 24 8).toNat
    ((0x02 ≤ op ∧ op ≤ 0x0F) ∨ (0x13 ≤ op ∧ op ≤ 0x1F) ∨ (0x23 ≤ op ∧ op ≤ 0x2F) ∨ 0x3D ≤ op) →
    ReadyFor s p [w] rest es →
    ∃ t, step s = .next t ∧ OnlyErrSet { takenTo s p rest es with port := p } t

/-- R89, with R86: a command on a port its row does not name takes its ND data words, then performs only
BadCmd on the port it arrived on. -/
def Obligations.WrongPortPerformsOnlyBadCmd : Prop :=
  ∀ (s : State) (p : Port) (w : Word) (data rest : List Word) (es : List Event),
    let op := (w.extractLsb' 24 8).toNat
    ((p = .c ∧ 0x10 ≤ op ∧ op ≤ 0x22) ∨ (p = .a ∧ 0x30 ≤ op ∧ op ≤ 0x3C)) →
    data.length = dataWordsDue (w.extractLsb' 24 8) →
    ReadyFor s p (w :: data) rest es →
    ∃ t, runSteps (data.length + 1) s = .next t ∧ OnlyErrSet { takenTo s p rest es with port := p } t

/-- R92, every operand form: in range, each mnemonic assembles to its words of R85 with the numbers written in
their fields; an operand outside its field's range, or another number of operands, is refused; and what is
assembled is well formed and decodes to itself, so no reserved bit is set. (That a data word of RAW may have
32 bits is log 22's choice.) -/
def Obligations.AssembledInstructionsDecodeToThemselves : Prop :=
  (∀ (o : Opcode) (ops : List Nat) (i : Instr), assembleInstr o ops = some i →
    i.wf = true ∧ i.opcode = o ∧ decode (encode i) = .ok (i, [])) ∧
  (∀ x ∈ [(Opcode.nop, 0x00), (.fuse, 0x10), (.pubt, 0x12), (.resolve, 0x21), (.clrpc, 0x3A)],
    AssemblesTo x.1 [] [x.2 * 2 ^ 24]) ∧
  (∀ x ∈ [(Opcode.read, 0x01, 2 ^ 8), (.setgmode, 0x20, 2 ^ 8), (.setimode, 0x32, 2 ^ 8), (.settmode, 0x33, 2 ^ 8),
      (.setbri, 0x30, 2 ^ 24), (.setspd, 0x31, 2 ^ 24), (.tick, 0x3B, 2 ^ 24), (.seticol, 0x34, 2 ^ 24),
      (.settcol, 0x35, 2 ^ 24), (.setpc, 0x39, 2 ^ 24), (.setupc, 0x36, 2), (.setraw, 0x37, 2)],
    ∀ v : Nat, (v < x.2.2 → AssemblesTo x.1 [v] [x.2.1 * 2 ^ 24 + v]) ∧ (x.2.2 ≤ v → assembleInstr x.1 [v] = none)) ∧
  (∀ x ∈ [(Opcode.resolvei, 0x22), (.settouch, 0x38)],
    ∀ v : Nat, (v < 2 ^ 32 → AssemblesTo x.1 [v] [x.2 * 2 ^ 24, v]) ∧ (2 ^ 32 ≤ v → assembleInstr x.1 [v] = none)) ∧
  (∀ n v : Nat,
    (1 ≤ n → n ≤ 32 → v < 2 ^ 32 → AssemblesTo .brev [n, v] [0x11 * 2 ^ 24 + (n - 1), v]) ∧
    (n = 0 ∨ 32 < n ∨ 2 ^ 32 ≤ v → assembleInstr .brev [n, v] = none)) ∧
  (∀ ops : List Nat, ops.length = 32 →
    ((∀ v ∈ ops, v < 2 ^ 32) → AssemblesTo .raw ops (0x3C * 2 ^ 24 :: ops)) ∧
    ((∃ v ∈ ops, 2 ^ 32 ≤ v) → assembleInstr .raw ops = none)) ∧
  (∀ (o : Opcode) (ops : List Nat),
    ops.length ≠ (if o ∈ [.nop, .fuse, .pubt, .resolve, .clrpc] then 0 else if o = .brev then 2
      else if o = .raw then 32 else 1) → assembleInstr o ops = none)

/-! ### The parsers and the step -/

/-- R81: the four ways a word moves its port's parser, at the step that takes it (steps come from the event
list, log 6). -/
def Obligations.TakingAWordMovesTheParser : Prop :=
  ∀ (s : State) (p : Port) (w : Word) (rest : List Word) (es : List Event),
    heldBy s p = none → pending s p = w :: rest → s.io.events = .unit p :: es →
    (parserOf s p = .idle → dataWordsDue (w.extractLsb' 24 8) = 0 →
      step s = takeEffect p ⟨w, []⟩ (takenTo s p rest es)) ∧
    (parserOf s p = .idle → dataWordsDue (w.extractLsb' 24 8) ≠ 0 →
      step s = .next (setParser (takenTo s p rest es) p (.collect w (dataWordsDue (w.extractLsb' 24 8)) []))) ∧
    (∀ (cmd : Word) (k : Nat) (buf : List Word), parserOf s p = .collect cmd k buf → 1 < k →
      step s = .next (setParser (takenTo s p rest es) p (.collect cmd (k - 1) (buf ++ [w])))) ∧
    (∀ (cmd : Word) (buf : List Word), parserOf s p = .collect cmd 1 buf →
      step s = takeEffect p ⟨cmd, buf ++ [w]⟩ (setParser (takenTo s p rest es) p .idle))

/-- When the word a free port takes completes a command that decodes to `i`, the step is exec of `i` at
that state, with the word taken, the parser Idle and `p` as the port served (30_encoding.md R81; the event
and the port field are the model's own, logs 6 and 14). -/
def Obligations.StepRunsTheDecodedInstruction : Prop :=
  ∀ (s : State) (p : Port) (w : Word) (rest : List Word) (es : List Event) (cmd : Command) (i : Instr),
    heldBy s p = none → pending s p = w :: rest → s.io.events = .unit p :: es →
    acceptWord (parserOf s p) w = (.idle, some cmd) → decodeCommand cmd.word cmd.data = .ok i →
    step s = exec i { setParser (takenTo s p rest es) p .idle with port := p }

/-- A well-formed instruction's words, taken one a step by a free idle port, run exactly that instruction
with the last of them, and nothing else changes (30_encoding.md R80, R81; 20_memory.md R68, R72; the events
and the port field are the model's own, logs 6 and 14). -/
def Obligations.EncodedCommandRunsWithItsLastWord : Prop :=
  ∀ (s : State) (p : Port) (i : Instr) (rest : List Word) (es : List Event), i.wf = true →
    ReadyFor s p (encode i) rest es →
    runSteps (encode i).length s = exec i { takenTo s p rest es with port := p }

/-- Every step keeps the invariant (10_state.md R45; 41_resolver.md R133; 43_compositor_render.md R181,
R183, R185, R188; 30_encoding.md R81). -/
def Obligations.StepKeepsTheInvariant : Prop :=
  ∀ s t : State, Inv s → step s = .next t → Inv t

/-- The invariant holds after reset, however the block is built. -/
def Obligations.InvariantHoldsAfterReset : Prop :=
  (∀ cfg : Params, Inv (State.resetWith cfg)) ∧ Inv State.reset

/-- From every state with the invariant a step goes on: no fault, no refusal (70_reset_and_hazards.md R280:
the block never halts by itself; 60_exceptions.md R250). -/
def Obligations.InvariantStatesGoOn : Prop :=
  ∀ s : State, Inv s → GoesOn s

/-- R271, with R270: the reset input puts every register to its reset value and emits nothing; the
parameters stay. The table's 0x80 is CENTER, which a built block has at 0x80 (00_scope.md R7; log 3). -/
def Obligations.ResetGivesEveryRegisterItsValue : Prop :=
  ∀ (s : State) (es : List Event), s.io.events = .reset :: es →
    ∃ t, step s = .next t ∧ t.cfg = s.cfg ∧
      t.a = { parser := .idle, bitmap := 0, valid := false, lastMs := 0, gmode := 0
              trkL := ⟨0, 15, s.cfg.center⟩, trkR := ⟨0, 15, s.cfg.center⟩
              axes := ⟨s.cfg.center, s.cfg.center, s.cfg.center, s.cfg.center⟩, bres := 0, err := false, fuseWait := none } ∧
      t.mbox = ⟨0, false⟩ ∧
      t.c.parser = .idle ∧ t.c.touch = 0 ∧ t.c.bri = 0 ∧ t.c.spd = 0 ∧ t.c.imode = 0 ∧ t.c.tmode = 0 ∧
      t.c.icol = ⟨0, 0, 0⟩ ∧ t.c.tcol = ⟨0, 0, 0⟩ ∧ t.c.upc = false ∧ t.c.rawen = false ∧
      t.c.pcp = false ∧ t.c.pcol = ⟨0, 0, 0⟩ ∧ t.c.accP = 0 ∧ t.c.accR = 0 ∧ t.c.accF = 0 ∧ t.c.accB = 0 ∧
      t.c.pulseP.toNat = s.cfg.pulseMax ∧ t.c.pulseDir = false ∧ t.c.phase = 0 ∧ t.c.blend = 100 ∧
      t.c.err = false ∧
      (∀ i : Fin 32, t.c.fadeF[i] = 0 ∧ t.c.fadeC[i] = ⟨0, 0, 0⟩ ∧ t.c.idleL[i] = ⟨0, 0, 0⟩ ∧
        t.c.touchL[i] = ⟨0, 0, 0⟩) ∧
      t.io.respA = s.io.respA ∧ t.io.respC = s.io.respC ∧ t.io.frames = s.io.frames

/-- No step changes a construction parameter (10_state.md R42, 00_scope.md R7), and a block as built has the
parameters that R7 decides at R7's values. -/
def Obligations.ParametersNeverChange : Prop :=
  (∀ s t : State, step s = .next t → t.cfg = s.cfg) ∧
  State.reset.cfg.rateMs = 1 ∧ State.reset.cfg.center = 0x80 ∧ State.reset.cfg.stickRule = .either ∧
  State.reset.cfg.pulseMin = 40 ∧ State.reset.cfg.pulseMax = 100

/-- Only reset clears ERR_A and ERR_C (44_system.md R233, 60_exceptions.md R254). -/
def Obligations.OnlyResetClearsTheErrorBits : Prop :=
  ∀ s t : State, (∀ es, s.io.events ≠ .reset :: es) → step s = .next t →
    (s.a.err = true → t.a.err = true) ∧ (s.c.err = true → t.c.err = true)

/-- Each unit's turn leaves the other unit's registers, its untaken words and its streams as they were, and
touches the mailbox by Send(BITMAP) (port A) or Take (port C) alone (20_memory.md R62, R71; 60_exceptions.md R260). -/
def Obligations.UnitsShareOnlyTheMailbox : Prop :=
  ∀ (s t : State) (es : List Event), step s = .next t →
    (s.io.events = .unit .a :: es →
      t.c = s.c ∧ t.io.cmdC = s.io.cmdC ∧ t.io.respC = s.io.respC ∧ t.io.frames = s.io.frames ∧
      (t.mbox = s.mbox ∨ t.mbox = ⟨s.a.bitmap, true⟩)) ∧
    (s.io.events = .unit .c :: es →
      t.a = s.a ∧ t.io.cmdA = s.io.cmdA ∧ t.io.respA = s.io.respA ∧ t.io.sense = s.io.sense ∧
      (t.mbox = s.mbox ∨ t.mbox = ⟨s.mbox.val, false⟩))

/-- What a unit's turn does to everything else does not depend on the other unit's registers
(20_memory.md R71, R72 (b)). -/
def Obligations.UnitsCannotReadEachOther : Prop :=
  ∀ (s t : State) (es : List Event), step s = .next t →
    (s.io.events = .unit .a :: es → ∀ c' : UnitC, step { s with c := c' } = .next { t with c := c' }) ∧
    (s.io.events = .unit .c :: es → ∀ a' : UnitA, step { s with a := a' } = .next { t with a := a' })

/-- A unit's turn takes at most the first of its own words, and none of the other port's
(20_memory.md R68, R72 (a)). -/
def Obligations.WordsAreTakenInOrder : Prop :=
  ∀ (s t : State) (p q : Port) (es : List Event), s.io.events = .unit p :: es → step s = .next t →
    (pending t p = pending s p ∨ ∃ w, pending s p = w :: pending t p) ∧
    (q ≠ p → pending t q = pending s q)

/-- What the world outside the block does (20_memory.md R65, R77; 40_aggregator.md R102): a sent word waits last on
its port, TIME_MS becomes the value presented, an answer is ready last for its adapter, and nothing else changes.
That these stand in State as an event list, a queue of words and a queue of answers is the model's own (logs 6,
8, 9, 10). -/
def Obligations.HostAndAdaptersActOnTheirInterfaces : Prop :=
  ∀ (s : State) (es : List Event),
    (∀ w, s.io.events = .send .a w :: es →
      step s = .next { s with io := { s.io with cmdA := s.io.cmdA ++ [w], events := es } }) ∧
    (∀ w, s.io.events = .send .c w :: es →
      step s = .next { s with io := { s.io with cmdC := s.io.cmdC ++ [w], events := es } }) ∧
    (∀ t, s.io.events = .time t :: es →
      step s = .next { s with io := { s.io with timeMs := t, events := es } }) ∧
    (∀ (a : Fin 32) (m : Word), s.io.events = .answer a m :: es →
      ∃ sense : Vector (List Word) 32,
        step s = .next { s with io := { s.io with sense := sense, events := es } } ∧
        ∀ k : Fin 32, sense[k] = if k = a then s.io.sense[k] ++ [m] else s.io.sense[k])

/-- R65: no command but FUSE depends on TIME_MS. -/
def Obligations.OnlyFuseReadsTheTime : Prop :=
  ∀ (i : Instr) (s t : State) (ms : Word), i ≠ .fuse → exec i s = .next t →
    exec i { s with io := { s.io with timeMs := ms } } = .next { t with io := { t.io with timeMs := ms } }

/-! ### Who writes what -/

/-- 10_state.md R20, R22 to R31: unit A's registers, the mailbox and TOUCH change only by the commands
their rules name. -/
def Obligations.WritersOfUnitAAndMailbox : Prop :=
  ∀ (i : Instr) (s t : State), exec i s = .next t →
    (t.a.bitmap ≠ s.a.bitmap ∨ t.a.valid ≠ s.a.valid ∨ t.a.lastMs ≠ s.a.lastMs ∨
      t.a.fuseWait ≠ s.a.fuseWait → i = .fuse ∧ s.port = .a) ∧
    (t.a.gmode ≠ s.a.gmode → ∃ v, i = .setgmode v) ∧
    (t.a.trkL ≠ s.a.trkL ∨ t.a.trkR ≠ s.a.trkR →
      (i = .resolve ∧ s.a.gmode = 1) ∨ (∃ x, i = .resolvei x ∧ s.a.gmode = 1) ∨
      ∃ v, i = .setgmode v ∧ v ≠ s.a.gmode) ∧
    (t.a.axes ≠ s.a.axes → i = .resolve ∨ ∃ x, i = .resolvei x) ∧
    (t.a.bres ≠ s.a.bres → ∃ n v, i = .brev n v) ∧
    (t.a.err ≠ s.a.err → s.port = .a ∧ i.opcode.legalOn .a = false) ∧
    (t.mbox ≠ s.mbox → i = .pubt ∨ ∃ e, i = .tick e) ∧
    (t.c.touch ≠ s.c.touch → (∃ x, i = .settouch x) ∨ ∃ e, i = .tick e) ∧
    t.a.parser = s.a.parser ∧ t.c.parser = s.c.parser ∧ t.cfg = s.cfg ∧ t.port = s.port

/-- 10_state.md R32 to R40: unit C's other registers change only by the commands their rules name. -/
def Obligations.WritersOfUnitC : Prop :=
  ∀ (i : Instr) (s t : State), exec i s = .next t →
    (t.c.bri ≠ s.c.bri → ∃ u, i = .setbri u) ∧
    (t.c.spd ≠ s.c.spd → ∃ u, i = .setspd u) ∧
    (t.c.imode ≠ s.c.imode → ∃ v, i = .setimode v) ∧
    (t.c.tmode ≠ s.c.tmode → ∃ v, i = .settmode v) ∧
    (t.c.icol ≠ s.c.icol → ∃ x, i = .seticol x) ∧
    (t.c.tcol ≠ s.c.tcol → ∃ x, i = .settcol x) ∧
    (t.c.upc ≠ s.c.upc → ∃ b, i = .setupc b) ∧
    (t.c.rawen ≠ s.c.rawen → ∃ b, i = .setraw b) ∧
    (t.c.pcp ≠ s.c.pcp ∨ t.c.pcol ≠ s.c.pcol → i = .clrpc ∨ ∃ x, i = .setpc x) ∧
    (t.c.pulseP ≠ s.c.pulseP ∨ t.c.pulseDir ≠ s.c.pulseDir ∨ t.c.accP ≠ s.c.accP →
      (∃ e, i = .tick e ∧ s.c.imode = 2) ∨ ∃ v, i = .setimode v) ∧
    (t.c.phase ≠ s.c.phase ∨ t.c.accR ≠ s.c.accR →
      (∃ e, i = .tick e ∧ s.c.imode = 4) ∨ ∃ v, i = .setimode v) ∧
    (t.c.fadeF ≠ s.c.fadeF ∨ t.c.fadeC ≠ s.c.fadeC ∨ t.c.accF ≠ s.c.accF →
      (∃ e, i = .tick e ∧ (s.c.tmode = 3 ∨ s.c.tmode = 4)) ∨ ∃ v, i = .settmode v) ∧
    (t.c.blend ≠ s.c.blend ∨ t.c.accB ≠ s.c.accB ∨ t.c.idleL ≠ s.c.idleL ∨ t.c.touchL ≠ s.c.touchL →
      ∃ e, i = .tick e) ∧
    (t.c.err ≠ s.c.err → s.port = .c ∧ i.opcode.legalOn .c = false)

/-- Nothing but READ writes a response stream, and only its own port's; nothing but TICK and RAW emits a
frame; each emits one element; and no command touches another interface, but FUSE takes answers
(20_memory.md R60, R63, R64). -/
def Obligations.WritersOfTheStreams : Prop :=
  ∀ (i : Instr) (s t : State), exec i s = .next t →
    (t.io.respA ≠ s.io.respA →
      s.port = .a ∧ (∃ x, i = .read x) ∧ ∃ w, t.io.respA = s.io.respA ++ [w]) ∧
    (t.io.respC ≠ s.io.respC →
      s.port = .c ∧ (∃ x, i = .read x) ∧ ∃ w, t.io.respC = s.io.respC ++ [w]) ∧
    (t.io.frames ≠ s.io.frames →
      s.port = .c ∧ ((∃ e, i = .tick e) ∨ ∃ d, i = .raw d) ∧ ∃ px, t.io.frames = s.io.frames ++ [px]) ∧
    (t.io.sense ≠ s.io.sense → i = .fuse) ∧
    t.io.cmdA = s.io.cmdA ∧ t.io.cmdC = s.io.cmdC ∧ t.io.timeMs = s.io.timeMs ∧ t.io.events = s.io.events

/-! ### System commands -/

/-- R230: NOP changes nothing on either port; a 0x00 word other than 0 performs only BadCmd. -/
def Obligations.NopChangesNothing : Prop :=
  encode .nop = [0x00000000] ∧ (∀ s : State, exec .nop s = .next s) ∧ ReservedBitsAreBad 0x00 0xFFFFFF

/-- R231 and R232 on port A: READ emits one word on RESP_A, the register of the index, and changes no register;
a READ with a reserved bit set performs only BadCmd. -/
def Obligations.ReadOnPortAEmitsTheRegister : Prop :=
  ReservedBitsAreBad 0x01 0xFFFF00 ∧
  ∀ (s : State) (idx : BitVec 8), s.port = .a →
    ∃ v : Word, exec (.read idx) s = .next { s with io := { s.io with respA := s.io.respA ++ [v] } } ∧
      (idx = 0 → v = s.a.bitmap) ∧
      (idx = 1 → v.extractLsb' 0 8 = s.a.axes.la ∧ v.extractLsb' 8 8 = s.a.axes.ly ∧
        v.extractLsb' 16 8 = s.a.axes.ra ∧ v.extractLsb' 24 8 = s.a.axes.ry) ∧
      (idx = 2 → v.extractLsb' 0 8 = s.a.trkL.lm.setWidth 8 ∧ v.extractLsb' 8 8 = s.a.trkL.rm.setWidth 8 ∧
        v.extractLsb' 16 8 = s.a.trkL.axis ∧ v.extractLsb' 24 8 = 0) ∧
      (idx = 3 → v.extractLsb' 0 8 = s.a.trkR.lm.setWidth 8 ∧ v.extractLsb' 8 8 = s.a.trkR.rm.setWidth 8 ∧
        v.extractLsb' 16 8 = s.a.trkR.axis ∧ v.extractLsb' 24 8 = 0) ∧
      (idx = 4 → v.toNat = s.a.gmode.toNat) ∧ (idx = 5 → v = s.a.bres) ∧ (idx = 6 → v = s.a.lastMs) ∧
      (idx = 7 → v.getLsbD 0 = s.a.valid ∧ v.getLsbD 1 = s.a.err ∧ v.getLsbD 2 = s.mbox.full ∧ v.toNat < 8) ∧
      (8 ≤ idx.toNat → v = 0)

/-- R231 and R232 on port C: READ emits one word on RESP_C, the register of the index, and changes no register. -/
def Obligations.ReadOnPortCEmitsTheRegister : Prop :=
  ∀ (s : State) (idx : BitVec 8), s.port = .c →
    ∃ v : Word, exec (.read idx) s = .next { s with io := { s.io with respC := s.io.respC ++ [v] } } ∧
      (idx = 0 → v = s.c.touch) ∧ (idx = 1 → v.toNat = s.c.bri.toNat) ∧ (idx = 2 → v.toNat = s.c.spd.toNat) ∧
      (idx = 3 → v.toNat = s.c.imode.toNat) ∧ (idx = 4 → v.toNat = s.c.tmode.toNat) ∧
      (idx = 5 → v.toNat = (packRgb s.c.icol.r.toNat s.c.icol.g.toNat s.c.icol.b.toNat).toNat) ∧
      (idx = 6 → v.toNat = (packRgb s.c.tcol.r.toNat s.c.tcol.g.toNat s.c.tcol.b.toNat).toNat) ∧
      (idx = 7 → v.getLsbD 0 = s.c.upc ∧ v.getLsbD 1 = s.c.rawen ∧ v.getLsbD 2 = s.c.pcp ∧ v.toNat < 8) ∧
      (idx = 8 → v.toNat = (packRgb s.c.pcol.r.toNat s.c.pcol.g.toNat s.c.pcol.b.toNat).toNat) ∧
      (idx = 9 → v.toNat = s.c.blend.toNat) ∧
      (idx = 10 → v.toNat = s.c.pulseP.toNat + (if s.c.pulseDir then 256 else 0)) ∧
      (idx = 11 → v = s.c.phase) ∧ (idx = 12 → v = s.c.accP) ∧ (idx = 13 → v = s.c.accR) ∧
      (idx = 14 → v = s.c.accF) ∧ (idx = 15 → v = s.c.accB) ∧
      (idx = 16 → v.getLsbD 0 = false ∧ v.getLsbD 1 = s.c.err ∧ v.getLsbD 2 = s.mbox.full ∧ v.toNat < 8) ∧
      (∀ i : Fin 32,
        (idx.toNat = 32 + i.val → v.toNat = s.c.fadeF[i].toNat) ∧
        (idx.toNat = 64 + i.val →
          v.toNat = (packRgb s.c.fadeC[i].r.toNat s.c.fadeC[i].g.toNat s.c.fadeC[i].b.toNat).toNat) ∧
        (idx.toNat = 96 + i.val →
          v.toNat = (packRgb s.c.idleL[i].r.toNat s.c.idleL[i].g.toNat s.c.idleL[i].b.toNat).toNat) ∧
        (idx.toNat = 128 + i.val →
          v.toNat = (packRgb s.c.touchL[i].r.toNat s.c.touchL[i].g.toNat s.c.touchL[i].b.toNat).toNat)) ∧
      ((17 ≤ idx.toNat ∧ idx.toNat < 32) ∨ 160 ≤ idx.toNat → v = 0)

/-! ### Aggregator -/

/-- R100: bit reversal, said of bits; the result fits n bits, reversing twice is reduction modulo 2^n, and 0 stays 0. -/
def Obligations.BitReversalMirrorsTheBits : Prop :=
  ∀ n v : Nat,
    (∀ k, (bitrev n v).testBit k = (decide (k < n) && v.testBit (n - 1 - k))) ∧
    bitrev n v < 2 ^ n ∧ bitrev n (bitrev n v) = v % 2 ^ n ∧ bitrev n 0 = 0

/-- R111: BREV puts the reversal of the low n = nm1 + 1 bits of its data word in BRES, zero-extended, and
changes nothing else; on port C, or with a reserved bit set, it is bad. -/
def Obligations.BrevReversesIntoBres : Prop :=
  (∀ (s : State) (nm1 : BitVec 5) (v : Word), s.port = .a →
    ∃ r : Word, exec (.brev nm1 v) s = .next { s with a := { s.a with bres := r } } ∧
      ∀ k, r.getLsbD k = (decide (k ≤ nm1.toNat) && v.getLsbD (nm1.toNat - k))) ∧
  (∀ nm1 v, BadOn .c (.brev nm1 v)) ∧ ReservedBitsAreBad 0x11 0xFFFFE0

/-- R112: PUBT sends BITMAP to the mailbox, over any unread value; on port C, or with a reserved bit set, it is bad. -/
def Obligations.PubtSendsTheBitmap : Prop :=
  (∀ s : State, s.port = .a → exec .pubt s = .next { s with mbox := ⟨s.a.bitmap, true⟩ }) ∧ BadOn .c .pubt ∧
  ReservedBitsAreBad 0x12 0xFFFFFF

/-- R110 with R103 to R106: a FUSE that is due and whose adapters all have an answer ready writes BITMAP,
LAST_MS and VALID together, takes one answer of each configured adapter, and changes nothing else. (Answers ready in
a queue per adapter, and all of them taken in the one step, are logs 10 and 20.) -/
def Obligations.FusePollsAndWritesTogether : Prop :=
  ∀ (s : State) (ms : List Word), s.port = .a →
    (s.a.valid = false ∨ s.cfg.rateMs ≤ (s.io.timeMs - s.a.lastMs).toNat) → AnswersReady s 0 ms →
    ∃ (bm : Word) (sense : Vector (List Word) 32),
      exec .fuse s = .next { s with
        a := { s.a with bitmap := bm, valid := true, lastMs := s.io.timeMs, fuseWait := none }
        io := { s.io with sense := sense } } ∧
      IsFusionOf s.cfg ms bm ∧
      ∀ k : Fin 32, sense[k] = if k.val < s.cfg.na then (s.io.sense[k]).tail else s.io.sense[k]

/-- R106, R110: a FUSE within RATE_MS of the last polling FUSE polls nothing and changes nothing, and so a
second FUSE at the same TIME_MS does (20_memory.md R68); on port C, or with a reserved bit set, FUSE is bad. -/
def Obligations.FuseWithinTheRateWindowChangesNothing : Prop :=
  (∀ s : State, s.port = .a → s.a.valid = true → (s.io.timeMs - s.a.lastMs).toNat < s.cfg.rateMs →
    exec .fuse s = .next s) ∧
  (∀ s t : State, exec .fuse s = .next t → s.port = .a → t.a.fuseWait = none → exec .fuse t = .next t) ∧
  BadOn .c .fuse ∧ ReservedBitsAreBad 0x10 0xFFFFFF

/-- R110: a FUSE that is due but meets an adapter without an answer waits: it holds the sampled time and the
masks of the adapters polled before the first silent one, whose answers are used up, and nothing else changes (the
time sampled when FUSE begins and the place that keeps the wait are log 11, the queues of answers log 10, and all
ready answers taken in one step log 20). -/
def Obligations.FuseWaitsForASilentAdapter : Prop :=
  ∀ (s : State) (j : Fin 32), s.port = .a →
    (s.a.valid = false ∨ s.cfg.rateMs ≤ (s.io.timeMs - s.a.lastMs).toNat) →
    j.val < s.cfg.na → s.io.sense[j] = [] →
    ∃ (got : List Word) (sense : Vector (List Word) 32),
      exec .fuse s = .next { s with
        a := { s.a with fuseWait := some ⟨s.io.timeMs, got⟩ }, io := { s.io with sense := sense } } ∧
      PollsUpTo s.cfg 0 s.io.sense got sense ∧ got.length ≤ j.val

/-- R110: at its unit's turn a waiting FUSE completes if the answers still missing are all ready: all masks are
fused, LAST_MS is the time sampled when FUSE began (log 11), one answer of each adapter it still needed is used, and
port A is free again. If one of them is still silent, FUSE adds the masks of the adapters before it and waits on.
Nothing else changes. (Queues of answers are log 10; taking all ready answers in one turn is log 20.) -/
def Obligations.WaitingFuseCompletesWithTheLastAnswer : Prop :=
  ∀ (s : State) (fw : FuseWait) (es : List Event), s.a.fuseWait = some fw → s.io.events = .unit .a :: es →
    (∀ ms : List Word, AnswersReady s fw.got.length ms →
      ∃ (bm : Word) (sense : Vector (List Word) 32),
        step s = .next { s with
          a := { s.a with bitmap := bm, valid := true, lastMs := fw.t, fuseWait := none }
          io := { s.io with sense := sense, events := es } } ∧
        IsFusionOf s.cfg (fw.got ++ ms) bm ∧
        ∀ k : Fin 32, sense[k] =
          if fw.got.length ≤ k.val ∧ k.val < s.cfg.na then (s.io.sense[k]).tail else s.io.sense[k]) ∧
    (∀ j : Fin 32, fw.got.length ≤ j.val → j.val < s.cfg.na → s.io.sense[j] = [] →
      ∃ (got : List Word) (sense : Vector (List Word) 32),
        step s = .next { s with
          a := { s.a with fuseWait := some ⟨fw.t, fw.got ++ got⟩ }
          io := { s.io with sense := sense, events := es } } ∧
        PollsUpTo s.cfg fw.got.length s.io.sense got sense ∧ fw.got.length + got.length ≤ j.val)

/-- R256, R278: while an adapter that a waiting FUSE still needs does not answer and no reset comes, any
number of steps leaves port A held: no register of unit A changes, it emits nothing and takes no word. The
wait and its sampled time are the model's own storage (log 11). -/
def Obligations.SilentAdapterHoldsPortA : Prop :=
  ∀ (n : Nat) (s t : State) (fw : FuseWait) (j : Fin 32),
    s.a.fuseWait = some fw → fw.got.length ≤ j.val → j.val < s.cfg.na → s.io.sense[j] = [] →
    (∀ ev ∈ s.io.events, ev ≠ .reset ∧ ∀ m, ev ≠ .answer j m) → runSteps n s = .next t →
    (∃ fw', t.a = { s.a with fuseWait := some fw' } ∧ fw'.t = fw.t) ∧
    s.io.cmdA <+: t.io.cmdA ∧ t.io.respA = s.io.respA

/-! ### Resolver -/

/-- R135: SETGMODE on a change stores the mode and resets both tracks to `{0, 15, CENTER}`, AXES kept; the same value
changes nothing; on port C, or with a reserved bit set, it is bad. -/
def Obligations.SetgmodeResetsTracksOnAChange : Prop :=
  (∀ (s : State) (v : BitVec 8), s.port = .a → v ≠ s.a.gmode →
    exec (.setgmode v) s = .next { s with
      a := { s.a with gmode := v, trkL := ⟨0, 15, s.cfg.center⟩, trkR := ⟨0, 15, s.cfg.center⟩ } }) ∧
  (∀ s : State, s.port = .a → exec (.setgmode s.a.gmode) s = .next s) ∧
  (∀ v, BadOn .c (.setgmode v)) ∧ ReservedBitsAreBad 0x20 0xFFFF00

/-- R132 with R131, R136, R137: in arcade mode RESOLVE and RESOLVEI write AXES from the four bytes of the
bitmap, each XOR CENTER, and nothing else; in an unrecognized mode they do nothing; both are bad on port C or with a
reserved bit set. CENTER is R132's 0x80 in the block as built (00_scope.md R7); that it stands there for CENTER in every
configuration, as 44_system.md R234 (a) says, is log 3's reading, the model's. -/
def Obligations.ArcadeResolveSlicesTheBitmap : Prop :=
  Config.built.center = 0x80 ∧
  (∀ (s : State) (x : Word), s.port = .a → s.a.gmode = 0 →
    let axes : Axes :=
      { la := x.extractLsb' 0 8 ^^^ s.cfg.center, ly := x.extractLsb' 8 8 ^^^ s.cfg.center
        ra := x.extractLsb' 16 8 ^^^ s.cfg.center, ry := x.extractLsb' 24 8 ^^^ s.cfg.center }
    exec (.resolvei x) s = .next { s with a := { s.a with axes := axes } } ∧
    (x = s.a.bitmap → exec .resolve s = .next { s with a := { s.a with axes := axes } })) ∧
  (∀ (s : State) (x : Word), s.port = .a → 2 ≤ s.a.gmode.toNat →
    exec .resolve s = .next s ∧ exec (.resolvei x) s = .next s) ∧
  (BadOn .c .resolve ∧ ∀ x, BadOn .c (.resolvei x)) ∧
  ReservedBitsAreBad 0x21 0xFFFFFF ∧ ReservedBitsAreBad 0x22 0xFFFFFF

/-- R134 with R136, R137: in stick mode RESOLVE and RESOLVEI update the two tracks from the bitmap's halves,
copy their axes to LA and RA, centre LY and RY, and change nothing else. -/
def Obligations.StickResolveTracksBothHalves : Prop :=
  ∀ (s : State) (x : Word), s.port = .a → s.a.gmode = 1 →
    let l := trackUpdate s.cfg s.a.trkL (x.extractLsb' 16 16)
    let r := trackUpdate s.cfg s.a.trkR (x.extractLsb' 0 16)
    let a' := { s.a with
      trkL := l, trkR := r, axes := { la := l.axis, ly := s.cfg.center, ra := r.axis, ry := s.cfg.center } }
    exec (.resolvei x) s = .next { s with a := a' } ∧
    (x = s.a.bitmap → exec .resolve s = .next { s with a := a' })

/-- R133 with R130: the track update, with L and R said to be the highest and the lowest set bit of the
half; up and down are never both true. -/
def Obligations.TrackUpdateFollowsTheExtents : Prop :=
  (∀ (cfg : Params) (t : Track), trackUpdate cfg t 0 = ⟨0, 15, cfg.center⟩) ∧
  ∀ (cfg : Params) (t : Track) (h : BitVec 16) (l r : BitVec 4),
    h.getLsbD l.toNat = true → (∀ j, l.toNat < j → h.getLsbD j = false) →
    h.getLsbD r.toNat = true → (∀ j, j < r.toNat → h.getLsbD j = false) →
    let up : Prop := match cfg.stickRule with
      | .either => t.lm.toNat ≤ l.toNat ∧ t.rm.toNat ≤ r.toNat ∧ (t.lm.toNat < l.toNat ∨ t.rm.toNat < r.toNat)
      | .leftStrict => t.lm.toNat < l.toNat ∧ t.rm.toNat ≤ r.toNat
      | .rightStrict => t.lm.toNat ≤ l.toNat ∧ t.rm.toNat < r.toNat
    let down : Prop := match cfg.stickRule with
      | .either => l.toNat ≤ t.lm.toNat ∧ r.toNat ≤ t.rm.toNat ∧ (l.toNat < t.lm.toNat ∨ r.toNat < t.rm.toNat)
      | .leftStrict => l.toNat < t.lm.toNat ∧ r.toNat ≤ t.rm.toNat
      | .rightStrict => l.toNat ≤ t.lm.toNat ∧ r.toNat < t.rm.toNat
    (trackUpdate cfg t h).lm = l ∧ (trackUpdate cfg t h).rm = r ∧
    (up → (trackUpdate cfg t h).axis = 0x00) ∧ (down → (trackUpdate cfg t h).axis = 0xFF) ∧
    (¬ up → ¬ down → (trackUpdate cfg t h).axis = t.axis) ∧ ¬ (up ∧ down)

/-- 41_resolver.md R136 (b): a second RESOLVE on the same BITMAP changes nothing. -/
def Obligations.ResolvingTwiceIsResolvingOnce : Prop :=
  (∀ s t : State, exec .resolve s = .next t → exec .resolve t = .next t) ∧
  (∀ (x : Word) (s t : State), exec (.resolvei x) s = .next t → exec (.resolvei x) t = .next t)

/-- 41_resolver.md R138 (c), (d): from the default track a first touch only at index 15 gives 0x00 under
EITHER and LEFT_STRICT, one only at index 0 gives 0xFF under EITHER and RIGHT_STRICT, and every other keeps CENTER. -/
def Obligations.FirstTouchFromTheDefaultTrack : Prop :=
  ∀ (cfg : Params) (h : BitVec 16),
    (trackUpdate cfg ⟨0, 15, cfg.center⟩ h).axis =
      if h = 0x8000 ∧ (cfg.stickRule = .either ∨ cfg.stickRule = .leftStrict) then 0x00
      else if h = 0x0001 ∧ (cfg.stickRule = .either ∨ cfg.stickRule = .rightStrict) then 0xFF
      else cfg.center

/-- R93: the pseudo-instructions' expansions, and RESTICK ends in stick mode with both tracks at
`{0, 15, CENTER}` from any GMODE. CENTER is R93's 0x80 in the block as built (00_scope.md R7); that it stands there for
CENTER in every configuration, through 41_resolver.md R135, is log 3's reading, the model's. -/
def Obligations.PseudoInstructionsExpand : Prop :=
  Config.built.center = 0x80 ∧
  Pseudo.clrtouch.expand = [.settouch 0] ∧ Pseudo.blackout.expand = [.setbri 0] ∧
  (∀ c, (Pseudo.rawfill c).expand = [.raw (List.replicate 32 c)]) ∧
  Pseudo.restick.expand = [.setgmode 0, .setgmode 1] ∧
  ∀ s : State, s.port = .a → ∃ t u, exec (.setgmode 0) s = .next t ∧ exec (.setgmode 1) t = .next u ∧
    u = { s with a := { s.a with gmode := 1, trkL := ⟨0, 15, s.cfg.center⟩, trkR := ⟨0, 15, s.cfg.center⟩ } }

/-! ### Compositor configuration -/

/-- R152, R153 with R150: SETBRI and SETSPD store min(u24, 255) and change nothing else; bad on port A. -/
def Obligations.BrightnessAndSpeedAreClamped : Prop :=
  (∀ (s : State) (u : BitVec 24), s.port = .c →
    ∃ v : BitVec 8, v.toNat = min u.toNat 255 ∧
      exec (.setbri u) s = .next { s with c := { s.c with bri := v } } ∧
      exec (.setspd u) s = .next { s with c := { s.c with spd := v } }) ∧
  ∀ u, BadOn .a (.setbri u) ∧ BadOn .a (.setspd u)

/-- R154: SETIMODE on a change stores the mode and resets the pulse, the phase, ACC_P and ACC_R; the same
value changes nothing; bad on port A or with a reserved bit set. -/
def Obligations.SetimodeResetsTheIdleTimelines : Prop :=
  (∀ (s : State) (v : BitVec 8), s.port = .c → v ≠ s.c.imode →
    ∃ p : BitVec 7, p.toNat = s.cfg.pulseMax ∧
      exec (.setimode v) s = .next { s with
        c := { s.c with imode := v, pulseP := p, pulseDir := false, phase := 0, accP := 0, accR := 0 } }) ∧
  (∀ s : State, s.port = .c → exec (.setimode s.c.imode) s = .next s) ∧
  (∀ v, BadOn .a (.setimode v)) ∧ ReservedBitsAreBad 0x32 0xFFFF00

/-- R155: SETTMODE on a change stores the mode and clears every fade counter, stored colour and ACC_F; the
same value changes nothing; bad on port A or with a reserved bit set. -/
def Obligations.SettmodeClearsTheFades : Prop :=
  (∀ (s : State) (v : BitVec 8), s.port = .c → v ≠ s.c.tmode →
    ∃ (f : Segs (BitVec 7)) (k : Segs Color),
      exec (.settmode v) s = .next { s with
        c := { s.c with tmode := v, fadeF := f, fadeC := k, accF := 0 } } ∧
      ∀ i : Fin 32, f[i] = 0 ∧ k[i] = ⟨0, 0, 0⟩) ∧
  (∀ s : State, s.port = .c → exec (.settmode s.c.tmode) s = .next s) ∧
  (∀ v, BadOn .a (.settmode v)) ∧ ReservedBitsAreBad 0x33 0xFFFF00

/-- R156 to R162: SETICOL, SETTCOL, SETUPC, SETRAW and SETTOUCH each write their one register, SETPC the
player colour and PCP, CLRPC clears both, and nothing else changes, the mailbox included; bad on port A, or
with a bit set that their format reserves. -/
def Obligations.SettersWriteTheirRegister : Prop :=
  (∀ (s : State) (col : Color) (b : Bool) (x : Word), s.port = .c →
    exec (.seticol col) s = .next { s with c := { s.c with icol := col } } ∧
    exec (.settcol col) s = .next { s with c := { s.c with tcol := col } } ∧
    exec (.setupc b) s = .next { s with c := { s.c with upc := b } } ∧
    exec (.setraw b) s = .next { s with c := { s.c with rawen := b } } ∧
    exec (.settouch x) s = .next { s with c := { s.c with touch := x } } ∧
    exec (.setpc col) s = .next { s with c := { s.c with pcol := col, pcp := true } } ∧
    exec .clrpc s = .next { s with c := { s.c with pcp := false, pcol := ⟨0, 0, 0⟩ } }) ∧
  (∀ col b x, BadOn .a (.seticol col) ∧ BadOn .a (.settcol col) ∧ BadOn .a (.setupc b) ∧
    BadOn .a (.setraw b) ∧ BadOn .a (.settouch x) ∧ BadOn .a (.setpc col) ∧ BadOn .a .clrpc) ∧
  ReservedBitsAreBad 0x36 0xFFFFFE ∧ ReservedBitsAreBad 0x37 0xFFFFFE ∧
  ReservedBitsAreBad 0x38 0xFFFFFF ∧ ReservedBitsAreBad 0x3A 0xFFFFFF

/-! ### Compositor rendering -/

/-- 43_compositor_render.md R180, R202 (a): over any advances of one timeline at one speed, the step counts
and the final accumulator are the quotient and remainder of the exact total; from accumulator 0, inputs that
sum to k thresholds return k and leave 0. -/
def Obligations.StepperCountsDependOnlyOnTheTotal : Prop :=
  ∀ (cfg : Params) (tl : Timeline) (c : UnitC) (es : List Nat),
    let thr := threshold cfg tl c.spd
    let run := es.foldl (fun (r : Nat × UnitC) e => (r.1 + (advance cfg tl e r.2).1, (advance cfg tl e r.2).2)) (0, c)
    1 ≤ thr ∧
    run.1 * thr + (acc run.2 tl).toNat = (acc c tl).toNat + es.sum ∧
    (es ≠ [] → (acc run.2 tl).toNat = ((acc c tl).toNat + es.sum) % thr) ∧
    (∀ k, acc c tl = 0 → es.sum = k * thr → run.1 = k ∧ acc run.2 tl = 0)

/-- 43_compositor_render.md R183: applying the reduced count of unit steps is applying all of them, from
every 7-bit PULSE_P and both directions, whatever the bounds (log 17). -/
def Obligations.ReducedPulseCountIsExact : Prop :=
  ∀ (cfg : Params) (n : Nat) (p : BitVec 7) (dir : Bool),
    pulseSteps cfg (pulseReduced cfg n) (p.toNat, dir) = pulseSteps cfg n (p.toNat, dir)

/-- R200 with RAWEN = 1: TICK takes the mailbox, renders nothing and emits no frame; on port A TICK is bad. -/
def Obligations.TickUnderRawOverrideOnlyTakesTheMailbox : Prop :=
  (∀ (s : State) (e : BitVec 24), s.port = .c → s.c.rawen = true →
    exec (.tick e) s = .next { s with
      mbox := ⟨s.mbox.val, false⟩, c := { s.c with touch := touchAfterTake s } }) ∧
  ∀ e, BadOn .a (.tick e)

/-- 43_compositor_render.md R200, state written: a rendering TICK takes the mailbox, emits one frame and
changes nothing outside unit C's timelines and layers. -/
def Obligations.TickFrameOfWhatItWrites : Prop :=
  ∀ (s : State) (e : BitVec 24), s.port = .c → s.c.rawen = false →
    ∃ (c' : UnitC) (px : List (BitVec 24)),
      exec (.tick e) s = .next { s with
        mbox := ⟨s.mbox.val, false⟩, c := c', io := { s.io with frames := s.io.frames ++ [px] } } ∧
      c'.touch = touchAfterTake s ∧ c'.parser = s.c.parser ∧ c'.bri = s.c.bri ∧ c'.spd = s.c.spd ∧
      c'.imode = s.c.imode ∧ c'.tmode = s.c.tmode ∧ c'.icol = s.c.icol ∧ c'.tcol = s.c.tcol ∧
      c'.upc = s.c.upc ∧ c'.rawen = s.c.rawen ∧ c'.pcp = s.c.pcp ∧ c'.pcol = s.c.pcol ∧ c'.err = s.c.err

/-- 43_compositor_render.md R181 with R180, R194: B advances on every rendering TICK, and BLEND moves one
point a step toward 0 under touch, toward 100 without. At e = 0 the step count is R180's, against R200's corner case
(a): log 23, the model's choice. -/
def Obligations.TickMovesTheBlendFactor : Prop :=
  ∀ (s : State) (e : BitVec 24), s.port = .c → s.c.rawen = false →
    let thr := max 1 (s.cfg.thr.blend[s.c.spd.toNat]).toNat
    let sum := s.c.accB.toNat + e.toNat
    ∃ t, exec (.tick e) s = .next t ∧ t.c.accB.toNat = sum % thr ∧
      t.c.blend.toNat =
        if touchAfterTake s ≠ 0 then s.c.blend.toNat - min s.c.blend.toNat (sum / thr)
        else min 100 (s.c.blend.toNat + sum / thr)

/-- 43_compositor_render.md R182 to R185 with R180, R194: the idle layer of a rendering TICK, mode by mode,
and its timelines' registers; the pulse goes through its unit steps one by one, with the flip at each bound. At e = 0
the step counts are R180's, against R200's corner case (a): log 23, the model's choice. -/
def Obligations.TickDrawsTheIdleLayer : Prop :=
  ∀ (s : State) (e : BitVec 24), s.port = .c → s.c.rawen = false →
    let eic := if s.c.upc = true ∧ s.c.pcp = true then s.c.pcol else s.c.icol
    let thrP := max 1 (s.cfg.thr.pulse[s.c.spd.toNat]).toNat
    let sumP := s.c.accP.toNat + e.toNat
    let thrR := max 1 (s.cfg.thr.rainbow[s.c.spd.toNat]).toNat
    let sumR := s.c.accR.toNat + e.toNat
    ∃ t, exec (.tick e) s = .next t ∧
      (s.c.imode = 0 → ∀ i : Fin 32, t.c.idleL[i] = ⟨0, 0, 0⟩) ∧
      (s.c.imode = 1 → ∀ i : Fin 32, t.c.idleL[i] = eic) ∧
      (s.c.imode = 2 →
        t.c.accP.toNat = sumP % thrP ∧
        (∃ path : Nat → Nat × Bool, path 0 = (s.c.pulseP.toNat, s.c.pulseDir) ∧
          (∀ k, k < sumP / thrP → PulseUnitStep s.cfg (path k) (path (k + 1))) ∧
          path (sumP / thrP) = (t.c.pulseP.toNat, t.c.pulseDir)) ∧
        ∀ i : Fin 32, t.c.idleL[i] =
          ⟨BitVec.ofNat 8 (eic.r.toNat * t.c.pulseP.toNat / 100), BitVec.ofNat 8 (eic.g.toNat * t.c.pulseP.toNat / 100),
           BitVec.ofNat 8 (eic.b.toNat * t.c.pulseP.toNat / 100)⟩) ∧
      (s.c.imode ≠ 2 → t.c.accP = s.c.accP ∧ t.c.pulseP = s.c.pulseP ∧ t.c.pulseDir = s.c.pulseDir) ∧
      (s.c.imode = 3 → ∀ i : Fin 32,
        s.cfg.gradient[s.cfg.rbOff[i] % s.cfg.gradient.length]? = some t.c.idleL[i]) ∧
      (s.c.imode = 4 →
        t.c.accR.toNat = sumR % thrR ∧
        t.c.phase.toNat = (s.c.phase.toNat + sumR / thrR) % s.cfg.gradient.length ∧
        ∀ i : Fin 32,
          s.cfg.gradient[(t.c.phase.toNat + s.cfg.rbOff[i]) % s.cfg.gradient.length]? = some t.c.idleL[i]) ∧
      (s.c.imode ≠ 4 → t.c.accR = s.c.accR ∧ t.c.phase = s.c.phase) ∧
      (5 ≤ s.c.imode.toNat → t.c.idleL = s.c.idleL)

/-- 43_compositor_render.md R186 to R189 with R180, R194: the touched layer of a rendering TICK, mode by
mode, over this TICK's own idle layer and taken touch bitmap. At e = 0 the step count is R180's, against R200's corner
case (a): log 23, the model's choice. -/
def Obligations.TickDrawsTheTouchedLayer : Prop :=
  ∀ (s : State) (e : BitVec 24), s.port = .c → s.c.rawen = false →
    let touch := touchAfterTake s
    let thrF := max 1 (s.cfg.thr.fade[s.c.spd.toNat]).toNat
    let sumF := s.c.accF.toNat + e.toNat
    ∃ t, exec (.tick e) s = .next t ∧
      (s.c.tmode = 0 → ∀ i : Fin 32, t.c.touchL[i] = ⟨0, 0, 0⟩) ∧
      (s.c.tmode = 1 → ∀ i : Fin 32, t.c.touchL[i] = t.c.idleL[i]) ∧
      (s.c.tmode = 2 → ∀ i : Fin 32,
        t.c.touchL[i] = if touch.getLsbD i.val then s.c.tcol else ⟨0, 0, 0⟩) ∧
      (s.c.tmode = 3 ∨ s.c.tmode = 4 →
        t.c.accF.toNat = sumF % thrF ∧
        ∀ i : Fin 32,
          let f := if touch.getLsbD i.val then 100
                   else s.c.fadeF[i].toNat - min s.c.fadeF[i].toNat (sumF / thrF)
          let col := if touch.getLsbD i.val then s.c.tcol else s.c.fadeC[i]
          let tgt := if s.c.tmode = 3 then ⟨0, 0, 0⟩ else t.c.idleL[i]
          t.c.fadeF[i].toNat = f ∧ t.c.fadeC[i] = col ∧
          t.c.touchL[i] =
            ⟨BitVec.ofNat 8 ((col.r.toNat * f + tgt.r.toNat * (100 - f)) / 100),
             BitVec.ofNat 8 ((col.g.toNat * f + tgt.g.toNat * (100 - f)) / 100),
             BitVec.ofNat 8 ((col.b.toNat * f + tgt.b.toNat * (100 - f)) / 100)⟩) ∧
      (s.c.tmode ≠ 3 → s.c.tmode ≠ 4 →
        t.c.accF = s.c.accF ∧ t.c.fadeF = s.c.fadeF ∧ t.c.fadeC = s.c.fadeC) ∧
      (5 ≤ s.c.tmode.toNat → t.c.touchL = s.c.touchL)

/-- R190, R191, R192 with R63: the frame of a rendering TICK has 32·LPS colour words; each of segment i's LPS
pixels is the composite of the two layers just drawn, scaled by BRI/255. -/
def Obligations.TickEmitsTheCompositedFrame : Prop :=
  ∀ (s : State) (e : BitVec 24), s.port = .c → s.c.rawen = false → s.c.blend.toNat ≤ 100 →
    ∃ (t : State) (px : List (BitVec 24)), exec (.tick e) s = .next t ∧
      t.io.frames = s.io.frames ++ [px] ∧ px.length = 32 * s.cfg.lps ∧
      ∀ (i : Fin 32) (j : Nat), j < s.cfg.lps →
        let fin : Nat → Nat → Nat := fun idle touched =>
          max (idle * t.c.blend.toNat / 100) touched * s.c.bri.toNat / 255
        px[i.val * s.cfg.lps + j]? =
          some (packRgb (fin t.c.idleL[i].r.toNat t.c.touchL[i].r.toNat)
            (fin t.c.idleL[i].g.toNat t.c.touchL[i].g.toNat)
            (fin t.c.idleL[i].b.toNat t.c.touchL[i].b.toNat))

/-- 43_compositor_render.md R202 (d), R191: every channel of every pixel a TICK emits is at most BRI. -/
def Obligations.TickChannelsNeverExceedBrightness : Prop :=
  ∀ (s t : State) (e : BitVec 24) (px : List (BitVec 24)), exec (.tick e) s = .next t →
    t.io.frames = s.io.frames ++ [px] → ∀ w ∈ px, ∀ ch : Fin 3, channelOf w ch ≤ s.c.bri.toNat

/-- 43_compositor_render.md R202 (c): in TouchedFade, between two rendering TICKs with TMODE 3, the touched
layer's channels of a released segment do not increase, and they are 0 once its counter is 0; a touched
segment is at TCOL at once. -/
def Obligations.TouchedFadeNeverBrightens : Prop :=
  ∀ (s t u : State) (e e' : BitVec 24) (i : Fin 32), Inv s → s.port = .c → s.c.rawen = false → s.c.tmode = 3 →
    exec (.tick e) s = .next t → exec (.tick e') t = .next u →
    ((touchAfterTake s).getLsbD i.val = true → t.c.touchL[i] = s.c.tcol) ∧
    ((touchAfterTake t).getLsbD i.val = false →
      u.c.touchL[i].r.toNat ≤ t.c.touchL[i].r.toNat ∧ u.c.touchL[i].g.toNat ≤ t.c.touchL[i].g.toNat ∧
      u.c.touchL[i].b.toNat ≤ t.c.touchL[i].b.toNat ∧
      (u.c.fadeF[i] = 0 → u.c.touchL[i] = ⟨0, 0, 0⟩))

/-- R201 with R192, R193: with RAWEN = 1, RAW emits one frame of its 32 normalized colours, LPS copies each,
bits [31:24] ignored, and changes no state; with RAWEN = 0 it does nothing; on port A, or with a reserved bit set, it is bad. -/
def Obligations.RawEmitsTheNormalizedFrame : Prop :=
  (∀ (s : State) (d : List Word), s.port = .c → s.c.rawen = true → d.length = 32 →
    ∃ px : List (BitVec 24),
      exec (.raw d) s = .next { s with io := { s.io with frames := s.io.frames ++ [px] } } ∧
      px.length = 32 * s.cfg.lps ∧
      ∀ (i j : Nat) (w : Word), d[i]? = some w → j < s.cfg.lps →
        let r := (w.extractLsb' 16 8).toNat
        let g := (w.extractLsb' 8 8).toNat
        let b := (w.extractLsb' 0 8).toNat
        let m := max r (max g b)
        px[i * s.cfg.lps + j]? = some (if s.c.bri.toNat < m then
          packRgb (r * s.c.bri.toNat / m) (g * s.c.bri.toNat / m) (b * s.c.bri.toNat / m)
          else packRgb r g b)) ∧
  (∀ (s : State) (d : List Word), s.port = .c → s.c.rawen = false → exec (.raw d) s = .next s) ∧
  (∀ d, BadOn .a (.raw d)) ∧ ReservedBitsAreBad 0x3C 0xFFFFFF

/-- 43_compositor_render.md R193, R202 (e): a raw-normalized colour has no channel above BRI, is unchanged if
its largest channel is not above BRI, and has BRI as its largest channel otherwise. -/
def Obligations.RawNormalizationCapsTheLargestChannel : Prop :=
  ∀ (bri : BitVec 8) (c : Color),
    maxChannel (rawnorm bri.toNat c) ≤ bri.toNat ∧
    (maxChannel c ≤ bri.toNat → rawnorm bri.toNat c = c) ∧
    (bri.toNat < maxChannel c → maxChannel (rawnorm bri.toNat c) = bri.toNat)

/-- 70_reset_and_hazards.md R272, R191: while BRI = 0, as reset leaves it, every TICK frame is all black, in every
state, in every mode and whatever elapsed time is reported; the TICK leaves BRI 0, so the next one is black too. -/
def Obligations.FramesAreBlackFromReset : Prop :=
  (∀ (s : State) (e : BitVec 24), s.port = .c → s.c.rawen = false → s.c.bri = 0 →
    ∃ t, exec (.tick e) s = .next t ∧ t.io.frames = s.io.frames ++ [List.replicate (32 * s.cfg.lps) 0] ∧
      t.port = .c ∧ t.c.rawen = false ∧ t.c.bri = 0) ∧
  (∀ cfg : Params, (State.resetWith cfg).c.bri = 0 ∧ (State.resetWith cfg).c.rawen = false)

/-- 20_memory.md R62, R72 (c): a TICK that follows a PUBT, with any commands but PUBT and TICK executed in
between on either port, takes the bitmap that PUBT sent, and leaves the mailbox empty. -/
def Obligations.TickTakesTheLatestSend : Prop :=
  ∀ (s t u v : State) (is : List (Port × Instr)) (e : BitVec 24), s.port = .a → exec .pubt s = .next t →
    (∀ x ∈ is, x.2 ≠ .pubt ∧ ∀ e', x.2 ≠ .tick e') →
    is.foldlM (m := Option) (fun st x =>
      match exec x.2 { st with port := x.1 } with
      | .next st' => some st'
      | _ => none) t = some u →
    exec (.tick e) { u with port := .c } = .next v →
    v.c.touch = s.a.bitmap ∧ v.mbox.full = false
end

