-- ==== Sys2Proof/Laws/PerInstr.lean ====
section
/-! SUPPORT. Statements about every instruction as syntax, one lemma per constructor. -/

namespace Sys2Proof.Laws.EncodeLength

/-- A well-formed instruction's words are its command word and ND(OP) data words (30_encoding.md R80, R91). -/
def Statement (i : Instr) : Prop := i.wf = true → (encode i).length = 1 + i.opcode.nd

theorem nop : Statement .nop := fun _ => rfl
theorem read (idx : BitVec 8) : Statement (.read idx) := fun _ => rfl
theorem fuse : Statement .fuse := fun _ => rfl
theorem brev (nm1 : BitVec 5) (v : Word) : Statement (.brev nm1 v) := fun _ => rfl
theorem pubt : Statement .pubt := fun _ => rfl
theorem setgmode (v8 : BitVec 8) : Statement (.setgmode v8) := fun _ => rfl
theorem resolve : Statement .resolve := fun _ => rfl
theorem resolvei (x : Word) : Statement (.resolvei x) := fun _ => rfl
theorem setbri (u24 : BitVec 24) : Statement (.setbri u24) := fun _ => rfl
theorem setspd (u24 : BitVec 24) : Statement (.setspd u24) := fun _ => rfl
theorem setimode (v8 : BitVec 8) : Statement (.setimode v8) := fun _ => rfl
theorem settmode (v8 : BitVec 8) : Statement (.settmode v8) := fun _ => rfl
theorem seticol (c : Color) : Statement (.seticol c) := fun _ => rfl
theorem settcol (c : Color) : Statement (.settcol c) := fun _ => rfl
theorem setupc (b1 : Bool) : Statement (.setupc b1) := fun _ => rfl
theorem setraw (b1 : Bool) : Statement (.setraw b1) := fun _ => rfl
theorem settouch (x : Word) : Statement (.settouch x) := fun _ => rfl
theorem setpc (c : Color) : Statement (.setpc c) := fun _ => rfl
theorem clrpc : Statement .clrpc := fun _ => rfl
theorem tick (e : BitVec 24) : Statement (.tick e) := fun _ => rfl
theorem raw (d : List Word) : Statement (.raw d) := by
  intro h
  have h : d.length = 32 := by simpa [Instr.wf] using h
  simp [encode, Instr.dataWords, Instr.opcode, Opcode.nd, h]

end Sys2Proof.Laws.EncodeLength
end

