-- ==== Sys2Proof/Laws/Decode.lean ====
section
/-! SUPPORT. What the decoder and the encoder do with the fields of a command word. -/

namespace Sys2Proof

/-- Each row is found by its opcode value: no two rows share one (30_encoding.md R85). -/
@[simp] theorem opcodeOfBits_bits (o : Opcode) : opcodeOfBits o.bits = some o := by cases o <;> rfl

/-- A found row has the opcode value it was looked up with. -/
theorem bits_of_opcodeOfBits {op : BitVec 8} {o : Opcode} (h : opcodeOfBits op = some o) : o.bits = op := by
  have := List.find?_some h
  simpa using this

@[simp] theorem ndOf_bits (o : Opcode) : ndOf o.bits = o.nd := by simp [ndOf]

/-- A command word as a number: the opcode's value in [31:24], the operand field below it (30_encoding.md R80). -/
theorem commandWord_toNat (i : Instr) : (commandWord i).toNat = i.opcode.bits.toNat * 2 ^ 24 + i.operands.toNat := by
  rw [commandWord, BitVec.toNat_append, Nat.shiftLeft_eq, Nat.mul_comm,
    ← Nat.two_pow_add_eq_or_of_lt i.operands.isLt]

@[simp] theorem opcodeField_commandWord (i : Instr) : opcodeField (commandWord i) = i.opcode.bits := by
  unfold opcodeField commandWord
  ext k hk
  rw [BitVec.getElem_extractLsb', BitVec.getLsbD_append, if_neg (by omega), BitVec.getLsbD_eq_getElem (by omega)]
  congr 1
  omega

@[simp] theorem operandField_commandWord (i : Instr) : operandField (commandWord i) = i.operands := by
  unfold operandField commandWord
  ext k hk
  rw [BitVec.getElem_extractLsb', BitVec.getLsbD_append, if_pos (by omega), BitVec.getLsbD_eq_getElem (by omega)]
  congr 1
  omega

/-- A command word is its opcode and its operand field. -/
theorem word_eq_fields (w : Word) : (opcodeField w ++ operandField w : BitVec (8 + 24)) = w := by
  unfold opcodeField operandField
  ext k hk
  simp only [BitVec.getElem_append, BitVec.getElem_extractLsb']
  split
  · simp [BitVec.getLsbD_eq_getElem hk]
  · rename_i h
    have : 24 + (k - 24) = k := by omega
    simp [this, BitVec.getLsbD_eq_getElem hk]

/-- Unpacking what was packed gives the colour (00_scope.md R11). -/
@[simp] theorem colorOfWord_colorWord (c : Color) : colorOfWord (colorWord c) = c := by
  obtain ⟨r, g, b⟩ := c
  simp only [colorOfWord, colorWord, Color.mk.injEq]
  refine ⟨?_, ?_, ?_⟩ <;> (ext k hk; simp only [BitVec.getElem_extractLsb', BitVec.getLsbD_append])
  · have h1 : ¬ (16 + k < 8) := by omega
    have h2 : ¬ (16 + k - 8 < 8) := by omega
    have h3 : 16 + k - 8 - 8 = k := by omega
    simp [h1, h2, h3, BitVec.getLsbD_eq_getElem hk]
  · have h1 : ¬ (8 + k < 8) := by omega
    simp [hk]
  · simp [hk]

/-- Packing what was unpacked gives the colour word (00_scope.md R11). -/
@[simp] theorem colorWord_colorOfWord (w : BitVec 24) : colorWord (colorOfWord w) = w := by
  unfold colorWord colorOfWord
  ext k hk
  simp only [BitVec.getElem_append, BitVec.getElem_extractLsb']
  split
  · simp [BitVec.getLsbD_eq_getElem hk]
  · rename_i h
    split
    · rename_i h2
      have : 8 + (k - 8) = k := by omega
      simp [this, BitVec.getLsbD_eq_getElem hk]
    · rename_i h2
      have : 16 + (k - 8 - 8) = k := by omega
      simp [this, BitVec.getLsbD_eq_getElem hk]

end Sys2Proof
end

