-- ==== Sys2Proof/Laws/State.lean ====
section
/-! SUPPORT. What each named update of the state leaves and writes, one lemma per part of the state. -/

namespace Sys2Proof.Machine

/-! ### badCmd -/

@[simp] theorem badCmd_cfg (s : State) : (badCmd s).cfg = s.cfg :=
    by cases s with | mk cfg a mbox c io port => cases port <;> rfl
@[simp] theorem badCmd_mbox (s : State) : (badCmd s).mbox = s.mbox :=
    by cases s with | mk cfg a mbox c io port => cases port <;> rfl
@[simp] theorem badCmd_io (s : State) : (badCmd s).io = s.io :=
    by cases s with | mk cfg a mbox c io port => cases port <;> rfl
@[simp] theorem badCmd_port (s : State) : (badCmd s).port = s.port :=
    by cases s with | mk cfg a mbox c io port => cases port <;> rfl
@[simp] theorem badCmd_a (s : State) (h : s.port = .a) : (badCmd s).a = { s.a with err := true } :=
    by simp [badCmd, setErr, h]
@[simp] theorem badCmd_c (s : State) (h : s.port = .c) : (badCmd s).c = { s.c with err := true } :=
    by simp [badCmd, setErr, h]
theorem badCmd_a_of_c (s : State) (h : s.port = .c) : (badCmd s).a = s.a := by simp [badCmd, setErr, h]
theorem badCmd_c_of_a (s : State) (h : s.port = .a) : (badCmd s).c = s.c := by simp [badCmd, setErr, h]

/-! ### emitResponse -/

@[simp] theorem emitResponse_cfg (w : Word) (s : State) : (emitResponse w s).cfg = s.cfg :=
    by unfold emitResponse; cases s.port <;> rfl
@[simp] theorem emitResponse_a (w : Word) (s : State) : (emitResponse w s).a = s.a :=
    by unfold emitResponse; cases s.port <;> rfl
@[simp] theorem emitResponse_mbox (w : Word) (s : State) : (emitResponse w s).mbox = s.mbox :=
    by unfold emitResponse; cases s.port <;> rfl
@[simp] theorem emitResponse_c (w : Word) (s : State) : (emitResponse w s).c = s.c :=
    by unfold emitResponse; cases s.port <;> rfl
@[simp] theorem emitResponse_port (w : Word) (s : State) : (emitResponse w s).port = s.port :=
    by unfold emitResponse; cases s.port <;> rfl
@[simp] theorem emitResponse_io_cmdA (w : Word) (s : State) : (emitResponse w s).io.cmdA = s.io.cmdA :=
    by unfold emitResponse; cases s.port <;> rfl
@[simp] theorem emitResponse_io_cmdC (w : Word) (s : State) : (emitResponse w s).io.cmdC = s.io.cmdC :=
    by unfold emitResponse; cases s.port <;> rfl
@[simp] theorem emitResponse_io_timeMs (w : Word) (s : State) : (emitResponse w s).io.timeMs = s.io.timeMs :=
    by unfold emitResponse; cases s.port <;> rfl
@[simp] theorem emitResponse_io_sense (w : Word) (s : State) : (emitResponse w s).io.sense = s.io.sense :=
    by unfold emitResponse; cases s.port <;> rfl
@[simp] theorem emitResponse_io_frames (w : Word) (s : State) : (emitResponse w s).io.frames = s.io.frames :=
    by unfold emitResponse; cases s.port <;> rfl
@[simp] theorem emitResponse_io_events (w : Word) (s : State) : (emitResponse w s).io.events = s.io.events :=
    by unfold emitResponse; cases s.port <;> rfl

/-! ### emitFrame -/

@[simp] theorem emitFrame_cfg (px : List (BitVec 24)) (s : State) : (emitFrame px s).cfg = s.cfg := rfl
@[simp] theorem emitFrame_a (px : List (BitVec 24)) (s : State) : (emitFrame px s).a = s.a := rfl
@[simp] theorem emitFrame_mbox (px : List (BitVec 24)) (s : State) : (emitFrame px s).mbox = s.mbox := rfl
@[simp] theorem emitFrame_c (px : List (BitVec 24)) (s : State) : (emitFrame px s).c = s.c := rfl
@[simp] theorem emitFrame_port (px : List (BitVec 24)) (s : State) : (emitFrame px s).port = s.port := rfl
@[simp] theorem emitFrame_io_cmdA (px : List (BitVec 24)) (s : State) : (emitFrame px s).io.cmdA = s.io.cmdA :=
    rfl
@[simp] theorem emitFrame_io_cmdC (px : List (BitVec 24)) (s : State) : (emitFrame px s).io.cmdC = s.io.cmdC :=
    rfl
@[simp] theorem emitFrame_io_timeMs (px : List (BitVec 24)) (s : State) : (emitFrame px s).io.timeMs = s.io.timeMs :=
    rfl
@[simp] theorem emitFrame_io_sense (px : List (BitVec 24)) (s : State) : (emitFrame px s).io.sense = s.io.sense :=
    rfl
@[simp] theorem emitFrame_io_respA (px : List (BitVec 24)) (s : State) : (emitFrame px s).io.respA = s.io.respA :=
    rfl
@[simp] theorem emitFrame_io_respC (px : List (BitVec 24)) (s : State) : (emitFrame px s).io.respC = s.io.respC :=
    rfl
@[simp] theorem emitFrame_io_events (px : List (BitVec 24)) (s : State) : (emitFrame px s).io.events = s.io.events :=
    rfl
@[simp] theorem emitFrame_io_frames (px : List (BitVec 24)) (s : State) : (emitFrame px s).io.frames = s.io.frames ++ [px] :=
    rfl

/-! ### setPending and setParser -/

@[simp] theorem setPending_cfg (s : State) (p : Port) (ws : List Word) : (setPending s p ws).cfg = s.cfg :=
    by cases p <;> rfl
@[simp] theorem setPending_a (s : State) (p : Port) (ws : List Word) : (setPending s p ws).a = s.a :=
    by cases p <;> rfl
@[simp] theorem setPending_mbox (s : State) (p : Port) (ws : List Word) : (setPending s p ws).mbox = s.mbox :=
    by cases p <;> rfl
@[simp] theorem setPending_c (s : State) (p : Port) (ws : List Word) : (setPending s p ws).c = s.c :=
    by cases p <;> rfl
@[simp] theorem setPending_port (s : State) (p : Port) (ws : List Word) : (setPending s p ws).port = s.port :=
    by cases p <;> rfl
@[simp] theorem setPending_io_timeMs (s : State) (p : Port) (ws : List Word) : (setPending s p ws).io.timeMs = s.io.timeMs :=
    by cases p <;> rfl
@[simp] theorem setPending_io_sense (s : State) (p : Port) (ws : List Word) : (setPending s p ws).io.sense = s.io.sense :=
    by cases p <;> rfl
@[simp] theorem setPending_io_respA (s : State) (p : Port) (ws : List Word) : (setPending s p ws).io.respA = s.io.respA :=
    by cases p <;> rfl
@[simp] theorem setPending_io_respC (s : State) (p : Port) (ws : List Word) : (setPending s p ws).io.respC = s.io.respC :=
    by cases p <;> rfl
@[simp] theorem setPending_io_frames (s : State) (p : Port) (ws : List Word) : (setPending s p ws).io.frames = s.io.frames :=
    by cases p <;> rfl
@[simp] theorem setPending_io_events (s : State) (p : Port) (ws : List Word) : (setPending s p ws).io.events = s.io.events :=
    by cases p <;> rfl
@[simp] theorem pending_setPending (s : State) (p : Port) (ws : List Word) : pending (setPending s p ws) p = ws :=
    by cases p <;> rfl
@[simp] theorem parserOf_setPending (s : State) (p q : Port) (ws : List Word) : parserOf (setPending s p ws) q = parserOf s q :=
    by cases p <;> cases q <;> rfl
@[simp] theorem heldBy_setPending (s : State) (p q : Port) (ws : List Word) : heldBy (setPending s p ws) q = heldBy s q :=
    by cases p <;> cases q <;> rfl
@[simp] theorem setParser_cfg (s : State) (p : Port) (q : Parser) : (setParser s p q).cfg = s.cfg :=
    by cases p <;> rfl
@[simp] theorem setParser_mbox (s : State) (p : Port) (q : Parser) : (setParser s p q).mbox = s.mbox :=
    by cases p <;> rfl
@[simp] theorem setParser_io (s : State) (p : Port) (q : Parser) : (setParser s p q).io = s.io :=
    by cases p <;> rfl
@[simp] theorem setParser_port (s : State) (p : Port) (q : Parser) : (setParser s p q).port = s.port :=
    by cases p <;> rfl
@[simp] theorem parserOf_setParser (s : State) (p : Port) (q : Parser) : parserOf (setParser s p q) p = q :=
    by cases p <;> rfl
@[simp] theorem pending_setParser (s : State) (p r : Port) (q : Parser) : pending (setParser s p q) r = pending s r :=
    by cases p <;> cases r <;> rfl
@[simp] theorem heldBy_setParser (s : State) (p r : Port) (q : Parser) : heldBy (setParser s p q) r = heldBy s r :=
    by cases p <;> cases r <;> rfl
@[simp] theorem setParser_setParser (s : State) (p : Port) (q r : Parser) : setParser (setParser s p q) p r = setParser s p r :=
    by cases p <;> rfl
@[simp] theorem setPending_setPending (s : State) (p : Port) (v w : List Word) : setPending (setPending s p v) p w = setPending s p w :=
    by cases p <;> rfl
theorem setParser_parserOf (s : State) (p : Port) : setParser s p (parserOf s p) = s := by cases p <;> rfl
theorem setPending_pending (s : State) (p : Port) : setPending s p (pending s p) = s := by cases p <;> rfl
theorem setParser_setPending (s : State) (p : Port) (q : Parser) (ws : List Word) : setParser (setPending s p ws) p q = setPending (setParser s p q) p ws :=
    by cases p <;> rfl
theorem setParser_a (s : State) (q : Parser) : setParser s .a q = { s with a := { s.a with parser := q } } :=
    rfl
theorem setParser_c (s : State) (q : Parser) : setParser s .c q = { s with c := { s.c with parser := q } } :=
    rfl

/-! ### setAcc -/

@[simp] theorem setAcc_parser (c : UnitC) (t : Timeline) (v : Word) : (setAcc c t v).parser = c.parser :=
    by cases t <;> rfl
@[simp] theorem setAcc_touch (c : UnitC) (t : Timeline) (v : Word) : (setAcc c t v).touch = c.touch :=
    by cases t <;> rfl
@[simp] theorem setAcc_bri (c : UnitC) (t : Timeline) (v : Word) : (setAcc c t v).bri = c.bri :=
    by cases t <;> rfl
@[simp] theorem setAcc_spd (c : UnitC) (t : Timeline) (v : Word) : (setAcc c t v).spd = c.spd :=
    by cases t <;> rfl
@[simp] theorem setAcc_imode (c : UnitC) (t : Timeline) (v : Word) : (setAcc c t v).imode = c.imode :=
    by cases t <;> rfl
@[simp] theorem setAcc_tmode (c : UnitC) (t : Timeline) (v : Word) : (setAcc c t v).tmode = c.tmode :=
    by cases t <;> rfl
@[simp] theorem setAcc_icol (c : UnitC) (t : Timeline) (v : Word) : (setAcc c t v).icol = c.icol :=
    by cases t <;> rfl
@[simp] theorem setAcc_tcol (c : UnitC) (t : Timeline) (v : Word) : (setAcc c t v).tcol = c.tcol :=
    by cases t <;> rfl
@[simp] theorem setAcc_upc (c : UnitC) (t : Timeline) (v : Word) : (setAcc c t v).upc = c.upc :=
    by cases t <;> rfl
@[simp] theorem setAcc_rawen (c : UnitC) (t : Timeline) (v : Word) : (setAcc c t v).rawen = c.rawen :=
    by cases t <;> rfl
@[simp] theorem setAcc_pcp (c : UnitC) (t : Timeline) (v : Word) : (setAcc c t v).pcp = c.pcp :=
    by cases t <;> rfl
@[simp] theorem setAcc_pcol (c : UnitC) (t : Timeline) (v : Word) : (setAcc c t v).pcol = c.pcol :=
    by cases t <;> rfl
@[simp] theorem setAcc_pulseP (c : UnitC) (t : Timeline) (v : Word) : (setAcc c t v).pulseP = c.pulseP :=
    by cases t <;> rfl
@[simp] theorem setAcc_pulseDir (c : UnitC) (t : Timeline) (v : Word) : (setAcc c t v).pulseDir = c.pulseDir :=
    by cases t <;> rfl
@[simp] theorem setAcc_phase (c : UnitC) (t : Timeline) (v : Word) : (setAcc c t v).phase = c.phase :=
    by cases t <;> rfl
@[simp] theorem setAcc_fadeF (c : UnitC) (t : Timeline) (v : Word) : (setAcc c t v).fadeF = c.fadeF :=
    by cases t <;> rfl
@[simp] theorem setAcc_fadeC (c : UnitC) (t : Timeline) (v : Word) : (setAcc c t v).fadeC = c.fadeC :=
    by cases t <;> rfl
@[simp] theorem setAcc_blend (c : UnitC) (t : Timeline) (v : Word) : (setAcc c t v).blend = c.blend :=
    by cases t <;> rfl
@[simp] theorem setAcc_idleL (c : UnitC) (t : Timeline) (v : Word) : (setAcc c t v).idleL = c.idleL :=
    by cases t <;> rfl
@[simp] theorem setAcc_touchL (c : UnitC) (t : Timeline) (v : Word) : (setAcc c t v).touchL = c.touchL :=
    by cases t <;> rfl
@[simp] theorem setAcc_err (c : UnitC) (t : Timeline) (v : Word) : (setAcc c t v).err = c.err :=
    by cases t <;> rfl
@[simp] theorem acc_setAcc (c : UnitC) (t : Timeline) (v : Word) : acc (setAcc c t v) t = v :=
    by cases t <;> rfl
theorem acc_setAcc_of_ne (c : UnitC) (t u : Timeline) (v : Word) (h : u ≠ t) : acc (setAcc c t v) u = acc c u :=
    by cases t <;> cases u <;> first | rfl | exact absurd rfl h
@[simp] theorem setAcc_pulse_accP (c : UnitC) (v : Word) : (setAcc c .pulse v).accP = v := rfl
@[simp] theorem setAcc_rainbow_accP (c : UnitC) (v : Word) : (setAcc c .rainbow v).accP = c.accP := rfl
@[simp] theorem setAcc_fade_accP (c : UnitC) (v : Word) : (setAcc c .fade v).accP = c.accP := rfl
@[simp] theorem setAcc_blend_accP (c : UnitC) (v : Word) : (setAcc c .blend v).accP = c.accP := rfl
@[simp] theorem setAcc_pulse_accR (c : UnitC) (v : Word) : (setAcc c .pulse v).accR = c.accR := rfl
@[simp] theorem setAcc_rainbow_accR (c : UnitC) (v : Word) : (setAcc c .rainbow v).accR = v := rfl
@[simp] theorem setAcc_fade_accR (c : UnitC) (v : Word) : (setAcc c .fade v).accR = c.accR := rfl
@[simp] theorem setAcc_blend_accR (c : UnitC) (v : Word) : (setAcc c .blend v).accR = c.accR := rfl
@[simp] theorem setAcc_pulse_accF (c : UnitC) (v : Word) : (setAcc c .pulse v).accF = c.accF := rfl
@[simp] theorem setAcc_rainbow_accF (c : UnitC) (v : Word) : (setAcc c .rainbow v).accF = c.accF := rfl
@[simp] theorem setAcc_fade_accF (c : UnitC) (v : Word) : (setAcc c .fade v).accF = v := rfl
@[simp] theorem setAcc_blend_accF (c : UnitC) (v : Word) : (setAcc c .blend v).accF = c.accF := rfl
@[simp] theorem setAcc_pulse_accB (c : UnitC) (v : Word) : (setAcc c .pulse v).accB = c.accB := rfl
@[simp] theorem setAcc_rainbow_accB (c : UnitC) (v : Word) : (setAcc c .rainbow v).accB = c.accB := rfl
@[simp] theorem setAcc_fade_accB (c : UnitC) (v : Word) : (setAcc c .fade v).accB = c.accB := rfl
@[simp] theorem setAcc_blend_accB (c : UnitC) (v : Word) : (setAcc c .blend v).accB = v := rfl

/-! ### What the host does -/

@[simp] theorem hostSend_cfg (p : Port) (w : Word) (s : State) : (hostSend p w s).cfg = s.cfg :=
    by cases p <;> rfl
@[simp] theorem hostSend_a (p : Port) (w : Word) (s : State) : (hostSend p w s).a = s.a := by cases p <;> rfl
@[simp] theorem hostSend_mbox (p : Port) (w : Word) (s : State) : (hostSend p w s).mbox = s.mbox :=
    by cases p <;> rfl
@[simp] theorem hostSend_c (p : Port) (w : Word) (s : State) : (hostSend p w s).c = s.c := by cases p <;> rfl
@[simp] theorem hostSend_port (p : Port) (w : Word) (s : State) : (hostSend p w s).port = s.port :=
    by cases p <;> rfl
@[simp] theorem hostTime_cfg (t : Word) (s : State) : (hostTime t s).cfg = s.cfg := rfl
@[simp] theorem hostTime_a (t : Word) (s : State) : (hostTime t s).a = s.a := rfl
@[simp] theorem hostTime_mbox (t : Word) (s : State) : (hostTime t s).mbox = s.mbox := rfl
@[simp] theorem hostTime_c (t : Word) (s : State) : (hostTime t s).c = s.c := rfl
@[simp] theorem hostTime_port (t : Word) (s : State) : (hostTime t s).port = s.port := rfl
@[simp] theorem adapterAnswer_cfg (a : Fin 32) (m : Word) (s : State) : (adapterAnswer a m s).cfg = s.cfg :=
    rfl
@[simp] theorem adapterAnswer_a (a : Fin 32) (m : Word) (s : State) : (adapterAnswer a m s).a = s.a := rfl
@[simp] theorem adapterAnswer_mbox (a : Fin 32) (m : Word) (s : State) : (adapterAnswer a m s).mbox = s.mbox :=
    rfl
@[simp] theorem adapterAnswer_c (a : Fin 32) (m : Word) (s : State) : (adapterAnswer a m s).c = s.c := rfl
@[simp] theorem adapterAnswer_port (a : Fin 32) (m : Word) (s : State) : (adapterAnswer a m s).port = s.port :=
    rfl
@[simp] theorem resetBlock_cfg (s : State) : (resetBlock s).cfg = s.cfg := rfl
@[simp] theorem resetBlock_io (s : State) : (resetBlock s).io = s.io := rfl
@[simp] theorem resetBlock_a (s : State) : (resetBlock s).a = UnitA.reset s.cfg := rfl
@[simp] theorem resetBlock_mbox (s : State) : (resetBlock s).mbox = Mailbox.reset := rfl
@[simp] theorem resetBlock_c (s : State) : (resetBlock s).c = UnitC.reset s.cfg := rfl
@[simp] theorem resetBlock_port (s : State) : (resetBlock s).port = Port.a := rfl

/-! ### takeTouch -/

@[simp] theorem takeTouch_cfg (s : State) : (takeTouch s).cfg = s.cfg :=
    by cases h : s.mbox.full <;> simp [takeTouch, mailboxTake, h]
@[simp] theorem takeTouch_a (s : State) : (takeTouch s).a = s.a :=
    by cases h : s.mbox.full <;> simp [takeTouch, mailboxTake, h]
@[simp] theorem takeTouch_io (s : State) : (takeTouch s).io = s.io :=
    by cases h : s.mbox.full <;> simp [takeTouch, mailboxTake, h]
@[simp] theorem takeTouch_port (s : State) : (takeTouch s).port = s.port :=
    by cases h : s.mbox.full <;> simp [takeTouch, mailboxTake, h]
@[simp] theorem takeTouch_c_parser (s : State) : (takeTouch s).c.parser = s.c.parser :=
    by cases h : s.mbox.full <;> simp [takeTouch, mailboxTake, h]
@[simp] theorem takeTouch_c_bri (s : State) : (takeTouch s).c.bri = s.c.bri :=
    by cases h : s.mbox.full <;> simp [takeTouch, mailboxTake, h]
@[simp] theorem takeTouch_c_spd (s : State) : (takeTouch s).c.spd = s.c.spd :=
    by cases h : s.mbox.full <;> simp [takeTouch, mailboxTake, h]
@[simp] theorem takeTouch_c_imode (s : State) : (takeTouch s).c.imode = s.c.imode :=
    by cases h : s.mbox.full <;> simp [takeTouch, mailboxTake, h]
@[simp] theorem takeTouch_c_tmode (s : State) : (takeTouch s).c.tmode = s.c.tmode :=
    by cases h : s.mbox.full <;> simp [takeTouch, mailboxTake, h]
@[simp] theorem takeTouch_c_icol (s : State) : (takeTouch s).c.icol = s.c.icol :=
    by cases h : s.mbox.full <;> simp [takeTouch, mailboxTake, h]
@[simp] theorem takeTouch_c_tcol (s : State) : (takeTouch s).c.tcol = s.c.tcol :=
    by cases h : s.mbox.full <;> simp [takeTouch, mailboxTake, h]
@[simp] theorem takeTouch_c_upc (s : State) : (takeTouch s).c.upc = s.c.upc :=
    by cases h : s.mbox.full <;> simp [takeTouch, mailboxTake, h]
@[simp] theorem takeTouch_c_rawen (s : State) : (takeTouch s).c.rawen = s.c.rawen :=
    by cases h : s.mbox.full <;> simp [takeTouch, mailboxTake, h]
@[simp] theorem takeTouch_c_pcp (s : State) : (takeTouch s).c.pcp = s.c.pcp :=
    by cases h : s.mbox.full <;> simp [takeTouch, mailboxTake, h]
@[simp] theorem takeTouch_c_pcol (s : State) : (takeTouch s).c.pcol = s.c.pcol :=
    by cases h : s.mbox.full <;> simp [takeTouch, mailboxTake, h]
@[simp] theorem takeTouch_c_accP (s : State) : (takeTouch s).c.accP = s.c.accP :=
    by cases h : s.mbox.full <;> simp [takeTouch, mailboxTake, h]
@[simp] theorem takeTouch_c_accR (s : State) : (takeTouch s).c.accR = s.c.accR :=
    by cases h : s.mbox.full <;> simp [takeTouch, mailboxTake, h]
@[simp] theorem takeTouch_c_accF (s : State) : (takeTouch s).c.accF = s.c.accF :=
    by cases h : s.mbox.full <;> simp [takeTouch, mailboxTake, h]
@[simp] theorem takeTouch_c_accB (s : State) : (takeTouch s).c.accB = s.c.accB :=
    by cases h : s.mbox.full <;> simp [takeTouch, mailboxTake, h]
@[simp] theorem takeTouch_c_pulseP (s : State) : (takeTouch s).c.pulseP = s.c.pulseP :=
    by cases h : s.mbox.full <;> simp [takeTouch, mailboxTake, h]
@[simp] theorem takeTouch_c_pulseDir (s : State) : (takeTouch s).c.pulseDir = s.c.pulseDir :=
    by cases h : s.mbox.full <;> simp [takeTouch, mailboxTake, h]
@[simp] theorem takeTouch_c_phase (s : State) : (takeTouch s).c.phase = s.c.phase :=
    by cases h : s.mbox.full <;> simp [takeTouch, mailboxTake, h]
@[simp] theorem takeTouch_c_fadeF (s : State) : (takeTouch s).c.fadeF = s.c.fadeF :=
    by cases h : s.mbox.full <;> simp [takeTouch, mailboxTake, h]
@[simp] theorem takeTouch_c_fadeC (s : State) : (takeTouch s).c.fadeC = s.c.fadeC :=
    by cases h : s.mbox.full <;> simp [takeTouch, mailboxTake, h]
@[simp] theorem takeTouch_c_blend (s : State) : (takeTouch s).c.blend = s.c.blend :=
    by cases h : s.mbox.full <;> simp [takeTouch, mailboxTake, h]
@[simp] theorem takeTouch_c_idleL (s : State) : (takeTouch s).c.idleL = s.c.idleL :=
    by cases h : s.mbox.full <;> simp [takeTouch, mailboxTake, h]
@[simp] theorem takeTouch_c_touchL (s : State) : (takeTouch s).c.touchL = s.c.touchL :=
    by cases h : s.mbox.full <;> simp [takeTouch, mailboxTake, h]
@[simp] theorem takeTouch_c_err (s : State) : (takeTouch s).c.err = s.c.err :=
    by cases h : s.mbox.full <;> simp [takeTouch, mailboxTake, h]
@[simp] theorem takeTouch_c_touch (s : State) : (takeTouch s).c.touch = if s.mbox.full then s.mbox.val else s.c.touch :=
    by cases h : s.mbox.full <;> simp [takeTouch, mailboxTake, h]
@[simp] theorem takeTouch_mbox (s : State) : (takeTouch s).mbox = ⟨s.mbox.val, false⟩ :=
    by rcases s with ⟨_, _, ⟨v, f⟩, _, _, _⟩; cases f <;> rfl

end Sys2Proof.Machine
end

