-- ==== Sys2Proof/Laws/Ops.lean ====
section
/-! SUPPORT. What each shared operation does, said once. -/

namespace Sys2Proof.Machine

/-! ### perform -/

theorem perform_of_legal {o : Opcode} {f : State → State} {s : State} (h : o.legalOn s.port = true) :
    perform o f s = .next (f s) := by simp [perform, h]

theorem perform_of_illegal {o : Opcode} {f : State → State} {s : State} (h : o.legalOn s.port = false) :
    perform o f s = .next (badCmd s) := by simp [perform, h]

/-- `perform` always goes on: with the effect, or with the error bit. -/
theorem perform_next (o : Opcode) (f : State → State) (s : State) :
    perform o f s = .next (if o.legalOn s.port then f s else badCmd s) := by
  unfold perform
  split <;> rfl

/-- Each command's effect on a port its row names, by the name of its definition. -/
def effectOf (i : Instr) (s : State) : State :=
  match i with
  | .nop => nopEffect s
  | .read idx => readEffect idx s
  | .fuse => fuseEffect s
  | .brev nm1 v => brevEffect nm1 v s
  | .pubt => pubtEffect s
  | .setgmode v8 => setgmodeEffect v8 s
  | .resolve => resolveEffect s
  | .resolvei x => resolveiEffect x s
  | .setbri u24 => setbriEffect u24 s
  | .setspd u24 => setspdEffect u24 s
  | .setimode v8 => setimodeEffect v8 s
  | .settmode v8 => settmodeEffect v8 s
  | .seticol c => seticolEffect c s
  | .settcol c => settcolEffect c s
  | .setupc b1 => setupcEffect b1 s
  | .setraw b1 => setrawEffect b1 s
  | .settouch x => settouchEffect x s
  | .setpc c => setpcEffect c s
  | .clrpc => clrpcEffect s
  | .tick e => tickEffect e.toNat s
  | .raw d => rawEffect d s

/-- What exec answers, for every command and every state. -/
theorem exec_eq (i : Instr) (s : State) :
    exec i s = .next (if i.opcode.legalOn s.port then effectOf i s else badCmd s) := by
  cases i <;>
    first
      | exact perform_next _ _ s
      | exact perform_next .nop nopEffect s
      | exact perform_next .read (readEffect _) s

theorem exec_of_legal {i : Instr} {s : State} (h : i.opcode.legalOn s.port = true) :
    exec i s = .next (effectOf i s) := by rw [exec_eq, if_pos h]

theorem exec_of_illegal {i : Instr} {s : State} (h : i.opcode.legalOn s.port = false) :
    exec i s = .next (badCmd s) := by simp [exec_eq, h]

/-- If exec answers `t`, then `t` is the effect on a legal port or BadCmd on the other. -/
theorem exec_cases {i : Instr} {s t : State} (h : exec i s = .next t) :
    (i.opcode.legalOn s.port = true ∧ t = effectOf i s) ∨
    (i.opcode.legalOn s.port = false ∧ t = badCmd s) := by
  rw [exec_eq] at h
  cases hl : i.opcode.legalOn s.port
  · exact .inr ⟨rfl, by simpa [hl] using h.symm⟩
  · exact .inl ⟨rfl, by simpa [hl] using h.symm⟩

/-! ### Segments and channels -/

@[simp] theorem perSegment_get {α : Type} (f : Fin 32 → α) (i : Nat) (h : i < 32) :
    (perSegment f)[i] = f ⟨i, h⟩ := by
  simp only [perSegment, Vector.getElem_mk, List.getElem_toArray, List.getElem_ofFn]

@[simp] theorem perSegment_get_fin {α : Type} (f : Fin 32 → α) (i : Fin 32) : (perSegment f)[i] = f i :=
  perSegment_get f i.val i.isLt

@[simp] theorem perSegment_toList {α : Type} (f : Fin 32 → α) : (perSegment f).toList = List.ofFn f := by
  simp only [perSegment, Vector.toList_mk]

@[simp] theorem mapChannels_r (f : Nat → Nat) (c : Color) : (mapChannels f c).r = BitVec.ofNat 8 (f c.r.toNat) := rfl
@[simp] theorem mapChannels_g (f : Nat → Nat) (c : Color) : (mapChannels f c).g = BitVec.ofNat 8 (f c.g.toNat) := rfl
@[simp] theorem mapChannels_b (f : Nat → Nat) (c : Color) : (mapChannels f c).b = BitVec.ofNat 8 (f c.b.toNat) := rfl
@[simp] theorem zipChannels_r (f : Nat → Nat → Nat) (c d : Color) :
    (zipChannels f c d).r = BitVec.ofNat 8 (f c.r.toNat d.r.toNat) := rfl
@[simp] theorem zipChannels_g (f : Nat → Nat → Nat) (c d : Color) :
    (zipChannels f c d).g = BitVec.ofNat 8 (f c.g.toNat d.g.toNat) := rfl
@[simp] theorem zipChannels_b (f : Nat → Nat → Nat) (c d : Color) :
    (zipChannels f c d).b = BitVec.ofNat 8 (f c.b.toNat d.b.toNat) := rfl

/-! ### The stepper -/

theorem threshold_pos (cfg : Params) (t : Timeline) (spd : BitVec 8) : 0 < threshold cfg t spd := by
  unfold threshold
  omega

theorem threshold_lt (cfg : Params) (t : Timeline) (spd : BitVec 8) : threshold cfg t spd < 2 ^ 32 := by
  have := (thr cfg t spd).isLt
  unfold threshold
  omega

theorem advance_count (cfg : Params) (t : Timeline) (e : Nat) (c : UnitC) :
    (advance cfg t e c).1 = ((acc c t).toNat + e) / threshold cfg t c.spd := rfl

theorem advance_unit (cfg : Params) (t : Timeline) (e : Nat) (c : UnitC) :
    (advance cfg t e c).2 =
      setAcc c t (BitVec.ofNat 32 (((acc c t).toNat + e) % threshold cfg t c.spd)) := rfl

/-- The remainder fits its 32 bits: the stored accumulator is the exact one (43_compositor_render.md R180). -/
theorem advance_acc (cfg : Params) (t : Timeline) (e : Nat) (c : UnitC) :
    (acc (advance cfg t e c).2 t).toNat = ((acc c t).toNat + e) % threshold cfg t c.spd := by
  have h1 := Nat.mod_lt ((acc c t).toNat + e) (threshold_pos cfg t c.spd)
  have h2 := threshold_lt cfg t c.spd
  rw [advance_unit, acc_setAcc, BitVec.toNat_ofNat]
  exact Nat.mod_eq_of_lt (by omega)

/-! ### Colours -/

theorem length_frameOf (lps : Nat) (segs : List Color) : (frameOf lps segs).length = segs.length * lps := by
  induction segs with
  | nil => simp [frameOf]
  | cons c cs ih =>
    simp only [frameOf, List.flatMap_cons, List.length_append, List.length_replicate, List.length_cons] at *
    rw [ih, Nat.succ_mul, Nat.add_comm]

/-- Pixel k of a frame is of segment k div LPS (20_memory.md R63, 43_compositor_render.md R192). -/
theorem getElem_frameOf (lps : Nat) (segs : List Color) (i j : Nat) (c : Color) (hi : segs[i]? = some c) (hj : j < lps) :
    (frameOf lps segs)[i * lps + j]? = some (colorWord c) := by
  induction segs generalizing i with
  | nil => simp at hi
  | cons d ds ih =>
    cases i with
    | zero =>
      simp only [List.getElem?_cons_zero, Option.some.injEq] at hi
      subst hi
      simp [frameOf, List.getElem?_append, hj]
    | succ i =>
      have h := ih i (by simpa using hi)
      simp only [frameOf, List.flatMap_cons] at h ⊢
      rw [List.getElem?_append_right (by simp [Nat.succ_mul]; omega), ← h]
      congr 1
      simp [Nat.succ_mul]
      omega

/-- A pixel of a frame is the colour word of one of its segments. -/
theorem mem_frameOf {lps : Nat} {segs : List Color} {w : BitVec 24} (h : w ∈ frameOf lps segs) :
    ∃ c ∈ segs, w = colorWord c := by
  simp only [frameOf, List.mem_flatMap, List.mem_replicate] at h
  obtain ⟨c, hc, -, rfl⟩ := h
  exact ⟨c, hc, rfl⟩

end Sys2Proof.Machine
end

