-- ==== Sys2Proof/Laws/Exec.lean ====
section
/-! SUPPORT. What each command's effect can change, said once; later proofs cite these and unfold no effect. -/

namespace Sys2Proof.Machine

/-! ### FUSE -/

/-- A FUSE that goes on writes at most BITMAP, VALID, LAST_MS, its own wait and the answers left. -/
theorem fuseContinue_frame (fw : FuseWait) (s : State) :
    ∃ bm v l w q, fuseContinue fw s =
      { s with a := { s.a with bitmap := bm, valid := v, lastMs := l, fuseWait := w }, io := { s.io with sense := q } } := by
  unfold fuseContinue
  simp only
  split
  · exact ⟨s.a.bitmap, s.a.valid, s.a.lastMs, _, _, rfl⟩
  · exact ⟨_, _, _, _, _, rfl⟩

theorem fuseEffect_frame (s : State) :
    ∃ bm v l w q, fuseEffect s =
      { s with a := { s.a with bitmap := bm, valid := v, lastMs := l, fuseWait := w }, io := { s.io with sense := q } } := by
  unfold fuseEffect
  split
  · exact fuseContinue_frame _ _
  · exact ⟨s.a.bitmap, s.a.valid, s.a.lastMs, s.a.fuseWait, s.io.sense, rfl⟩

/-- The masks still short of NA: FUSE waits, and only its wait and the answers left change. -/
theorem fuseContinue_short {fw : FuseWait} {s : State} {r : List Word × Vector (List Word) 32}
    (hr : pollFrom (s.cfg.adapters.drop fw.got.length) fw.got.length s.io.sense = r)
    (h : (fw.got ++ r.1).length < s.cfg.na) :
    fuseContinue fw s =
      { s with a := { s.a with fuseWait := some ⟨fw.t, fw.got ++ r.1⟩ }, io := { s.io with sense := r.2 } } := by
  subst hr
  unfold fuseContinue
  simp only [if_pos h]

/-- All masks received: FUSE completes with its three writes. -/
theorem fuseContinue_done {fw : FuseWait} {s : State} {r : List Word × Vector (List Word) 32}
    (hr : pollFrom (s.cfg.adapters.drop fw.got.length) fw.got.length s.io.sense = r)
    (h : s.cfg.na ≤ (fw.got ++ r.1).length) :
    fuseContinue fw s =
      { s with
        a := { s.a with
          bitmap := orient s.cfg (fuseMasks s.cfg.adapters (fw.got ++ r.1)), lastMs := fw.t, valid := true
          fuseWait := none }
        io := { s.io with sense := r.2 } } := by
  subst hr
  unfold fuseContinue
  simp only [if_neg (Nat.not_lt.mpr h)]

/-! ### RESOLVE -/

/-- A resolution writes at most the two tracks and AXES. -/
theorem resolveBitmap_frame (cfg : Params) (x : Word) (a : UnitA) :
    ∃ l r ax, resolveBitmap cfg x a = { a with trkL := l, trkR := r, axes := ax } := by
  unfold resolveBitmap
  split
  · exact ⟨a.trkL, a.trkR, _, rfl⟩
  · exact ⟨_, _, _, rfl⟩
  · exact ⟨a.trkL, a.trkR, a.axes, rfl⟩

/-- The tracks move only in stick mode. -/
theorem resolveBitmap_tracks (cfg : Params) (x : Word) (a : UnitA) (h : a.gmode ≠ 1) :
    (resolveBitmap cfg x a).trkL = a.trkL ∧ (resolveBitmap cfg x a).trkR = a.trkR := by
  unfold resolveBitmap gestureModeOf
  by_cases h0 : a.gmode = 0
  · simp [h0]
  · simp [show a.gmode ≠ 0#8 from h0, show a.gmode ≠ 1#8 from h]

/-! ### TICK and RAW -/

/-- TICK's mailbox take empties the mailbox and writes TOUCH. -/
theorem takeTouch_eq (s : State) :
    takeTouch s = { s with mbox := ⟨s.mbox.val, false⟩, c := { s.c with touch := if s.mbox.full then s.mbox.val else s.c.touch } } := by
  unfold takeTouch mailboxTake
  cases h : s.mbox.full
  · have hm : s.mbox = ⟨s.mbox.val, false⟩ := by rw [← h]
    simp [← hm]
  · simp

theorem advance_frame (cfg : Params) (t : Timeline) (e : Nat) (c : UnitC) :
    ∃ v, (advance cfg t e c).2 = setAcc c t v := ⟨_, rfl⟩

theorem blendUpdate_frame (cfg : Params) (e : Nat) (c : UnitC) :
    ∃ b v, blendUpdate cfg e c = { c with blend := b, accB := v } := ⟨_, _, rfl⟩

/-- The idle layer writes at most IDLE_L and the idle timelines; the pulse ones in mode 2 and the rainbow
ones in mode 4 alone. -/
theorem idleLayer_frame (cfg : Params) (e : Nat) (c : UnitC) :
    ∃ p d vp ph vr l, idleLayer cfg e c =
      { c with pulseP := p, pulseDir := d, accP := vp, phase := ph, accR := vr, idleL := l } ∧
      (c.imode ≠ 2 → p = c.pulseP ∧ d = c.pulseDir ∧ vp = c.accP) ∧
      (c.imode ≠ 4 → ph = c.phase ∧ vr = c.accR) ∧
      (5 ≤ c.imode.toNat → l = c.idleL) := by
  unfold idleLayer
  split
  · exact ⟨c.pulseP, c.pulseDir, c.accP, c.phase, c.accR, _, rfl, by simp, by simp, by intro h; unfold idleModeOf at *; grind⟩
  · exact ⟨c.pulseP, c.pulseDir, c.accP, c.phase, c.accR, _, rfl, by simp, by simp, by intro h; unfold idleModeOf at *; grind⟩
  · exact ⟨_, _, _, c.phase, c.accR, _, rfl, by intro h; unfold idleModeOf at *; grind, by simp, by intro h; unfold idleModeOf at *; grind⟩
  · exact ⟨c.pulseP, c.pulseDir, c.accP, c.phase, c.accR, _, rfl, by simp, by simp, by intro h; unfold idleModeOf at *; grind⟩
  · exact ⟨c.pulseP, c.pulseDir, c.accP, _, _, _, rfl, by simp, by intro h; unfold idleModeOf at *; grind, by intro h; unfold idleModeOf at *; grind⟩
  · exact ⟨c.pulseP, c.pulseDir, c.accP, c.phase, c.accR, c.idleL, rfl, by simp, by simp, by simp⟩

/-- The touched layer writes at most TOUCH_L and the fade state, the latter in modes 3 and 4 alone. -/
theorem touchedLayer_frame (cfg : Params) (e : Nat) (c : UnitC) :
    ∃ f k v l, touchedLayer cfg e c = { c with fadeF := f, fadeC := k, accF := v, touchL := l } ∧
      (c.tmode ≠ 3 → c.tmode ≠ 4 → f = c.fadeF ∧ k = c.fadeC ∧ v = c.accF) ∧
      (5 ≤ c.tmode.toNat → l = c.touchL) := by
  unfold touchedLayer
  split
  · exact ⟨c.fadeF, c.fadeC, c.accF, _, rfl, by simp, by intro h; unfold touchedModeOf at *; grind⟩
  · exact ⟨c.fadeF, c.fadeC, c.accF, _, rfl, by simp, by intro h; unfold touchedModeOf at *; grind⟩
  · exact ⟨c.fadeF, c.fadeC, c.accF, _, rfl, by simp, by intro h; unfold touchedModeOf at *; grind⟩
  · exact ⟨_, _, _, _, rfl, by intro h1 h2; unfold touchedModeOf at *; grind, by intro h; unfold touchedModeOf at *; grind⟩
  · exact ⟨_, _, _, _, rfl, by intro h1 h2; unfold touchedModeOf at *; grind, by intro h; unfold touchedModeOf at *; grind⟩
  · exact ⟨c.fadeF, c.fadeC, c.accF, c.touchL, rfl, by simp, by simp⟩

/-- The three layers of a rendering TICK change only the timelines and the layer buffers. -/
theorem renderLayers_frame (cfg : Params) (e : Nat) (c : UnitC) :
    ∃ b vb p d vp ph vr il f k vf tl, renderLayers cfg e c =
      { c with
        blend := b, accB := vb, pulseP := p, pulseDir := d, accP := vp, phase := ph, accR := vr, idleL := il
        fadeF := f, fadeC := k, accF := vf, touchL := tl } ∧
      (c.imode ≠ 2 → p = c.pulseP ∧ d = c.pulseDir ∧ vp = c.accP) ∧
      (c.imode ≠ 4 → ph = c.phase ∧ vr = c.accR) ∧
      (5 ≤ c.imode.toNat → il = c.idleL) ∧
      (c.tmode ≠ 3 → c.tmode ≠ 4 → f = c.fadeF ∧ k = c.fadeC ∧ vf = c.accF) ∧
      (5 ≤ c.tmode.toNat → tl = c.touchL) := by
  unfold renderLayers
  obtain ⟨b, vb, hb⟩ := blendUpdate_frame cfg e c
  obtain ⟨p, d, vp, ph, vr, il, hi, h1, h2, h3⟩ := idleLayer_frame cfg e (blendUpdate cfg e c)
  obtain ⟨f, k, vf, tl, ht, h4, h5⟩ := touchedLayer_frame cfg e (idleLayer cfg e (blendUpdate cfg e c))
  rw [hi, hb] at ht h4 h5
  rw [hb] at h1 h2 h3
  exact ⟨b, vb, p, d, vp, ph, vr, il, f, k, vf, tl, by rw [hi, hb, ht], h1, h2, h3, h4, h5⟩

/-- A TICK under raw override only takes the mailbox. -/
theorem tickEffect_raw {e : Nat} {s : State} (h : s.c.rawen = true) : tickEffect e s = takeTouch s := by
  unfold tickEffect
  rw [if_pos (by rw [takeTouch_eq]; exact h)]

/-- A rendering TICK takes the mailbox, draws the layers and emits one frame. -/
theorem tickEffect_render {e : Nat} {s : State} (h : s.c.rawen = false) :
    tickEffect e s = renderFrame e (takeTouch s) := by
  unfold tickEffect
  rw [if_neg (by rw [takeTouch_eq]; simp [h])]

/-- RAW emits at most one frame and writes no state. -/
theorem rawEffect_frame (d : List Word) (s : State) :
    rawEffect d s = s ∨ ∃ px, rawEffect d s = { s with io := { s.io with frames := s.io.frames ++ [px] } } := by
  unfold rawEffect
  split
  · exact .inr ⟨_, rfl⟩
  · exact .inl rfl

/-! ### Every command -/

/-- READ appends one word to its own port's response stream. -/
theorem readEffect_a {idx : BitVec 8} {s : State} (h : s.port = .a) :
    readEffect idx s = { s with io := { s.io with respA := s.io.respA ++ [readbackA s idx.toNat] } } := by
  simp [readEffect, emitResponse, readback, h]

theorem readEffect_c {idx : BitVec 8} {s : State} (h : s.port = .c) :
    readEffect idx s = { s with io := { s.io with respC := s.io.respC ++ [readbackC s idx.toNat] } } := by
  simp [readEffect, emitResponse, readback, h]

end Sys2Proof.Machine
end

