-- ==== Sys2Proof/Laws/Fuse.lean ====
section
/-! SUPPORT. What polling the adapters does, said once (spec/40_aggregator.md R102, R110). -/

namespace Sys2Proof.Machine

/-- An adapter with no answer ready stops the polling. -/
theorem pollFrom_wait {ad : Adapter} {ads : List Adapter} {k : Nat} {q : Vector (List Word) 32} (hk : k < 32)
    (h : q[k] = []) : pollFrom (ad :: ads) k q = ([], q) := by
  unfold pollFrom
  rw [dif_pos hk, h]

/-- An adapter with an answer ready gives its first one. -/
theorem pollFrom_take {ad : Adapter} {ads : List Adapter} {k : Nat} {q : Vector (List Word) 32} {m : Word}
    {rest : List Word} (hk : k < 32) (h : q[k] = m :: rest) :
    pollFrom (ad :: ads) k q =
      (nativeMask ad m :: (pollFrom ads (k + 1) (q.set k rest)).1, (pollFrom ads (k + 1) (q.set k rest)).2) := by
  conv => lhs; unfold pollFrom
  rw [dif_pos hk, h]

/-- Polling stops at an adapter with no answer ready: it receives at most the masks before it. -/
theorem pollFrom_silent (ads : List Adapter) (k : Nat) (q : Vector (List Word) 32) (j : Fin 32)
    (hk : k ≤ j.val) (hj : q[j] = []) : (pollFrom ads k q).1.length ≤ j.val - k := by
  induction ads generalizing k q with
  | nil => simp [pollFrom]
  | cons ad ads ih =>
    have hk32 : k < 32 := by omega
    cases hq : q[k] with
    | nil => rw [pollFrom_wait hk32 hq]; simp
    | cons m rest =>
      rw [pollFrom_take hk32 hq]
      have hne : k ≠ j.val := by
        rintro rfl
        rw [show q[j.val] = q[j] from rfl, hj] at hq
        simp at hq
      have := ih (k + 1) (q.set k rest) (by omega) (by simpa [Vector.getElem_set, hne] using hj)
      simp only [List.length_cons]
      omega

/-- Polling leaves an empty queue empty. -/
theorem pollFrom_empty (ads : List Adapter) (k : Nat) (q : Vector (List Word) 32) (j : Fin 32)
    (hj : q[j] = []) : (pollFrom ads k q).2[j] = [] := by
  induction ads generalizing k q with
  | nil => simpa [pollFrom] using hj
  | cons ad ads ih =>
    by_cases hk : k < 32
    · cases hq : q[k] with
      | nil => rw [pollFrom_wait hk hq]; exact hj
      | cons m rest =>
        rw [pollFrom_take hk hq]
        have hne : k ≠ j.val := by
          rintro rfl
          rw [show q[j.val] = q[j] from rfl, hj] at hq
          simp at hq
        exact ih (k + 1) _ (by simpa [Vector.getElem_set, hne] using hj)
    · unfold pollFrom
      simpa [hk] using hj

theorem pollFrom_length (ads : List Adapter) (k : Nat) (q : Vector (List Word) 32) :
    (pollFrom ads k q).1.length ≤ ads.length := by
  induction ads generalizing k q with
  | nil => simp [pollFrom]
  | cons ad ads ih =>
    unfold pollFrom
    split
    · split
      · simp
      · have := ih (k + 1) (q.set k ‹_›)
        simpa using this
    · simp

/-- What polling does, whole: the masks of the adapters before the first silent one, one answer of each of them
used, and every other answer left. -/
theorem pollFrom_spec (ads : List Adapter) (k : Nat) (q : Vector (List Word) 32) :
    (∀ j : Fin 32, k ≤ j.val → j.val < k + (pollFrom ads k q).1.length →
      ∃ (ad : Adapter) (m : Word), ads[j.val - k]? = some ad ∧ q[j] = m :: (pollFrom ads k q).2[j] ∧
        (pollFrom ads k q).1[j.val - k]? = some (nativeMask ad m)) ∧
    (∀ j : Fin 32, j.val < k ∨ k + (pollFrom ads k q).1.length ≤ j.val → (pollFrom ads k q).2[j] = q[j]) ∧
    (∀ j : Fin 32, j.val = k + (pollFrom ads k q).1.length → j.val < k + ads.length → q[j] = []) := by
  induction ads generalizing k q with
  | nil =>
    simp only [pollFrom, List.length_nil]
    exact ⟨fun j h1 h2 => by omega, fun _ _ => trivial, fun j h1 h2 => by omega⟩
  | cons ad ads ih =>
    by_cases hk : k < 32
    · cases hq : q[k] with
      | nil =>
        rw [pollFrom_wait hk hq]
        refine ⟨fun j h1 h2 => by simp at h2; omega, fun _ _ => rfl, fun j h1 _ => ?_⟩
        obtain rfl : j = ⟨k, hk⟩ := Fin.ext h1
        exact hq
      | cons m rest =>
        rw [pollFrom_take hk hq]
        obtain ⟨h1, h2, h3⟩ := ih (k + 1) (q.set k rest)
        have hset : ∀ j : Fin 32, k ≠ j.val → (q.set k rest)[j] = q[j] := fun j h => by simp [h]
        simp only [List.length_cons]
        refine ⟨fun j ha hb => ?_, fun j h => ?_, fun j ha hb => ?_⟩
        · by_cases hj : k = j.val
          · obtain rfl : j = ⟨k, hk⟩ := Fin.ext hj.symm
            refine ⟨ad, m, by simp, ?_, by simp⟩
            rw [h2 _ (.inl (Nat.lt_succ_self k))]
            simpa using hq
          · obtain ⟨ad', m', e1, e2, e3⟩ := h1 j (by omega) (by omega)
            rw [hset j hj] at e2
            refine ⟨ad', m', ?_, e2, ?_⟩ <;> rw [show j.val - k = (j.val - (k + 1)) + 1 by omega] <;> simpa
        · rw [h2 j (by omega), hset j (by omega)]
        · rw [← hset j (by omega)]
          exact h3 j (by omega) (by omega)
    · unfold pollFrom
      simp only [hk, dite_false, List.length_nil]
      exact ⟨fun j h1 h2 => by omega, fun _ _ => trivial, fun j h1 h2 => by omega⟩

/-- When every adapter has an answer ready, polling takes one of each, in order, and nothing else. -/
theorem pollFrom_ready (ads : List Adapter) (k : Nat) (q : Vector (List Word) 32) (ms : List Word)
    (hlen : ms.length = ads.length) (hk : k + ms.length ≤ 32)
    (h : ∀ (j : Fin 32) (m : Word), k ≤ j.val → ms[j.val - k]? = some m → ∃ rest, q[j] = m :: rest) :
    (pollFrom ads k q).1 = List.zipWith nativeMask ads ms ∧
    ∀ j : Fin 32, (pollFrom ads k q).2[j] = if k ≤ j.val ∧ j.val < k + ms.length then (q[j]).tail else q[j] := by
  induction ads generalizing k q ms with
  | nil =>
    have : ms = [] := by simpa using hlen
    subst this
    simp [pollFrom]
  | cons ad ads ih =>
    obtain ⟨m, ms, rfl⟩ : ∃ m ms', ms = m :: ms' := by
      cases ms with
      | nil => simp at hlen
      | cons m ms => exact ⟨m, ms, rfl⟩
    simp only [List.length_cons] at hlen hk
    have hk32 : k < 32 := by omega
    obtain ⟨rest, hq⟩ := h ⟨k, hk32⟩ m (Nat.le_refl _) (by simp)
    have hq' : q[k] = m :: rest := hq
    rw [pollFrom_take hk32 hq']
    obtain ⟨h1, h2⟩ := ih (k + 1) (q.set k rest) ms (by omega) (by omega) (by
      intro j m' hj hm
      obtain ⟨r, hr⟩ := h j m' (by omega) (by
        rw [show j.val - k = (j.val - (k + 1)) + 1 by omega]; simpa using hm)
      exact ⟨r, by simpa [Vector.getElem_set, show k ≠ j.val by omega] using hr⟩)
    refine ⟨by simp [h1], fun j => ?_⟩
    simp only [h2, List.length_cons]
    by_cases hjk : k = j.val
    · have : j = ⟨k, hk32⟩ := Fin.ext hjk.symm
      subst this
      simp [hq']
    · have hset : (q.set k rest)[j] = q[j] := by simp [hjk]
      rw [hset]
      by_cases h1 : k + 1 ≤ j.val ∧ j.val < k + 1 + ms.length
      · rw [if_pos h1, if_pos (by omega)]
      · rw [if_neg h1, if_neg (by omega)]

end Sys2Proof.Machine
end

