-- ==== Sys2Proof/Laws/Render.lean ====
section
/-! SUPPORT. What each layer of a rendering TICK draws, mode by mode, and which fields each stage settles
(spec/43_compositor_render.md R181 to R189). -/

namespace Sys2Proof.Machine

variable {cfg : Params} {e : Nat} {c : UnitC}

/-! ### The idle layer, mode by mode -/

theorem idleLayer_off (h : c.imode = 0) : idleLayer cfg e c = { c with idleL := perSegment fun _ => Color.black } := by
  simp [idleLayer, idleModeOf, h]

theorem idleLayer_static (h : c.imode = 1) :
    idleLayer cfg e c = { c with idleL := perSegment fun _ => effectiveIdleColor c } := by
  simp [idleLayer, idleModeOf, h]

theorem idleLayer_pulse (h : c.imode = 2) : idleLayer cfg e c = pulseLayer cfg e c := by
  simp [idleLayer, idleModeOf, h]

theorem idleLayer_rainbowStatic (h : c.imode = 3) : idleLayer cfg e c = rainbowStaticLayer cfg c := by
  simp [idleLayer, idleModeOf, h]

theorem idleLayer_rainbowCycle (h : c.imode = 4) : idleLayer cfg e c = rainbowCycleLayer cfg e c := by
  simp [idleLayer, idleModeOf, h]

/-! ### The touched layer, mode by mode -/

theorem touchedLayer_off (h : c.tmode = 0) :
    touchedLayer cfg e c = { c with touchL := perSegment fun _ => Color.black } := by
  simp [touchedLayer, touchedModeOf, h]

theorem touchedLayer_idle (h : c.tmode = 1) :
    touchedLayer cfg e c = { c with touchL := perSegment fun i => c.idleL[i] } := by
  simp [touchedLayer, touchedModeOf, h]

theorem touchedLayer_touched (h : c.tmode = 2) :
    touchedLayer cfg e c =
      { c with touchL := perSegment fun i => if touchedAt c i then c.tcol else Color.black } := by
  simp [touchedLayer, touchedModeOf, h]

theorem touchedLayer_fade (h : c.tmode = 3) :
    touchedLayer cfg e c = fadeLayer cfg e (fun _ _ => Color.black) c := by
  simp [touchedLayer, touchedModeOf, h]

theorem touchedLayer_fadeIdle (h : c.tmode = 4) :
    touchedLayer cfg e c = fadeLayer cfg e (fun c i => c.idleL[i]) c := by
  simp [touchedLayer, touchedModeOf, h]

/-! ### Which stage settles which field

The stages write disjoint fields, so each field of the result is the one its own stage writes. -/

theorem renderLayers_blend : (renderLayers cfg e c).blend = (blendUpdate cfg e c).blend := by
  unfold renderLayers
  obtain ⟨_, _, _, _, ht, _⟩ := touchedLayer_frame cfg e (idleLayer cfg e (blendUpdate cfg e c))
  obtain ⟨_, _, _, _, _, _, hi, _⟩ := idleLayer_frame cfg e (blendUpdate cfg e c)
  rw [ht, hi]

theorem renderLayers_accB : (renderLayers cfg e c).accB = (blendUpdate cfg e c).accB := by
  unfold renderLayers
  obtain ⟨_, _, _, _, ht, _⟩ := touchedLayer_frame cfg e (idleLayer cfg e (blendUpdate cfg e c))
  obtain ⟨_, _, _, _, _, _, hi, _⟩ := idleLayer_frame cfg e (blendUpdate cfg e c)
  rw [ht, hi]

/-- The idle layer's fields after a rendering TICK are those its own stage writes. -/
theorem renderLayers_idle :
    (renderLayers cfg e c).idleL = (idleLayer cfg e (blendUpdate cfg e c)).idleL ∧
    (renderLayers cfg e c).pulseP = (idleLayer cfg e (blendUpdate cfg e c)).pulseP ∧
    (renderLayers cfg e c).pulseDir = (idleLayer cfg e (blendUpdate cfg e c)).pulseDir ∧
    (renderLayers cfg e c).phase = (idleLayer cfg e (blendUpdate cfg e c)).phase ∧
    (renderLayers cfg e c).accP = (idleLayer cfg e (blendUpdate cfg e c)).accP ∧
    (renderLayers cfg e c).accR = (idleLayer cfg e (blendUpdate cfg e c)).accR := by
  unfold renderLayers
  obtain ⟨_, _, _, _, ht, _⟩ := touchedLayer_frame cfg e (idleLayer cfg e (blendUpdate cfg e c))
  rw [ht]
  simp

/-- What the touched layer reads is as before the TICK's layers, but for this TICK's idle layer. -/
theorem idleStage_keeps :
    (idleLayer cfg e (blendUpdate cfg e c)).touch = c.touch ∧
    (idleLayer cfg e (blendUpdate cfg e c)).tmode = c.tmode ∧
    (idleLayer cfg e (blendUpdate cfg e c)).tcol = c.tcol ∧
    (idleLayer cfg e (blendUpdate cfg e c)).spd = c.spd ∧
    (idleLayer cfg e (blendUpdate cfg e c)).accF = c.accF ∧
    (idleLayer cfg e (blendUpdate cfg e c)).fadeF = c.fadeF ∧
    (idleLayer cfg e (blendUpdate cfg e c)).fadeC = c.fadeC ∧
    (idleLayer cfg e (blendUpdate cfg e c)).touchL = c.touchL ∧
    (idleLayer cfg e (blendUpdate cfg e c)).bri = c.bri := by
  obtain ⟨_, _, _, _, _, _, hi, _⟩ := idleLayer_frame cfg e (blendUpdate cfg e c)
  rw [hi]
  simp [blendUpdate, advance_unit, setAcc]

/-- A TICK that renders, on port C: what it leaves, whole. -/
theorem exec_tick_render {s : State} {u : BitVec 24} (h : s.port = .c) (hr : s.c.rawen = false) :
    exec (.tick u) s = .next { takeTouch s with
      c := renderLayers s.cfg u.toNat (takeTouch s).c
      io := { s.io with
        frames := s.io.frames ++ [frameOf s.cfg.lps (finalColors (renderLayers s.cfg u.toNat (takeTouch s).c)).toList] } } := by
  rw [exec_of_legal (by rw [h]; rfl), effectOf, tickEffect_render hr, renderFrame, takeTouch_eq]
  rfl

end Sys2Proof.Machine
end

