-- ==== Sys2Proof/Laws/Step.lean ====
section
/-! SUPPORT. What one step, one turn of a unit and one command can do, said once. -/

namespace Sys2Proof.Machine

/-- What no command's own effect touches: the parameters, the port, the host's side, both parsers, both
error bits. -/
theorem effectOf_frame (i : Instr) (s : State) :
    (effectOf i s).cfg = s.cfg ∧ (effectOf i s).port = s.port ∧ (effectOf i s).io.events = s.io.events ∧
    (effectOf i s).io.cmdA = s.io.cmdA ∧ (effectOf i s).io.cmdC = s.io.cmdC ∧
    (effectOf i s).io.timeMs = s.io.timeMs ∧ (effectOf i s).a.parser = s.a.parser ∧
    (effectOf i s).c.parser = s.c.parser ∧ (effectOf i s).a.err = s.a.err ∧ (effectOf i s).c.err = s.c.err := by
  cases i <;> simp only [effectOf]
  case read x =>
    cases h : s.port
    · rw [readEffect_a h]; refine ⟨rfl, h.symm ▸ h, ?_⟩; simp
    · rw [readEffect_c h]; simp [h]
  case fuse => obtain ⟨_, _, _, _, _, h⟩ := fuseEffect_frame s; rw [h]; simp
  case resolve => unfold resolveEffect; obtain ⟨_, _, _, h⟩ := resolveBitmap_frame s.cfg s.a.bitmap s.a; rw [h]; simp
  case resolvei x => unfold resolveiEffect; obtain ⟨_, _, _, h⟩ := resolveBitmap_frame s.cfg x s.a; rw [h]; simp
  case raw d => rcases rawEffect_frame d s with h | ⟨px, h⟩ <;> rw [h] <;> simp
  case tick e =>
    cases h : s.c.rawen
    · rw [tickEffect_render h, renderFrame]
      obtain ⟨_, _, _, _, _, _, _, _, _, _, _, _, hr, _⟩ :=
        renderLayers_frame (takeTouch s).cfg e.toNat (takeTouch s).c
      rw [hr, takeTouch_eq]; simp [emitFrame]
    · rw [tickEffect_raw h, takeTouch_eq]; simp
  all_goals
    simp [nopEffect, brevEffect, pubtEffect, setgmodeEffect, setbriEffect, setspdEffect, setimodeEffect,
      settmodeEffect, seticolEffect, settcolEffect, setupcEffect, setrawEffect, settouchEffect, setpcEffect,
      clrpcEffect]
  all_goals (try split) <;> simp

/-- What a step can do. -/
theorem step_cases {s t : State} (h : step s = .next t) :
    (s.io.events = [] ∧ t = s) ∨
    ∃ ev es, s.io.events = ev :: es ∧ handleEvent ev { s with io := { s.io with events := es } } = .next t := by
  unfold step at h
  split at h
  · exact .inl ⟨‹_›, by simpa using h.symm⟩
  · exact .inr ⟨_, _, ‹_›, h⟩

/-- What taking effect can do: run a decoded instruction, or BadCmd. -/
theorem takeEffect_cases {p : Port} {cmd : Command} {s t : State} (h : takeEffect p cmd s = .next t) :
    (∃ i, decodeCommand cmd.word cmd.data = .ok i ∧ exec i { s with port := p } = .next t) ∨
    t = badCmd { s with port := p } := by
  unfold takeEffect at h
  split at h
  · exact .inl ⟨_, ‹_›, h⟩
  · exact .inr (by simpa using h.symm)
  · exact .inr (by simpa using h.symm)
  · simp at h
  · simp at h

/-- A reserved bit makes a command with its ND data words bad, whatever they are (30_encoding.md R87). -/
theorem takeEffect_reserved {p : Port} {cmd : Command} {s : State} {o : Opcode}
    (ho : opcodeOfBits (opcodeField cmd.word) = some o) (hn : cmd.data.length = o.nd)
    (hr : reservedClear o.format cmd.word = false) : takeEffect p cmd s = .next (badCmd { s with port := p }) := by
  have hd : decodeCommand cmd.word cmd.data = .error .reservedBits := by simp [decodeCommand, ho, hn, hr]
  simp only [takeEffect, hd]

/-- What a turn of a unit can do: its FUSE goes on, nothing is there to take, a word is kept for later, or
a command takes effect. -/
theorem unitTurn_cases {p : Port} {s t : State} (h : unitTurn p s = .next t) :
    (∃ fw, heldBy s p = some fw ∧ t = fuseContinue fw s) ∨
    (heldBy s p = none ∧ pending s p = [] ∧ t = s) ∨
    (∃ w rest, heldBy s p = none ∧ pending s p = w :: rest ∧ (acceptWord (parserOf s p) w).2 = none ∧
      t = setParser (setPending s p rest) p (acceptWord (parserOf s p) w).1) ∨
    (∃ w rest cmd, heldBy s p = none ∧ pending s p = w :: rest ∧ (acceptWord (parserOf s p) w).2 = some cmd ∧
      takeEffect p cmd (setParser (setPending s p rest) p (acceptWord (parserOf s p) w).1) = .next t) := by
  unfold unitTurn at h
  split at h
  · exact .inl ⟨_, ‹_›, by simpa using h.symm⟩
  · split at h
    · exact .inr (.inl ⟨‹_›, ‹_›, by simpa using h.symm⟩)
    · rename_i hh _ w rest hp
      have hq : parserOf (setPending s p rest) p = parserOf s p := by cases p <;> rfl
      unfold takeWord at h
      rw [hq] at h
      split at h
      · exact .inr (.inr (.inl ⟨w, rest, hh, hp, ‹_›, by simpa using h.symm⟩))
      · exact .inr (.inr (.inr ⟨w, rest, _, hh, hp, ‹_›, h⟩))

/-- A command's word count is right whenever its parser state is one a run can reach, so a word is kept
or completes a command of exactly ND data words. -/
theorem acceptWord_spec {q : Parser} (h : ParserOk q) (w : Word) :
    ParserOk (acceptWord q w).1 ∧
    ∀ cmd, (acceptWord q w).2 = some cmd → (acceptWord q w).1 = .idle ∧
      cmd.data.length = ndOf (opcodeField cmd.word) := by
  cases q with
  | idle =>
    unfold acceptWord
    by_cases h0 : ndOf (opcodeField w) = 0
    · simp only [h0, if_true]
      exact ⟨trivial, fun cmd hc => ⟨trivial, by cases hc; exact h0.symm⟩⟩
    · simp only [h0, if_false]
      exact ⟨⟨by omega, by simp⟩, fun cmd hc => by simp at hc⟩
  | collect cw k buf =>
    obtain ⟨h1, h2⟩ := h
    unfold acceptWord
    by_cases hk : 1 < k
    · simp only [hk, if_true]
      exact ⟨⟨by omega, by simp; omega⟩, fun cmd hc => by simp at hc⟩
    · simp only [hk, if_false]
      exact ⟨trivial, fun cmd hc => ⟨trivial, by cases hc; simp; omega⟩⟩

/-- With ND data words, taking effect never stops. -/
theorem takeEffect_next {p : Port} {cmd : Command} (h : cmd.data.length = ndOf (opcodeField cmd.word)) (s : State) :
    ∃ t, takeEffect p cmd s = .next t := by
  have key : ∀ e, decodeCommand cmd.word cmd.data = .error e → e = .undefinedOpcode ∨ e = .reservedBits := by
    intro e he
    unfold decodeCommand at he
    unfold ndOf at h
    cases ho : opcodeOfBits (opcodeField cmd.word) with
    | none => simp [ho] at he; exact .inl he.symm
    | some o =>
      simp only [ho] at he h
      rw [if_neg (by simpa using h)] at he
      split at he
      · cases o <;> simp only [buildInstr, reduceCtorEq, Opcode.nd] at he h
        all_goals
          obtain ⟨d, hd⟩ := List.length_eq_one_iff.mp h
          simp [withDataWord, hd] at he
      · exact .inr (by simpa using he.symm)
  unfold takeEffect
  cases hd : decodeCommand cmd.word cmd.data with
  | ok i => exact ⟨_, exec_eq i _⟩
  | error e => rcases key e hd with rfl | rfl <;> exact ⟨_, rfl⟩

end Sys2Proof.Machine
end

