-- ==== Sys2Proof/Tests/Slice0.lean ====
section
/-! SUPPORT. Tests: expected results are the vectors of spec/95_test_vectors.md (V-… and W…) or the examples
of the commands' own rules, never the model's answers. After them, for each statement that has hypotheses, a
witness that meets them. -/

namespace Sys2Proof.Tests

open Sys2Proof.Machine

set_option maxRecDepth 8000

/-! ### Well-formedness smoke -/

theorem test_wf_raw_needs_32_words :
    Instr.wf (.raw (List.replicate 31 0)) = false ∧ Instr.wf (.raw (List.replicate 33 0)) = false ∧
    Instr.wf (.raw []) = false ∧ Instr.wf (.raw (List.replicate 32 0)) = true := by decide

theorem test_decode_refuses_short_raw :
    decode (encode (.raw (List.replicate 31 0))) = .error .truncated := by decide

/-! ### Decoding: every row, by a word written from 30_encoding.md R82 to R85 -/

theorem test_decode_nop : decode [0x00000000] = .ok (.nop, []) := by decide
theorem test_decode_read : decode [0x01000001] = .ok (.read 1, []) := by decide
theorem test_decode_fuse : decode [0x10000000] = .ok (.fuse, []) := by decide
theorem test_decode_brev : decode [0x1100000B, 0x00000ABC] = .ok (.brev 11 0xABC, []) := by decide
theorem test_decode_pubt : decode [0x12000000] = .ok (.pubt, []) := by decide
theorem test_decode_setgmode : decode [0x20000001] = .ok (.setgmode 1, []) := by decide
theorem test_decode_resolve : decode [0x21000000] = .ok (.resolve, []) := by decide
theorem test_decode_resolvei : decode [0x22000000, 0x38000000] = .ok (.resolvei 0x38000000, []) := by decide
theorem test_decode_setbri : decode [0x3000012C] = .ok (.setbri 300, []) := by decide
theorem test_decode_setspd : decode [0x31000007] = .ok (.setspd 7, []) := by decide
theorem test_decode_setimode : decode [0x32000002] = .ok (.setimode 2, []) := by decide
theorem test_decode_settmode : decode [0x33000002] = .ok (.settmode 2, []) := by decide
theorem test_decode_seticol : decode [0x34C86432] = .ok (.seticol ⟨200, 100, 50⟩, []) := by decide
theorem test_decode_settcol : decode [0x3500FF00] = .ok (.settcol ⟨0, 255, 0⟩, []) := by decide
theorem test_decode_setupc : decode [0x36000001] = .ok (.setupc true, []) := by decide
theorem test_decode_setraw : decode [0x37000001] = .ok (.setraw true, []) := by decide
theorem test_decode_settouch : decode [0x38000000, 0x00000010] = .ok (.settouch 0x10, []) := by decide
theorem test_decode_setpc : decode [0x390000FF] = .ok (.setpc ⟨0, 0, 255⟩, []) := by decide
theorem test_decode_clrpc : decode [0x3A000000] = .ok (.clrpc, []) := by decide
theorem test_decode_tick : decode [0x3B000032] = .ok (.tick 50, []) := by decide
theorem test_decode_raw :
    decode (0x3C000000 :: List.replicate 32 0xAAFF8000) = .ok (.raw (List.replicate 32 0xAAFF8000), []) := by decide

/-- V-E2, V-E3, V-E7, V-K13, V-G4 (reserved bits) and V-E4, V-E10, V-E11 (undefined opcodes). -/
theorem test_decode_refuses :
    decode [0x00000001] = .error .reservedBits ∧ decode [0x01000100] = .error .reservedBits ∧
    decode [0x11000020, 1] = .error .reservedBits ∧ decode [0x36000002] = .error .reservedBits ∧
    decode [0x20000100] = .error .reservedBits ∧ decode [0x02000000] = .error .undefinedOpcode ∧
    decode [0xFF000000] = .error .undefinedOpcode ∧ decode [0x3D000000] = .error .undefinedOpcode := by decide

/-- Every row is found under its own opcode, and no two rows share one (30_encoding.md R85). -/
theorem test_opcodes_distinct :
    allOpcodes.Pairwise (fun a b => a.bits ≠ b.bits) ∧ allOpcodes.all (fun o => opcodeOfBits o.bits == some o) := by
  decide

/-! ### Helpers -/

/-- The reset state of a block built as EX-A (95_test_vectors.md, conventions), on port A. -/
def base : State := State.resetWith Config.exA

/-- The same, serving port C. -/
def baseC : State := { base with port := .c }

/-- EX-A with one threshold everywhere. -/
def exAThr (t : Word) : Params :=
  { Config.exA with
    thr := { pulse := Vector.replicate 256 t, rainbow := Vector.replicate 256 t,
             fade := Vector.replicate 256 t, blend := Vector.replicate 256 t } }

/-- The state after a command. -/
def after (i : Instr) (s : State) : State :=
  match exec i s with
  | .next t => t
  | _ => s

theorem exec_after (i : Instr) (s : State) : exec i s = .next (after i s) := by
  unfold after
  rw [exec_eq]

/-- Adapters with these answers ready, adapter 0 first, and a time. -/
def sensing (s : State) (t : Word) (ms : List Word) : State :=
  { s with io := { s.io with timeMs := t, sense := perSegment fun a => ms[a.val]?.toList } }

/-- `s` with registers of unit C replaced. -/
def withC (s : State) (f : UnitC → UnitC) : State := { s with c := f s.c, port := .c }

/-- The first pixels of the newest frame. -/
def pixels (n : Nat) (s : State) : List (BitVec 24) := (s.io.frames.getLastD []).take n

/-- Words ready on a port, with a turn of its unit for each. -/
def ready (p : Port) (ws : List Word) : State :=
  setPending { base with io := { base.io with events := List.replicate ws.length (.unit p) } } p ws

theorem ready_for (p : Port) (ws : List Word) : ReadyFor (ready p ws) p ws [] [] := by
  cases p <;> simp [ReadyFor, ready, setPending, pending, heldBy, parserOf, base, State.resetWith, UnitA.reset, UnitC.reset]

/-- The state after a step. -/
def stepped (s : State) : State :=
  match step s with
  | .next t => t
  | _ => s

/-! ### The aggregator -/

/-- V-B1, V-B3 to V-B9, V-B12. -/
theorem test_bitrev :
    bitrev 8 0x01 = 0x80 ∧ bitrev 12 0xABC = 0x3D5 ∧ bitrev 16 0x1234 = 0x2C48 ∧ bitrev 32 1 = 0x80000000 ∧
    bitrev 1 1 = 1 ∧ bitrev 4 0xFFF1 = 8 ∧ bitrev 32 0x12345678 = 0x1E6A2C48 ∧ bitrev 5 6 = 0x0C ∧
    bitrev 16 0x8001 = 0x8001 := by decide

/-- V-B3. -/
theorem test_brev : (after (.brev 11 0xABC) base).a.bres = 0x3D5 := by decide

/-- V-B14. -/
theorem test_brev_on_port_c : (after (.brev 11 0xABC) baseC).c.err = true ∧ (after (.brev 11 0xABC) baseC).a.bres = 0 := by
  decide

/-- V-F1, V-F4, V-F5. -/
theorem test_fuse :
    (after .fuse (sensing base 5 [0x001, 0xFFF, 0x80])).a.bitmap = 0x80FFF800 ∧
    (after .fuse (sensing base 5 [0x801, 0x003, 0x01])).a.bitmap = 0x01C00801 ∧
    (after .fuse (sensing base 5 [0xF001, 0x000, 0x1FF])).a.bitmap = 0xFF000800 ∧
    (after .fuse (sensing base 5 [0x001, 0xFFF, 0x80])).a.lastMs = 5 ∧
    (after .fuse (sensing base 5 [0x001, 0xFFF, 0x80])).a.valid = true := by decide

/-- V-F1 and V-F4 with REVERSE = 1. -/
theorem test_fuse_reversed :
    (after .fuse (sensing { base with cfg := { Config.exA with reverse := true } } 5 [0x001, 0xFFF, 0x80])).a.bitmap
      = 0x001FFF01 ∧
    (after .fuse (sensing { base with cfg := { Config.exA with reverse := true } } 5 [0x801, 0x003, 0x01])).a.bitmap
      = 0x80100380 := by decide

/-- V-F9, V-F10, V-F11: overlap, a reversed sub-slice, bits above 31. -/
theorem test_contrib :
    fuseMasks [{ len := 8 }, { len := 8, dstLo := 4 }] [0x0F, 0xF0] = 0xF0F ∧
    fuseMasks [{ len := 8 }, { len := 8, dstLo := 4 }] [0xFF, 0xFF] = 0xFFF ∧
    contrib { kind := .k16, srcLo := 4, len := 8, rev := true } 0x0FF0 = 0xFF ∧
    contrib { kind := .k16, srcLo := 4, len := 8, rev := true } 0x0010 = 0x80 ∧
    contrib { kind := .k16, srcLo := 4, len := 8, rev := true } 0xF00F = 0 ∧
    contrib { kind := .k16, len := 16, dstLo := 24 } 0xFFFF = 0xFF000000 ∧
    contrib { kind := .k16, len := 16, dstLo := 24 } 0x0101 = 0x01000000 := by decide

/-- V-T1 to V-T6. -/
theorem test_due :
    due Config.exA { base.a with valid := false } 0 = true ∧
    due Config.exA { base.a with valid := true, lastMs := 5 } 5 = false ∧
    due Config.exA { base.a with valid := true, lastMs := 5 } 6 = true ∧
    due Config.exA { base.a with valid := true, lastMs := 0xFFFFFFFF } 0 = true ∧
    due Config.exA { base.a with valid := true, lastMs := 0 } 0 = false ∧
    due Config.exA { base.a with valid := true, lastMs := 100 } 0xFFFFFFFF = true := by decide

/-- R110 and 60_exceptions.md R256: with adapter 2 silent FUSE waits and no register changes. -/
theorem test_fuse_waits :
    (after .fuse (sensing base 5 [0x001, 0xFFF])).a = { base.a with fuseWait := some ⟨5, [0x001, 0xFFF]⟩ } := by decide

/-- R112's example. -/
theorem test_pubt :
    (after .pubt { base with a := { base.a with bitmap := 0xFFFF }, mbox := ⟨1, true⟩ }).mbox = ⟨0xFFFF, true⟩ := by decide

/-! ### The resolver -/

/-- V-A1, V-A3, V-A6. -/
theorem test_arcade :
    (after (.resolvei 0x000000FF) base).a.axes = ⟨0x7F, 0x80, 0x80, 0x80⟩ ∧
    (after (.resolvei 0x12345678) base).a.axes = ⟨0xF8, 0xD6, 0xB4, 0x92⟩ ∧
    (after (.resolvei 0x80FFF800) base).a.axes = ⟨0x80, 0x78, 0x7F, 0x00⟩ := by decide

/-- The example of R136. -/
theorem test_resolve :
    (after .resolve { base with a := { base.a with bitmap := 0xFF } }).a.axes = ⟨0x7F, 0x80, 0x80, 0x80⟩ := by decide

/-- The track after each half in turn. -/
def tracks (rule : StickRule) (hs : List (BitVec 16)) : Track := hs.foldl (trackUpdate { Config.exA with stickRule := rule }) ⟨0, 15, 0x80⟩

/-- V-R1, V-R2, V-R3, V-R5, V-R7, V-R11. -/
theorem test_track :
    tracks .either [0x0001] = ⟨0, 0, 0xFF⟩ ∧ tracks .leftStrict [0x0001] = ⟨0, 0, 0x80⟩ ∧
    tracks .rightStrict [0x8000] = ⟨15, 15, 0x80⟩ ∧ tracks .leftStrict [0x8000] = ⟨15, 15, 0x00⟩ ∧
    tracks .either [0xFFFF] = ⟨15, 0, 0x80⟩ ∧ tracks .either [0x0002, 0x0007] = ⟨2, 0, 0x80⟩ ∧
    tracks .either [0x0180, 0x0300, 0x0600, 0x0C00, 0x0600] = ⟨10, 9, 0xFF⟩ ∧
    tracks .rightStrict [0x8000, 0x8000, 0x4000] = ⟨14, 14, 0xFF⟩ := by decide

/-- V-R12 to V-R16, where the rules differ. -/
theorem test_track_rules :
    tracks .either [0x000E, 0x000C] = ⟨3, 2, 0x00⟩ ∧ tracks .leftStrict [0x000E, 0x000C] = ⟨3, 2, 0x80⟩ ∧
    tracks .rightStrict [0x000E, 0x000C] = ⟨3, 2, 0x00⟩ ∧ tracks .either [0x000E, 0x0006] = ⟨2, 1, 0xFF⟩ ∧
    tracks .rightStrict [0x000E, 0x0006] = ⟨2, 1, 0x80⟩ ∧ tracks .rightStrict [0xFFFF, 0x0001] = ⟨0, 0, 0x80⟩ ∧
    tracks .rightStrict [0x0100, 0x0300] = ⟨9, 8, 0x80⟩ ∧ tracks .rightStrict [0x0003, 0x0001] = ⟨0, 0, 0x80⟩ := by
  decide

/-- V-R18, V-R19. -/
theorem test_resolvei_stick :
    (after (.resolvei 0x80000001) { base with a := { base.a with gmode := 1 } }).a.axes = ⟨0x00, 0x80, 0xFF, 0x80⟩ ∧
    (after (.resolvei 0xFFFFFFFF) { base with a := { base.a with gmode := 2 } }).a = { base.a with gmode := 2 } := by
  decide

/-- R133 and R134 for a block built with another CENTER: with no touch both axes and both Y fields are CENTER. -/
theorem test_stick_center :
    let s := { base with cfg := { Config.exA with center := 0x70 }, a := { base.a with gmode := 1 } }
    (after (.resolvei 0) s).a.axes = ⟨0x70, 0x70, 0x70, 0x70⟩ ∧
    (after (.resolvei 0x80000001) s).a.axes = ⟨0x00, 0x70, 0xFF, 0x70⟩ := by decide

/-- V-G1, V-G2, V-G3. -/
theorem test_setgmode :
    let s := { base with a := { base.a with trkL := ⟨7, 4, 0⟩ } }
    let s1 := { base with a := { base.a with trkL := ⟨7, 4, 0⟩, gmode := 1 } }
    (after (.setgmode 1) s).a = { s.a with gmode := 1, trkL := ⟨0, 15, 0x80⟩ } ∧
    (after (.setgmode 1) s1).a = s1.a ∧
    (after (.setgmode 5) s1).a = { s1.a with gmode := 5, trkL := ⟨0, 15, 0x80⟩ } := by decide

/-! ### Compositor configuration -/

/-- V-K1, V-K3. -/
theorem test_setbri : (after (.setbri 300) baseC).c.bri = 255 ∧ (after (.setbri 128) baseC).c.bri = 128 := by decide

/-- V-K4 and R153's example. -/
theorem test_setspd : (after (.setspd 256) baseC).c.spd = 255 ∧ (after (.setspd 7) baseC).c.spd = 7 := by decide

/-- V-K5, V-K6. -/
theorem test_setimode :
    let s := withC base fun c => { c with imode := 1, pulseP := 57, pulseDir := true, phase := 3, accP := 1, accR := 1 }
    (after (.setimode 2) s).c =
      { s.c with imode := 2, pulseP := 100, pulseDir := false, phase := 0, accP := 0, accR := 0 } ∧
    (after (.setimode 1) s).c = s.c := by decide

/-- V-K8, V-K9. -/
theorem test_settmode :
    let s := withC base fun c => { c with tmode := 3, fadeF := c.fadeF.set 4 60, accF := 1 }
    (after (.settmode 2) s).c.fadeF[4] = 0 ∧ (after (.settmode 2) s).c.accF = 0 ∧
    (after (.settmode 3) s).c.fadeF[4] = 60 := by decide

/-- V-K10 to V-K12, V-K14, V-K15. -/
theorem test_setters :
    (after (.seticol ⟨200, 100, 50⟩) baseC).c.icol = ⟨200, 100, 50⟩ ∧
    (after (.settcol ⟨0, 255, 0⟩) baseC).c.tcol = ⟨0, 255, 0⟩ ∧ (after (.setupc true) baseC).c.upc = true ∧
    (after (.setraw true) baseC).c.rawen = true ∧ (after (.settouch 0x10) baseC).c.touch = 0x10 := by decide

/-- V-K16, V-K17. -/
theorem test_player_color :
    (after (.setpc ⟨0, 0, 0⟩) baseC).c.pcp = true ∧
    (after .clrpc (withC base fun c => { c with pcp := true, pcol := ⟨1, 2, 3⟩ })).c.pcp = false ∧
    (after .clrpc (withC base fun c => { c with pcp := true, pcol := ⟨1, 2, 3⟩ })).c.pcol = ⟨0, 0, 0⟩ := by decide

/-! ### Rendering -/

/-- V-S1, V-S4, V-S6. -/
theorem test_stepper :
    (advance (exAThr 3) .fade 2 { baseC.c with accF := 2 }).1 = 1 ∧
    (advance (exAThr 3) .fade 2 { baseC.c with accF := 2 }).2.accF = 1 ∧
    (advance (exAThr 0) .blend 7 baseC.c).1 = 7 ∧
    (advance (exAThr 0xFFFFFFFF) .pulse 2 { baseC.c with accP := 0xFFFFFFFE }).1 = 1 ∧
    (advance (exAThr 0xFFFFFFFF) .pulse 2 { baseC.c with accP := 0xFFFFFFFE }).2.accP = 1 := by decide

/-- V-P3 to V-P6, V-P8, V-P9. -/
theorem test_pulse :
    pulseSteps Config.exA 59 (100, false) = (41, false) ∧ pulseSteps Config.exA 60 (100, false) = (40, true) ∧
    pulseSteps Config.exA 61 (100, false) = (41, true) ∧ pulseSteps Config.exA 120 (100, false) = (100, false) ∧
    pulseSteps Config.exA (pulseReduced Config.exA 180) (100, false) = (40, true) ∧
    pulseSteps { Config.exA with pulseMin := 50, pulseMax := 50, pulse_le := by decide, pulse_max_le := by decide } 3
      (50, false) = (50, true) := by decide

/-- V-M1, V-M3, V-M4, V-M5. -/
theorem test_mix :
    mix ⟨0, 0, 0⟩ ⟨255, 128, 1⟩ 99 = ⟨252, 126, 0⟩ ∧ mix ⟨0, 0, 0⟩ ⟨255, 128, 1⟩ 1 = ⟨2, 1, 0⟩ ∧
    mix ⟨0, 0, 200⟩ ⟨255, 0, 0⟩ 50 = ⟨127, 0, 100⟩ ∧ mix ⟨0, 0, 200⟩ ⟨255, 0, 0⟩ 25 = ⟨63, 0, 150⟩ := by decide

/-- V-C1, V-C2, V-C3. -/
theorem test_composite :
    brighten 255 (compositeColor 50 ⟨200, 100, 50⟩ ⟨0, 255, 0⟩) = ⟨100, 255, 25⟩ ∧
    brighten 128 (compositeColor 50 ⟨200, 100, 50⟩ ⟨0, 255, 0⟩) = ⟨50, 128, 12⟩ ∧
    brighten 1 ⟨255, 255, 255⟩ = ⟨1, 1, 1⟩ := by decide

/-- V-W1, V-W4, V-W5, V-W6, V-W7. -/
theorem test_rawnorm :
    rawnorm 128 ⟨255, 128, 0⟩ = ⟨128, 64, 0⟩ ∧ rawnorm 0 ⟨1, 0, 0⟩ = ⟨0, 0, 0⟩ ∧
    rawnorm 200 ⟨200, 200, 200⟩ = ⟨200, 200, 200⟩ ∧ rawnorm 200 ⟨201, 3, 100⟩ = ⟨200, 2, 99⟩ ∧
    rawnorm 60 ⟨90, 180, 45⟩ = ⟨30, 60, 15⟩ := by decide

/-- R200's example; with LPS = 2, V-C8. -/
theorem test_tick :
    let s := withC { base with cfg := { Config.exA with lps := 2, lps_pos := by decide } } fun c =>
      { c with imode := 1, icol := ⟨200, 100, 50⟩, tmode := 2, tcol := ⟨0, 255, 0⟩, bri := 255, touch := 1 }
    (after (.tick 50) s).c.blend = 50 ∧
    pixels 4 (after (.tick 50) s) = [0x64FF19, 0x64FF19, 0x643219, 0x643219] := by decide

/-- V-P11. -/
theorem test_tick_pulse :
    let s := withC base fun c => { c with imode := 2, icol := ⟨200, 100, 50⟩, bri := 255 }
    pixels 1 (after (.tick 60) s) = [0x502814] ∧ (after (.tick 60) s).c.pulseP = 40 ∧
    (after (.tick 60) s).c.pulseDir = true := by decide

/-- EX-A with the gradient of 95_test_vectors.md section 2.10 and RB_OFF[s] = s. -/
def exAGradient : Params :=
  { Config.exA with
    gradient := [⟨0xFF, 0, 0⟩, ⟨0, 0xFF, 0⟩, ⟨0, 0, 0xFF⟩, ⟨0xFF, 0xFF, 0xFF⟩], rbOff := perSegment fun i => i.val
    glen_pos := by decide, glen_le := by decide }

/-- V-N1. -/
theorem test_tick_rainbow_static :
    let s := withC { base with cfg := exAGradient } fun c => { c with imode := 3, bri := 255 }
    pixels 5 (after (.tick 5) s) = [0xFF0000, 0x00FF00, 0x0000FF, 0xFFFFFF, 0xFF0000] ∧
    (after (.tick 5) s).c.phase = 0 ∧ (after (.tick 5) s).c.accR = 0 := by decide

/-- V-N3. -/
theorem test_tick_rainbow_cycle :
    let s := withC { base with cfg := exAGradient } fun c => { c with imode := 4, bri := 255, phase := 3 }
    pixels 4 (after (.tick 2) s) = [0x00FF00, 0x0000FF, 0xFFFFFF, 0xFF0000] ∧ (after (.tick 2) s).c.phase = 1 := by decide

/-- V-M6: a touch on a fading segment. -/
theorem test_tick_fade_touched :
    let s := withC base fun c => { c with
      tmode := 3, fadeF := c.fadeF.set 2 3, fadeC := c.fadeC.set 2 ⟨0, 0, 255⟩, tcol := ⟨0, 255, 0⟩, touch := 4 }
    (after (.tick 9) s).c.fadeF[2] = 100 ∧ (after (.tick 9) s).c.fadeC[2] = ⟨0, 255, 0⟩ ∧
    (after (.tick 9) s).c.touchL[2] = ⟨0, 255, 0⟩ := by decide

/-- Program P4, frame 2: a released segment with threshold 10. -/
theorem test_tick_fade_released :
    let s := withC { base with cfg := exAThr 10 } fun c => { c with
      tmode := 3, fadeF := c.fadeF.set 4 100, fadeC := c.fadeC.set 4 ⟨255, 128, 0⟩, bri := 255, accF := 5, accB := 5 }
    (after (.tick 25) s).c.fadeF[4] = 97 ∧ (pixels 5 (after (.tick 25) s)) = [0, 0, 0, 0, 0xF77C00] := by decide

/-- V-M7: TouchedIdle, halfway down. -/
theorem test_tick_touched_idle :
    let s := withC base fun c => { c with
      imode := 1, icol := ⟨0, 0, 200⟩, tmode := 4, bri := 255, fadeF := c.fadeF.set 0 100, fadeC := c.fadeC.set 0 ⟨255, 0, 0⟩ }
    (after (.tick 50) s).c.touchL[0] = ⟨0x7F, 0, 0x64⟩ ∧ pixels 1 (after (.tick 50) s) = [0x7F00C8] := by decide

/-- V-C6: an unrecognized idle mode keeps the layer. -/
theorem test_tick_unrecognized :
    let s := withC base fun c => { c with
      imode := 7, icol := ⟨255, 255, 255⟩, bri := 255, idleL := Vector.replicate 32 ⟨0x10, 0x20, 0x30⟩ }
    pixels 1 (after (.tick 10) s) = [0x102030] := by decide

/-- V-W11 and V-X3: under raw override TICK takes the mailbox and emits nothing. -/
theorem test_tick_raw_override :
    let s := withC { base with mbox := ⟨7, true⟩ } fun c => { c with rawen := true, touch := 5 }
    (after (.tick 9) s).c = { s.c with touch := 7 } ∧ (after (.tick 9) s).mbox = ⟨7, false⟩ ∧
    (after (.tick 9) s).io.frames = [] := by decide

/-- R201's example and V-W9. -/
theorem test_raw :
    let s := withC base fun c => { c with bri := 128, rawen := true }
    pixels 32 (after (.raw (List.replicate 32 0xAAFF8000)) s) = List.replicate 32 0x804000 ∧
    (after (.raw (List.replicate 32 0x00FF8000)) baseC).io.frames = [] := by decide

/-! ### System -/

/-- V-D2, V-D3, V-D5, V-D6. -/
theorem test_read_a :
    (after (.read 1) base).io.respA = [0x80808080] ∧ (after (.read 2) base).io.respA = [0x00800F00] ∧
    (after (.read 7) base).io.respA = [0] ∧ (after (.read 255) base).io.respA = [0] := by decide

/-- V-D7, V-D8, V-D10; V-X4 and V-E5 for STATUS_C. -/
theorem test_read_c :
    (after (.read 9) baseC).io.respC = [0x64] ∧ (after (.read 10) baseC).io.respC = [0x64] ∧
    (after (.read 31) baseC).io.respC = [0] ∧ (after (.read 160) baseC).io.respC = [0] ∧
    (after (.read 16) { baseC with c := { baseC.c with err := true }, mbox := ⟨0, true⟩ }).io.respC = [6] := by decide

/-- R230's example; V-E6 (TICK on port A). -/
theorem test_nop_and_wrong_port :
    (after .nop base).a = base.a ∧ (after (.tick 0) base).a = { base.a with err := true } ∧
    (after (.tick 0) base).io.frames = [] := by decide

/-! ### Steps -/

/-- V-E12: the second word is RESOLVEI's data word, not a SETTOUCH. -/
theorem test_step_takes_data_word :
    let s := stepped (stepped (ready .a [0x22000000, 0x38000000]))
    s.a.parser = .idle ∧ s.a.axes = ⟨0x80, 0x80, 0x80, 0xB8⟩ ∧ s.a.err = false := by decide

/-- V-E8, its first step: a reserved bit does not change how many data words follow. -/
theorem test_step_collects_for_bad_raw :
    (stepped (ready .c (0x3C000001 :: List.replicate 32 0))).c.parser = .collect 0x3C000001 32 [] := by decide

/-- V-E4: an undefined opcode takes no data word and sets ERR_A. -/
theorem test_step_undefined :
    (stepped (ready .a [0x02000000, 0x10000000])).a = { base.a with err := true } := by decide

/-- The words of an opcode-table word run as the very next step (log 15). -/
theorem test_fetch_word :
    step (State.reset.withFetchWord 32 0x3B000005) = exec (.tick 5) { State.reset with port := .c } ∧
    step (State.reset.withFetchWord 32 0x11000005) = exec (.brev 5 0) { State.reset with port := .a } :=
  ⟨rfl, rfl⟩

/-- Reset drops a waiting FUSE and a half-collected command (70_reset_and_hazards.md R270). -/
theorem test_reset_event :
    let s := { base with
      a := { base.a with fuseWait := some ⟨5, []⟩, parser := .collect 0x11000000 1 [], bitmap := 9 }
      io := { base.io with events := [.reset] } }
    (stepped s).a = base.a := by decide

/-! ### The assembler -/

/-- 30_encoding.md R92, R93 and the listings of 95_test_vectors.md Part 3. -/
theorem test_assembler :
    assembleLine "SETICOL 0xC86432; comment" = some [0x34C86432] ∧
    assembleLine "BREV 12, 0xABC" = some [0x1100000B, 0x00000ABC] ∧
    assembleLine "RESTICK" = some [0x20000000, 0x20000001] ∧
    assembleLine "CLRTOUCH        ; 0x38000000, 0x00000000" = some [0x38000000, 0] ∧
    assembleLine ".word 0x10000000" = some [0x10000000] ∧ assembleLine "BREV 33, 1" = none ∧
    assembleLine "; port A" = some [] := by decide

/-! ### Witnesses: for each statement with hypotheses, concrete values that meet them all

`∃ t, … = .next t` stands for a hypothesis that a command or a step answers a next state. -/

/-- A state of unit A with something in every register. -/
def busy : State :=
  { base with
    a := { base.a with bitmap := 0x80008001, valid := true, lastMs := 5, gmode := 1, trkL := ⟨3, 1, 0x80⟩, bres := 9 } }

theorem inv_base : Inv base := by constructor <;> simp [base, State.resetWith, UnitA.reset, UnitC.reset, ParserOk, AxisOk,
  Track.default, Config.exA, Params.glen, Color.black]

theorem witness_DecodeOfEncodeIsTheInstruction :
    Instr.wf (.raw (List.replicate 32 0xFF000001)) = true ∧ Instr.wf (.brev 31 0xFFFFFFFF) = true := by decide

theorem witness_EncodeOfDecodeIsTheWords : decode [0x11000000, 7, 9] = .ok (.brev 0 7, [9]) := by decide

/-- One word for each format with a reserved bit, its lowest one and its highest one. -/
theorem witness_ReservedBitPerformsOnlyBadCmd :
    (ReservedBitSet 0x3C000001 ∧ ReservedBitSet 0x00800000 ∧ ReservedBitSet 0x01000100 ∧ ReservedBitSet 0x33800000 ∧
      ReservedBitSet 0x36000002 ∧ ReservedBitSet 0x37800000 ∧ ReservedBitSet 0x11000020 ∧ ReservedBitSet 0x11800000) ∧
    (List.replicate 32 (5 : Word)).length = dataWordsDue ((0x3C000001 : Word).extractLsb' 24 8) ∧
    ReadyFor (ready .c (0x3C000001 :: List.replicate 32 5)) .c (0x3C000001 :: List.replicate 32 5) [] [] :=
  ⟨by simp [ReservedBitSet], by decide, ready_for _ _⟩

theorem witness_UndefinedOpcodePerformsOnlyBadCmd :
    (∀ w ∈ ([0x02000000, 0x0F000000, 0x13000000, 0x1F000000, 0x23000000, 0x2F000000, 0x3D000000, 0xFF000000] : List Word),
      let op := (w.extractLsb' 24 8).toNat
      (0x02 ≤ op ∧ op ≤ 0x0F) ∨ (0x13 ≤ op ∧ op ≤ 0x1F) ∨ (0x23 ≤ op ∧ op ≤ 0x2F) ∨ 0x3D ≤ op) ∧
    ReadyFor (ready .a [0xFF000000]) .a [0xFF000000] [] [] := ⟨by simp, ready_for _ _⟩

theorem witness_WrongPortPerformsOnlyBadCmd :
    (∀ w ∈ ([0x10000000, 0x22000000] : List Word), 0x10 ≤ (w.extractLsb' 24 8).toNat ∧ (w.extractLsb' 24 8).toNat ≤ 0x22) ∧
    (∀ w ∈ ([0x30000000, 0x3C000000] : List Word), 0x30 ≤ (w.extractLsb' 24 8).toNat ∧ (w.extractLsb' 24 8).toNat ≤ 0x3C) ∧
    ([7] : List Word).length = dataWordsDue ((0x22000000 : Word).extractLsb' 24 8) ∧
    ReadyFor (ready .c [0x22000000, 7]) .c [0x22000000, 7] [] [] := ⟨by simp, by simp, by decide, ready_for _ _⟩

theorem witness_AssembledInstructionsDecodeToThemselves :
    assembleInstr .read [255] = some (.read 255) ∧ 255 < 2 ^ 8 ∧ 2 ^ 8 ≤ 256 ∧ 2 ^ 24 ≤ 16777216 ∧ 1 < 2 ∧ 2 ≤ 2 ∧
    (1 ≤ 1 ∧ 32 ≤ 32 ∧ 0xFFFFFFFF < 2 ^ 32) ∧ (32 < 33 ∧ 2 ^ 32 ≤ 0x100000000) ∧
    ((List.replicate 32 0xFFFFFFFF).length = 32 ∧ ∀ v ∈ List.replicate 32 0xFFFFFFFF, v < 2 ^ 32) ∧
    (∃ v ∈ 0x100000000 :: List.replicate 31 0, 2 ^ 32 ≤ v) ∧ ([] : List Nat).length ≠ 1 ∧ [1, 2, 3].length ≠ 2 := by
  decide

/-- A turn of unit C in the middle of a RAW: with 2 words due, and with 1. -/
def collecting (k : Nat) : State :=
  { ready .c [5] with c := { baseC.c with parser := .collect 0x3C000000 k (List.replicate (32 - k) 0) } }

theorem witness_TakingAWordMovesTheParser :
    (heldBy (ready .a [0x10000000]) .a = none ∧ pending (ready .a [0x10000000]) .a = [0x10000000] ∧
      (ready .a [0x10000000]).io.events = [.unit .a] ∧ parserOf (ready .a [0x10000000]) .a = .idle ∧
      dataWordsDue ((0x10000000 : Word).extractLsb' 24 8) = 0) ∧
    dataWordsDue ((0x3C000000 : Word).extractLsb' 24 8) ≠ 0 ∧
    (heldBy (collecting 2) .c = none ∧ pending (collecting 2) .c = [5] ∧ (collecting 2).io.events = [.unit .c] ∧
      parserOf (collecting 2) .c = .collect 0x3C000000 2 (List.replicate 30 0) ∧ 1 < 2) ∧
    parserOf (collecting 1) .c = .collect 0x3C000000 1 (List.replicate 31 0) := by decide

theorem witness_StepRunsTheDecodedInstruction :
    heldBy (collecting 1) .c = none ∧ pending (collecting 1) .c = [5] ∧ (collecting 1).io.events = [.unit .c] ∧
    acceptWord (parserOf (collecting 1) .c) 5 = (.idle, some ⟨0x3C000000, List.replicate 31 0 ++ [5]⟩) ∧
    decodeCommand 0x3C000000 (List.replicate 31 0 ++ [5]) = .ok (.raw (List.replicate 31 0 ++ [5])) := by decide

theorem witness_EncodedCommandRunsWithItsLastWord :
    Instr.wf (.settouch 9) = true ∧ ReadyFor (ready .c (encode (.settouch 9))) .c (encode (.settouch 9)) [] [] :=
  ⟨by decide, ready_for _ _⟩

theorem witness_StepKeepsTheInvariant : Inv base ∧ step base = .next base := ⟨inv_base, rfl⟩

theorem witness_InvariantStatesGoOn : Inv base := inv_base

/-- `busy`, about to be reset. -/
def resetting : State := { busy with io := { busy.io with events := [.reset, .unit .a] } }

theorem witness_ResetGivesEveryRegisterItsValue : resetting.io.events = .reset :: [.unit .a] := rfl

theorem witness_ParametersNeverChange : ∃ t, step resetting = .next t := ⟨_, rfl⟩

theorem witness_OnlyResetClearsTheErrorBits :
    let s := { ready .a [0x12000000] with a := { busy.a with err := true }, c := { base.c with err := true } }
    (∀ es, s.io.events ≠ .reset :: es) ∧ (∃ t, step s = .next t) ∧ s.a.err = true ∧ s.c.err = true :=
  ⟨by intro es h; simp [ready, setPending] at h, ⟨_, rfl⟩, rfl, rfl⟩

theorem witness_UnitsShareOnlyTheMailbox :
    ((ready .a [0x12000000]).io.events = .unit .a :: [] ∧ ∃ t, step (ready .a [0x12000000]) = .next t) ∧
    ((ready .c [0x3B000001]).io.events = .unit .c :: [] ∧ ∃ t, step (ready .c [0x3B000001]) = .next t) :=
  ⟨⟨rfl, _, rfl⟩, ⟨rfl, _, rfl⟩⟩

theorem witness_UnitsCannotReadEachOther :
    ((ready .a [0x21000000]).io.events = .unit .a :: [] ∧ ∃ t, step (ready .a [0x21000000]) = .next t) ∧
    ((ready .c [0x01000010]).io.events = .unit .c :: [] ∧ ∃ t, step (ready .c [0x01000010]) = .next t) :=
  ⟨⟨rfl, _, rfl⟩, ⟨rfl, _, rfl⟩⟩

theorem witness_WordsAreTakenInOrder :
    (ready .a [0x12000000]).io.events = .unit .a :: [] ∧ (∃ t, step (ready .a [0x12000000]) = .next t) ∧
    Port.c ≠ Port.a := ⟨rfl, ⟨_, rfl⟩, by decide⟩

theorem witness_OnlyFuseReadsTheTime : Instr.tick 5 ≠ Instr.fuse ∧ exec (.tick 5) baseC = .next (after (.tick 5) baseC) :=
  ⟨by decide, exec_after _ _⟩

/-- Each register named is really written by a command its rule names. -/
theorem witness_WritersOfUnitAAndMailbox :
    exec .fuse (sensing base 5 [1, 0, 0]) = .next (after .fuse (sensing base 5 [1, 0, 0])) ∧
    (after .fuse (sensing base 5 [1, 0, 0])).a.bitmap ≠ 0 ∧ (after .fuse (sensing base 5 [1])).a.fuseWait ≠ none ∧
    (after (.setgmode 2) busy).a.gmode ≠ busy.a.gmode ∧ (after (.setgmode 2) busy).a.trkL ≠ busy.a.trkL ∧
    (after .resolve busy).a.trkR ≠ busy.a.trkR ∧ (after (.resolvei 1) busy).a.trkR ≠ busy.a.trkR ∧
    (after .resolve busy).a.axes ≠ busy.a.axes ∧ (after (.brev 0 1) busy).a.bres ≠ busy.a.bres ∧
    (after (.tick 0) busy).a.err ≠ busy.a.err ∧ (after .pubt busy).mbox ≠ busy.mbox ∧
    (after (.settouch 1) baseC).c.touch ≠ baseC.c.touch :=
  ⟨exec_after _ _, by decide⟩

/-- A state of unit C with something to change in every register. -/
def lit : State :=
  withC base fun c => { c with
    imode := 2, tmode := 3, bri := 9, pcp := true, touch := 1, tcol := ⟨1, 2, 3⟩, phase := 1, accF := 1, blend := 50 }

theorem witness_WritersOfUnitC :
    exec (.tick 60) lit = .next (after (.tick 60) lit) ∧ (after (.setbri 1) lit).c.bri ≠ lit.c.bri ∧
    (after (.setspd 1) lit).c.spd ≠ lit.c.spd ∧ (after (.setimode 1) lit).c.imode ≠ lit.c.imode ∧
    (after (.settmode 1) lit).c.tmode ≠ lit.c.tmode ∧ (after (.seticol ⟨1, 0, 0⟩) lit).c.icol ≠ lit.c.icol ∧
    (after (.settcol ⟨0, 0, 0⟩) lit).c.tcol ≠ lit.c.tcol ∧ (after (.setupc true) lit).c.upc ≠ lit.c.upc ∧
    (after (.setraw true) lit).c.rawen ≠ lit.c.rawen ∧ (after .clrpc lit).c.pcp ≠ lit.c.pcp ∧
    (after (.tick 60) lit).c.pulseP ≠ lit.c.pulseP ∧ (after (.setimode 1) lit).c.phase ≠ lit.c.phase ∧
    (after (.tick 60) lit).c.accF ≠ lit.c.accF ∧ (after (.tick 60) lit).c.blend ≠ lit.c.blend ∧
    (after .fuse lit).c.err ≠ lit.c.err :=
  ⟨exec_after _ _, by decide⟩

theorem witness_WritersOfTheStreams :
    exec (.read 0) base = .next (after (.read 0) base) ∧ (after (.read 0) base).io.respA ≠ base.io.respA ∧
    (after (.read 0) baseC).io.respC ≠ baseC.io.respC ∧ (after (.tick 0) baseC).io.frames ≠ baseC.io.frames ∧
    (after .fuse (sensing base 5 [1])).io.sense ≠ (sensing base 5 [1]).io.sense :=
  ⟨exec_after _ _, by decide⟩

/-- A reserved bit set, with its data words, one opcode for each format that has reserved bits. -/
theorem witness_reserved_bits :
    ((0x00000001 : Word).extractLsb' 24 8 = 0x00 ∧ (0x00000001 : Word).extractLsb' 0 24 &&& 0xFFFFFF ≠ (0 : BitVec 24) ∧
      ([] : List Word).length = dataWordsDue 0x00) ∧
    ((0x01000100 : Word).extractLsb' 24 8 = 0x01 ∧ (0x01000100 : Word).extractLsb' 0 24 &&& 0xFFFF00 ≠ (0 : BitVec 24)) ∧
    ((0x11000020 : Word).extractLsb' 24 8 = 0x11 ∧ (0x11000020 : Word).extractLsb' 0 24 &&& 0xFFFFE0 ≠ (0 : BitVec 24) ∧
      ([5] : List Word).length = dataWordsDue 0x11) ∧
    ((0x36000002 : Word).extractLsb' 24 8 = 0x36 ∧ (0x36000002 : Word).extractLsb' 0 24 &&& 0xFFFFFE ≠ (0 : BitVec 24)) ∧
    (List.replicate 32 (0 : Word)).length = dataWordsDue 0x3C := by decide

theorem witness_NopChangesNothing :
    (0x00000001 : Word).extractLsb' 24 8 = 0x00 ∧ (0x00000001 : Word).extractLsb' 0 24 &&& 0xFFFFFF ≠ (0 : BitVec 24) := by
  decide

/-- Every listed index, and the first and the last that no row lists; no index meets two clauses. -/
theorem witness_ReadOnPortAEmitsTheRegister :
    base.port = .a ∧ 8 ≤ (8 : BitVec 8).toNat ∧ 8 ≤ (255 : BitVec 8).toNat ∧ (7 : BitVec 8).toNat < 8 := by decide

/-- The boundary indices of every range, and those next to them that no row lists. -/
theorem witness_ReadOnPortCEmitsTheRegister :
    baseC.port = .c ∧ (32 : BitVec 8).toNat = 32 + (0 : Fin 32).val ∧ (63 : BitVec 8).toNat = 32 + (31 : Fin 32).val ∧
    (64 : BitVec 8).toNat = 64 + (0 : Fin 32).val ∧ (95 : BitVec 8).toNat = 64 + (31 : Fin 32).val ∧
    (96 : BitVec 8).toNat = 96 + (0 : Fin 32).val ∧ (127 : BitVec 8).toNat = 96 + (31 : Fin 32).val ∧
    (128 : BitVec 8).toNat = 128 + (0 : Fin 32).val ∧ (159 : BitVec 8).toNat = 128 + (31 : Fin 32).val ∧
    17 ≤ (17 : BitVec 8).toNat ∧ (31 : BitVec 8).toNat < 32 ∧ 160 ≤ (160 : BitVec 8).toNat ∧
    160 ≤ (255 : BitVec 8).toNat := by decide

theorem witness_BrevReversesIntoBres : base.port = .a ∧ baseC.port = .c := ⟨rfl, rfl⟩

theorem witness_PubtSendsTheBitmap : base.port = .a ∧ baseC.port = .c := ⟨rfl, rfl⟩

theorem witness_FusePollsAndWritesTogether :
    (sensing base 5 [1, 2, 3]).port = .a ∧ (sensing base 5 [1, 2, 3]).a.valid = false ∧
    (sensing busy 6 [1, 2, 3]).cfg.rateMs ≤ ((sensing busy 6 [1, 2, 3]).io.timeMs - busy.a.lastMs).toNat ∧
    AnswersReady (sensing base 5 [1, 2, 3]) 0 [1, 2, 3] := by
  refine ⟨rfl, rfl, by decide, by decide, ?_⟩
  intro j m h0 h
  simp only [Nat.sub_zero] at h
  exact ⟨[], by simp only [sensing, perSegment_get_fin, h]; rfl⟩

theorem witness_FuseWithinTheRateWindowChangesNothing :
    (sensing busy 5 []).port = .a ∧ (sensing busy 5 []).a.valid = true ∧
    ((sensing busy 5 []).io.timeMs - busy.a.lastMs).toNat < (sensing busy 5 []).cfg.rateMs ∧
    exec .fuse (sensing base 5 [1, 2, 3]) = .next (after .fuse (sensing base 5 [1, 2, 3])) ∧
    (after .fuse (sensing base 5 [1, 2, 3])).a.fuseWait = none := ⟨rfl, rfl, by decide, exec_after _ _, by decide⟩

/-- The first adapter silent, and the last one. -/
theorem witness_FuseWaitsForASilentAdapter :
    ((sensing base 5 []).port = .a ∧ (sensing base 5 []).a.valid = false ∧ (0 : Fin 32).val < (sensing base 5 []).cfg.na ∧
      (sensing base 5 []).io.sense[(0 : Fin 32)] = []) ∧
    ((2 : Fin 32).val < (sensing base 5 [1, 2]).cfg.na ∧ (sensing base 5 [1, 2]).io.sense[(2 : Fin 32)] = []) := by decide

/-- The next event is the world's, one of each kind. -/
theorem witness_HostAndAdaptersActOnTheirInterfaces :
    ∀ ev ∈ ([.send .a 1, .send .c 2, .time 3, .answer 31 4] : List Event),
      ({ base with io := { base.io with events := [ev] } } : State).io.events = ev :: [] := fun _ _ => rfl

/-- A FUSE that has two of three masks, with unit A's turn coming. -/
def waiting (s : State) : State :=
  { s with a := { s.a with fuseWait := some ⟨5, [1, 2]⟩ }, io := { s.io with events := [.unit .a] } }

/-- The last mask's answer ready, and the last adapter silent. -/
theorem witness_WaitingFuseCompletesWithTheLastAnswer :
    (waiting (sensing base 9 [0, 0, 3])).a.fuseWait = some ⟨5, [1, 2]⟩ ∧
    (waiting (sensing base 9 [0, 0, 3])).io.events = .unit .a :: [] ∧
    AnswersReady (waiting (sensing base 9 [0, 0, 3])) [(1 : Word), 2].length [3] ∧
    ([(1 : Word), 2].length ≤ (2 : Fin 32).val ∧ (2 : Fin 32).val < (waiting base).cfg.na ∧
      (waiting base).io.sense[(2 : Fin 32)] = []) := by
  refine ⟨rfl, rfl, ⟨by decide, ?_⟩, by decide⟩
  intro j m h0 h
  obtain rfl : j = 2 := by
    have := (List.getElem?_eq_some_iff.mp h).1
    simp at this h0
    omega
  exact ⟨[], by simp at h; subst h; decide⟩

theorem witness_SilentAdapterHoldsPortA :
    (waiting base).a.fuseWait = some ⟨5, [1, 2]⟩ ∧ [(1 : Word), 2].length ≤ (2 : Fin 32).val ∧
    (2 : Fin 32).val < (waiting base).cfg.na ∧ (waiting base).io.sense[(2 : Fin 32)] = [] ∧
    (∀ ev ∈ (waiting base).io.events, ev ≠ .reset ∧ ∀ m, ev ≠ .answer 2 m) ∧
    ∃ t, runSteps 3 (waiting base) = .next t :=
  ⟨rfl, by decide, by decide, by decide, by simp [waiting], ⟨_, rfl⟩⟩

theorem witness_SetgmodeResetsTracksOnAChange : busy.port = .a ∧ (5 : BitVec 8) ≠ busy.a.gmode ∧ baseC.port = .c := by decide

/-- Arcade mode with RESOLVE's own bitmap, and the first and the last unrecognized mode. -/
theorem witness_ArcadeResolveSlicesTheBitmap :
    base.port = .a ∧ base.a.gmode = 0 ∧ (0 : Word) = base.a.bitmap ∧ 2 ≤ (2 : BitVec 8).toNat ∧
    2 ≤ (255 : BitVec 8).toNat := by decide

theorem witness_StickResolveTracksBothHalves :
    busy.port = .a ∧ busy.a.gmode = 1 ∧ (0x80008001 : Word) = busy.a.bitmap := by decide

/-- A half with both extents at the ends, and a track for each direction. -/
theorem witness_TrackUpdateFollowsTheExtents :
    ((0x8001 : BitVec 16).getLsbD (15 : BitVec 4).toNat = true ∧ (∀ j, 15 < j → (0x8001 : BitVec 16).getLsbD j = false) ∧
      (0x8001 : BitVec 16).getLsbD (0 : BitVec 4).toNat = true ∧ (∀ j, j < 0 → (0x8001 : BitVec 16).getLsbD j = false)) ∧
    (4 ≤ 15 ∧ 0 ≤ 0 ∧ (4 < 15 ∨ 0 < 0)) ∧ (15 ≤ 15 ∧ 0 ≤ 9 ∧ (15 < 15 ∨ 0 < 9)) := by
  refine ⟨⟨by decide, fun j hj => BitVec.getLsbD_of_ge _ _ (by omega), by decide, fun j hj => by omega⟩, by decide, by decide⟩

theorem witness_ResolvingTwiceIsResolvingOnce :
    exec .resolve busy = .next (after .resolve busy) ∧ exec (.resolvei 3) busy = .next (after (.resolvei 3) busy) :=
  ⟨exec_after _ _, exec_after _ _⟩

theorem witness_PseudoInstructionsExpand : busy.port = .a := rfl

theorem witness_BrightnessAndSpeedAreClamped : lit.port = .c ∧ base.port = .a := ⟨rfl, rfl⟩

theorem witness_SetimodeResetsTheIdleTimelines : lit.port = .c ∧ (9 : BitVec 8) ≠ lit.c.imode ∧ base.port = .a := by decide

theorem witness_SettmodeClearsTheFades : lit.port = .c ∧ (2 : BitVec 8) ≠ lit.c.tmode ∧ base.port = .a := by decide

theorem witness_SettersWriteTheirRegister : lit.port = .c ∧ base.port = .a := ⟨rfl, rfl⟩

theorem witness_StepperCountsDependOnlyOnTheTotal :
    acc baseC.c .pulse = 0 ∧ [2, 2, 3, 2].sum = 3 * threshold (exAThr 3) .pulse baseC.c.spd ∧ [2, 2, 3, 2] ≠ [] := by decide

theorem witness_TickUnderRawOverrideOnlyTakesTheMailbox :
    (withC base fun c => { c with rawen := true }).port = .c ∧
    (withC base fun c => { c with rawen := true }).c.rawen = true := ⟨rfl, rfl⟩

theorem witness_TickFrameOfWhatItWrites : lit.port = .c ∧ lit.c.rawen = false := ⟨rfl, rfl⟩

theorem witness_TickMovesTheBlendFactor :
    lit.port = .c ∧ lit.c.rawen = false ∧ touchAfterTake lit ≠ 0 ∧ touchAfterTake baseC = 0 := by decide

/-- Every clause's mode; `lit` is the one in Pulse. -/
theorem witness_TickDrawsTheIdleLayer :
    lit.port = .c ∧ lit.c.rawen = false ∧ lit.c.imode = 2 ∧ baseC.c.imode = 0 ∧
    (withC base fun c => { c with imode := 1 }).c.imode = 1 ∧ (withC base fun c => { c with imode := 3 }).c.imode = 3 ∧
    (withC base fun c => { c with imode := 4 }).c.imode = 4 ∧
    5 ≤ (withC base fun c => { c with imode := 5 }).c.imode.toNat := by decide

/-- Every clause's mode; `lit` is the one in TouchedFade. -/
theorem witness_TickDrawsTheTouchedLayer :
    lit.port = .c ∧ lit.c.rawen = false ∧ lit.c.tmode = 3 ∧ baseC.c.tmode = 0 ∧
    (withC base fun c => { c with tmode := 1 }).c.tmode = 1 ∧ (withC base fun c => { c with tmode := 2 }).c.tmode = 2 ∧
    (withC base fun c => { c with tmode := 4 }).c.tmode = 4 ∧
    5 ≤ (withC base fun c => { c with tmode := 5 }).c.tmode.toNat := by decide

theorem witness_TickEmitsTheCompositedFrame :
    lit.port = .c ∧ lit.c.rawen = false ∧ lit.c.blend.toNat ≤ 100 ∧ 0 < lit.cfg.lps := by decide

theorem witness_TickChannelsNeverExceedBrightness :
    exec (.tick 9) lit = .next (after (.tick 9) lit) ∧
    (after (.tick 9) lit).io.frames = lit.io.frames ++ [(after (.tick 9) lit).io.frames.getLastD []] ∧
    0 ∈ (after (.tick 9) lit).io.frames.getLastD [] := ⟨exec_after _ _, by decide, by decide⟩

/-- Segment 4 released at 50 percent, segment 0 touched. -/
def fading : State :=
  { base with
    port := .c
    c := { base.c with
      tmode := 3, touch := 1, tcol := ⟨9, 9, 9⟩, fadeF := (perSegment fun i => if i = 4 then 50 else 0)
      fadeC := (perSegment fun _ => ⟨200, 100, 0⟩) } }

theorem witness_TouchedFadeNeverBrightens :
    Inv fading ∧ fading.port = .c ∧ fading.c.rawen = false ∧ fading.c.tmode = 3 ∧
    exec (.tick 1) fading = .next (after (.tick 1) fading) ∧
    exec (.tick 60) (after (.tick 1) fading) = .next (after (.tick 60) (after (.tick 1) fading)) ∧
    (touchAfterTake fading).getLsbD 0 = true ∧ (touchAfterTake (after (.tick 1) fading)).getLsbD 4 = false ∧
    (after (.tick 60) (after (.tick 1) fading)).c.fadeF[4] = 0 := by
  refine ⟨?_, rfl, rfl, rfl, exec_after _ _, exec_after _ _, by decide, by decide, by decide⟩
  constructor <;> try simp [fading, base, State.resetWith, UnitA.reset, UnitC.reset, ParserOk, AxisOk, Track.default,
    Config.exA, Params.glen, Color.black]
  intro i
  split <;> decide

theorem witness_RawEmitsTheNormalizedFrame :
    (withC base fun c => { c with rawen := true }).port = .c ∧
    (withC base fun c => { c with rawen := true }).c.rawen = true ∧ (List.replicate 32 (7 : Word)).length = 32 ∧
    (List.replicate 32 (7 : Word))[31]? = some 7 ∧ 0 < base.cfg.lps ∧ lit.c.rawen = false := by decide

theorem witness_RawNormalizationCapsTheLargestChannel :
    maxChannel ⟨200, 200, 200⟩ ≤ (200 : BitVec 8).toNat ∧ (200 : BitVec 8).toNat < maxChannel ⟨201, 3, 100⟩ := by decide

theorem witness_FramesAreBlackFromReset : baseC.port = .c ∧ baseC.c.rawen = false ∧ baseC.c.bri = 0 := by decide

/-- A setter on port C and a SETGMODE on port A between the Send and the Take. -/
theorem witness_TickTakesTheLatestSend :
    let is : List (Port × Instr) := [(.c, .settouch 5), (.a, .setgmode 1)]
    let t := after .pubt busy
    busy.port = .a ∧ exec .pubt busy = .next t ∧ (∀ x ∈ is, x.2 ≠ .pubt ∧ ∀ e', x.2 ≠ .tick e') ∧
    ∃ u v, is.foldlM (m := Option) (fun st x =>
        match exec x.2 { st with port := x.1 } with
        | .next st' => some st'
        | _ => none) t = some u ∧
      exec (.tick 3) { u with port := .c } = .next v :=
  ⟨rfl, exec_after _ _, by simp, _, _, rfl, exec_after _ _⟩

end Sys2Proof.Tests
end

section
/-! PROOFS. Which commands write which register: unit A, the mailbox, TOUCH and unit C
(spec/10_state.md R20 to R40). -/

namespace Sys2Proof.Machine

/-! ### What the effects with branches leave -/

@[simp] theorem fuseEffect_c (s : State) : (fuseEffect s).c = s.c := by
  obtain ⟨_, _, _, _, _, hf⟩ := fuseEffect_frame s
  rw [hf]

@[simp] theorem fuseEffect_mbox (s : State) : (fuseEffect s).mbox = s.mbox := by
  obtain ⟨_, _, _, _, _, hf⟩ := fuseEffect_frame s
  rw [hf]

@[simp] theorem setgmodeEffect_c (v : BitVec 8) (s : State) : (setgmodeEffect v s).c = s.c := by
  unfold setgmodeEffect; split <;> rfl

@[simp] theorem setgmodeEffect_mbox (v : BitVec 8) (s : State) : (setgmodeEffect v s).mbox = s.mbox := by
  unfold setgmodeEffect; split <;> rfl

@[simp] theorem setimodeEffect_a (v : BitVec 8) (s : State) : (setimodeEffect v s).a = s.a := by
  unfold setimodeEffect; split <;> rfl

@[simp] theorem setimodeEffect_mbox (v : BitVec 8) (s : State) : (setimodeEffect v s).mbox = s.mbox := by
  unfold setimodeEffect; split <;> rfl

@[simp] theorem setimodeEffect_c_touch (v : BitVec 8) (s : State) : (setimodeEffect v s).c.touch = s.c.touch := by
  unfold setimodeEffect; split <;> rfl

@[simp] theorem settmodeEffect_a (v : BitVec 8) (s : State) : (settmodeEffect v s).a = s.a := by
  unfold settmodeEffect; split <;> rfl

@[simp] theorem settmodeEffect_mbox (v : BitVec 8) (s : State) : (settmodeEffect v s).mbox = s.mbox := by
  unfold settmodeEffect; split <;> rfl

@[simp] theorem settmodeEffect_c_touch (v : BitVec 8) (s : State) : (settmodeEffect v s).c.touch = s.c.touch := by
  unfold settmodeEffect; split <;> rfl

@[simp] theorem tickEffect_a (e : Nat) (s : State) : (tickEffect e s).a = s.a := by
  cases hr : s.c.rawen
  · rw [tickEffect_render hr, renderFrame, emitFrame_a]
    exact takeTouch_a s
  · rw [tickEffect_raw hr, takeTouch_a]

@[simp] theorem rawEffect_a (d : List Word) (s : State) : (rawEffect d s).a = s.a := by
  obtain hr | ⟨px, hr⟩ := rawEffect_frame d s <;> rw [hr]

@[simp] theorem rawEffect_c (d : List Word) (s : State) : (rawEffect d s).c = s.c := by
  obtain hr | ⟨px, hr⟩ := rawEffect_frame d s <;> rw [hr]

@[simp] theorem rawEffect_mbox (d : List Word) (s : State) : (rawEffect d s).mbox = s.mbox := by
  obtain hr | ⟨px, hr⟩ := rawEffect_frame d s <;> rw [hr]

/-! ### Which part of the state an effect writes -/

/-- The effect of a command that port A takes leaves unit C (30_encoding.md R86). -/
theorem effectOf_c_of_legalOn_a {i : Instr} (hl : i.opcode.legalOn .a = true) (s : State) :
    (effectOf i s).c = s.c := by
  cases i <;> simp only [effectOf]
  case nop | brev | pubt | resolve | resolvei => rfl
  case read x => exact emitResponse_c _ s
  case fuse => exact fuseEffect_c s
  case setgmode v => exact setgmodeEffect_c v s
  all_goals simp [Instr.opcode, Opcode.legalOn] at hl

/-- The effect of a command that port C takes leaves unit A (30_encoding.md R86). -/
theorem effectOf_a_of_legalOn_c {i : Instr} (hl : i.opcode.legalOn .c = true) (s : State) :
    (effectOf i s).a = s.a := by
  cases i <;> simp only [effectOf]
  case read x => exact emitResponse_a _ s
  case tick e => exact tickEffect_a _ s
  case raw d => exact rawEffect_a d s
  case setimode v => exact setimodeEffect_a v s
  case settmode v => exact settmodeEffect_a v s
  case nop | setbri | setspd | seticol | settcol | setupc | setraw | settouch | setpc | clrpc => rfl
  all_goals simp [Instr.opcode, Opcode.legalOn] at hl

/-- No effect but that of PUBT and TICK writes the mailbox (10_state.md R30). -/
theorem effectOf_mbox {i : Instr} (hp : i ≠ .pubt) (ht : ∀ e, i ≠ .tick e) (s : State) :
    (effectOf i s).mbox = s.mbox := by
  cases i <;> simp only [effectOf]
  case pubt => exact absurd rfl hp
  case tick e => exact absurd rfl (ht e)
  case read x => exact emitResponse_mbox _ s
  case fuse => exact fuseEffect_mbox s
  case raw d => exact rawEffect_mbox d s
  case setgmode v => exact setgmodeEffect_mbox v s
  case setimode v => exact setimodeEffect_mbox v s
  case settmode v => exact settmodeEffect_mbox v s
  all_goals rfl

/-- What the effect of a command that port A takes can do to unit A. -/
theorem effectOf_a_cases {i : Instr} (hl : i.opcode.legalOn .a = true) (s : State) :
    (effectOf i s).a = s.a ∨
    (i = .fuse ∧ (effectOf i s).a = (fuseEffect s).a) ∨
    (∃ n v, i = .brev n v ∧ (effectOf i s).a = (brevEffect n v s).a) ∨
    (∃ v, i = .setgmode v ∧ v ≠ s.a.gmode ∧ (effectOf i s).a =
      { s.a with gmode := v, trkL := Track.default s.cfg.center, trkR := Track.default s.cfg.center }) ∨
    (∃ x, (i = .resolve ∨ i = .resolvei x) ∧ (effectOf i s).a = resolveBitmap s.cfg x s.a) := by
  cases i
  case nop | pubt => exact .inl rfl
  case read x => exact .inl (emitResponse_a _ s)
  case fuse => exact .inr (.inl ⟨rfl, rfl⟩)
  case brev n v => exact .inr (.inr (.inl ⟨n, v, rfl, rfl⟩))
  case setgmode v =>
    by_cases hv : v = s.a.gmode
    · exact .inl (by simp [effectOf, setgmodeEffect, hv])
    · exact .inr (.inr (.inr (.inl ⟨v, rfl, hv, by simp [effectOf, setgmodeEffect, hv]⟩)))
  case resolve => exact .inr (.inr (.inr (.inr ⟨s.a.bitmap, .inl rfl, rfl⟩)))
  case resolvei x => exact .inr (.inr (.inr (.inr ⟨x, .inr rfl, rfl⟩)))
  all_goals simp [Instr.opcode, Opcode.legalOn] at hl

/-- What a TICK can do to unit C: take the mailbox, and render unless RAWEN = 1 (43_compositor_render.md R200). -/
theorem tickEffect_c_cases (e : Nat) (s : State) :
    (tickEffect e s).c = { s.c with touch := touchAfterTake s } ∨
    (tickEffect e s).c = renderLayers s.cfg e { s.c with touch := touchAfterTake s } := by
  cases hr : s.c.rawen
  · rw [tickEffect_render hr, renderFrame, emitFrame_c, takeTouch_eq]
    exact .inr rfl
  · rw [tickEffect_raw hr, takeTouch_eq]
    exact .inl rfl

/-- What a TICK leaves of unit C: the configuration, and each timeline whose mode is not selected
(43_compositor_render.md R194). -/
theorem tickEffect_keeps (e : Nat) (s : State) :
    ((tickEffect e s).c.bri = s.c.bri ∧ (tickEffect e s).c.spd = s.c.spd ∧
      (tickEffect e s).c.imode = s.c.imode ∧ (tickEffect e s).c.tmode = s.c.tmode ∧
      (tickEffect e s).c.icol = s.c.icol ∧ (tickEffect e s).c.tcol = s.c.tcol ∧
      (tickEffect e s).c.upc = s.c.upc ∧ (tickEffect e s).c.rawen = s.c.rawen ∧
      (tickEffect e s).c.pcp = s.c.pcp ∧ (tickEffect e s).c.pcol = s.c.pcol ∧
      (tickEffect e s).c.err = s.c.err) ∧
    (s.c.imode ≠ 2 → (tickEffect e s).c.pulseP = s.c.pulseP ∧ (tickEffect e s).c.pulseDir = s.c.pulseDir ∧
      (tickEffect e s).c.accP = s.c.accP) ∧
    (s.c.imode ≠ 4 → (tickEffect e s).c.phase = s.c.phase ∧ (tickEffect e s).c.accR = s.c.accR) ∧
    (s.c.tmode ≠ 3 → s.c.tmode ≠ 4 → (tickEffect e s).c.fadeF = s.c.fadeF ∧
      (tickEffect e s).c.fadeC = s.c.fadeC ∧ (tickEffect e s).c.accF = s.c.accF) := by
  obtain ht | ht := tickEffect_c_cases e s <;> rw [ht]
  · simp
  · obtain ⟨_, _, _, _, _, _, _, _, _, _, _, _, hr, hpulse, hrainbow, -, hfade, -⟩ :=
      renderLayers_frame s.cfg e { s.c with touch := touchAfterTake s }
    rw [hr]
    exact ⟨by simp, hpulse, hrainbow, hfade⟩

/-! ### What a command can do -/

/-- No command changes a parser, the parameters or the port (10_state.md R21, R42). -/
theorem exec_frame {i : Instr} {s t : State} (h : exec i s = .next t) :
    t.a.parser = s.a.parser ∧ t.c.parser = s.c.parser ∧ t.cfg = s.cfg ∧ t.port = s.port := by
  obtain ⟨-, rfl⟩ | ⟨-, rfl⟩ := exec_cases h
  · obtain ⟨hcfg, hport, -, -, -, -, ha, hc, -, -⟩ := effectOf_frame i s
    exact ⟨ha, hc, hcfg, hport⟩
  · cases hp : s.port <;> simp [badCmd, setErr, hp]

/-- What a command can do to unit A: nothing, the error bit of a wrong port, or its effect on port A. -/
theorem exec_a_cases {i : Instr} {s t : State} (h : exec i s = .next t) :
    t.a = s.a ∨
    (s.port = .a ∧ i.opcode.legalOn .a = false ∧ t.a = { s.a with err := true }) ∨
    (s.port = .a ∧ i.opcode.legalOn .a = true ∧ t.a = (effectOf i s).a) := by
  obtain ⟨hl, rfl⟩ | ⟨hl, rfl⟩ := exec_cases h <;> cases hp : s.port <;> rw [hp] at hl
  · exact .inr (.inr ⟨rfl, hl, rfl⟩)
  · exact .inl (effectOf_a_of_legalOn_c hl s)
  · exact .inr (.inl ⟨rfl, hl, badCmd_a s hp⟩)
  · exact .inl (badCmd_a_of_c s hp)

/-- What a command can do to unit C: nothing, the error bit of a wrong port, or its effect on port C. -/
theorem exec_c_cases {i : Instr} {s t : State} (h : exec i s = .next t) :
    t.c = s.c ∨
    (s.port = .c ∧ i.opcode.legalOn .c = false ∧ t.c = { s.c with err := true }) ∨
    (s.port = .c ∧ i.opcode.legalOn .c = true ∧ t.c = (effectOf i s).c) := by
  obtain ⟨hl, rfl⟩ | ⟨hl, rfl⟩ := exec_cases h <;> cases hp : s.port <;> rw [hp] at hl
  · exact .inl (effectOf_c_of_legalOn_a hl s)
  · exact .inr (.inr ⟨rfl, hl, rfl⟩)
  · exact .inl (badCmd_c_of_a s hp)
  · exact .inr (.inl ⟨rfl, hl, badCmd_c s hp⟩)

/-! ### The writers of unit A, the mailbox and TOUCH -/

/-- Only PUBT and TICK change the mailbox (10_state.md R30). -/
theorem exec_mbox_writers {i : Instr} {s t : State} (h : exec i s = .next t) (hne : t.mbox ≠ s.mbox) :
    i = .pubt ∨ ∃ e, i = .tick e := by
  obtain ⟨-, rfl⟩ | ⟨-, rfl⟩ := exec_cases h
  · by_contra hw
    push Not at hw
    exact hne (effectOf_mbox hw.1 hw.2 s)
  · exact absurd (badCmd_mbox s) hne

/-- Only SETTOUCH and TICK change TOUCH (10_state.md R31). -/
theorem exec_touch_writers {i : Instr} {s t : State} (h : exec i s = .next t) (hne : t.c.touch ≠ s.c.touch) :
    (∃ x, i = .settouch x) ∨ ∃ e, i = .tick e := by
  obtain hc | ⟨-, -, hc⟩ | ⟨-, hl, hc⟩ := exec_c_cases h
  · simp [hc] at hne
  · simp [hc] at hne
  · cases i
    case settouch x => exact .inl ⟨x, rfl⟩
    case tick e => exact .inr ⟨e, rfl⟩
    case read | raw | setimode | settmode => simp [hc, effectOf, readEffect] at hne
    case nop | setbri | setspd | seticol | settcol | setupc | setraw | setpc | clrpc =>
      exact absurd (congrArg UnitC.touch hc) hne
    all_goals simp [Instr.opcode, Opcode.legalOn] at hl

/-- Settles O21: unit A by the cases of `exec_a_cases` and `effectOf_a_cases`, the rest by its own lemmas. -/
theorem writersOfUnitAAndMailbox : Obligations.WritersOfUnitAAndMailbox := by
  unfold Obligations.WritersOfUnitAAndMailbox
  intro i s t h
  have hmbox := exec_mbox_writers h
  have htouch := exec_touch_writers h
  have hframe := exec_frame h
  obtain ha | ⟨hp, hl, ha⟩ | ⟨hp, hl, ha⟩ := exec_a_cases h
  · simp_all
  · simp_all
  · obtain he | ⟨rfl, he⟩ | ⟨n, v, rfl, he⟩ | ⟨v, rfl, hv, he⟩ | ⟨x, hi, he⟩ := effectOf_a_cases hl s
    · simp_all
    · obtain ⟨_, _, _, _, _, hf⟩ := fuseEffect_frame s
      simp_all
    · simp_all [brevEffect]
    · simp_all
    · obtain ⟨_, _, _, hr⟩ := resolveBitmap_frame s.cfg x s.a
      have htr := resolveBitmap_tracks s.cfg x s.a
      grind

/-! ### The writers of unit C -/

/-- Settles O22, over the commands that port C takes: a setter writes its own register, and TICK only what
`tickEffect_keeps` leaves open. -/
theorem writersOfUnitC : Obligations.WritersOfUnitC := by
  unfold Obligations.WritersOfUnitC
  intro i s t h
  obtain hc | ⟨hp, hl, hc⟩ | ⟨hp, hl, hc⟩ := exec_c_cases h <;> rw [hc]
  · simp
  · simp [hp, hl]
  · cases i
    case tick e =>
      obtain ⟨hconfig, hpulse, hrainbow, hfade⟩ := tickEffect_keeps e.toNat s
      grind [effectOf]
    case setimode v => simp only [effectOf, setimodeEffect]; split <;> simp
    case settmode v => simp only [effectOf, settmodeEffect]; split <;> simp
    case nop | read | setbri | setspd | seticol | settcol | setupc | setraw | settouch | setpc | clrpc | raw =>
      simp [effectOf, nopEffect, readEffect, setbriEffect, setspdEffect, seticolEffect, settcolEffect,
        setupcEffect, setrawEffect, settouchEffect, setpcEffect, clrpcEffect]
    all_goals simp [Instr.opcode, Opcode.legalOn] at hl

end Sys2Proof.Machine
end

section
/-! PROOFS. The construction parameters through a step, and the invariant of every reachable state
(spec/10_state.md R42, R45). -/

namespace Sys2Proof.Machine

/-! ### The parameters -/

theorem fuseContinue_cfg (fw : FuseWait) (s : State) : (fuseContinue fw s).cfg = s.cfg := by
  obtain ⟨_, _, _, _, _, hf⟩ := fuseContinue_frame fw s
  rw [hf]

theorem takeEffect_cfg {p : Port} {cmd : Command} {s t : State} (h : takeEffect p cmd s = .next t) : t.cfg = s.cfg := by
  obtain ⟨i, -, hx⟩ | rfl := takeEffect_cases h
  · obtain ⟨-, -, hcfg, -⟩ := exec_frame hx
    exact hcfg
  · rw [badCmd_cfg]

theorem unitTurn_cfg {p : Port} {s t : State} (h : unitTurn p s = .next t) : t.cfg = s.cfg := by
  obtain ⟨fw, -, rfl⟩ | ⟨-, -, rfl⟩ | ⟨w, rest, -, -, -, rfl⟩ | ⟨w, rest, cmd, -, -, -, htake⟩ := unitTurn_cases h
  · exact fuseContinue_cfg fw s
  · rfl
  · simp
  · simpa using takeEffect_cfg htake

theorem handleEvent_cfg {ev : Event} {s t : State} (h : handleEvent ev s = .next t) : t.cfg = s.cfg := by
  cases ev <;> simp only [handleEvent, Host.Outcome.next.injEq] at h
  case unit p => exact unitTurn_cfg h
  all_goals subst h; simp

/-- Settles O15: each event keeps the parameters, and the block as built has R7's values by definition. -/
theorem parametersNeverChange : Obligations.ParametersNeverChange := by
  unfold Obligations.ParametersNeverChange
  refine ⟨fun s t h => ?_, rfl, rfl, rfl, rfl, rfl⟩
  obtain ⟨-, rfl⟩ | ⟨ev, es, -, hev⟩ := step_cases h
  · rfl
  · have hcfg := handleEvent_cfg hev
    exact hcfg

/-! ### The invariant, unit by unit -/

/-- What the invariant says of unit A. -/
structure UnitAOk (cfg : Params) (a : UnitA) : Prop where
  parser : ParserOk a.parser
  axis_l : AxisOk cfg.center a.trkL.axis
  axis_r : AxisOk cfg.center a.trkR.axis
  wait_idle : ∀ fw, a.fuseWait = some fw → a.parser = .idle
  wait_short : ∀ fw, a.fuseWait = some fw → fw.got.length < cfg.na

/-- What the invariant says of unit C. -/
structure UnitCOk (cfg : Params) (c : UnitC) : Prop where
  parser : ParserOk c.parser
  pulse_lo : cfg.pulseMin ≤ c.pulseP.toNat
  pulse_hi : c.pulseP.toNat ≤ cfg.pulseMax
  fade_le : ∀ i : Fin 32, c.fadeF[i].toNat ≤ 100
  blend_le : c.blend.toNat ≤ 100
  phase_lt : c.phase.toNat < cfg.glen

/-- The invariant is that of the two units. -/
theorem inv_iff (s : State) : Inv s ↔ UnitAOk s.cfg s.a ∧ UnitCOk s.cfg s.c :=
  ⟨fun h => ⟨{ h with parser := h.parser_a }, { h with parser := h.parser_c }⟩,
    fun ⟨ha, hc⟩ => { ha, hc with parser_a := ha.parser, parser_c := hc.parser }⟩

/-! ### Reset -/

theorem axisOk_center (center : BitVec 8) : AxisOk center center := .inr (.inl rfl)

theorem unitAOk_reset (cfg : Params) : UnitAOk cfg (UnitA.reset cfg) where
  parser := trivial
  axis_l := axisOk_center _
  axis_r := axisOk_center _
  wait_idle := nofun
  wait_short := nofun

/-- PULSE_MAX fits the 7 bits of PULSE_P (00_scope.md R7). -/
theorem toNat_ofNat_of_le_pulseMax {cfg : Params} {v : Nat} (h : v ≤ cfg.pulseMax) : (BitVec.ofNat 7 v).toNat = v := by
  have := cfg.pulse_max_le
  rw [BitVec.toNat_ofNat]
  exact Nat.mod_eq_of_lt (by omega)

theorem unitCOk_reset (cfg : Params) : UnitCOk cfg (UnitC.reset cfg) where
  parser := trivial
  pulse_lo := (toNat_ofNat_of_le_pulseMax (Nat.le_refl _)).symm ▸ cfg.pulse_le
  pulse_hi := (toNat_ofNat_of_le_pulseMax (Nat.le_refl _)).le
  fade_le i := by simp [UnitC.reset]
  blend_le := by simp [UnitC.reset]
  phase_lt := cfg.glen_pos

/-! ### Unit A: the tracks and the waiting FUSE -/

/-- A track update leaves 0x00, CENTER, 0xFF or the axis it had (41_resolver.md R133). -/
theorem trackUpdate_axisOk {cfg : Params} {t : Track} (x : BitVec 16) (h : AxisOk cfg.center t.axis) :
    AxisOk cfg.center (trackUpdate cfg t x).axis := by
  unfold trackUpdate
  split
  · exact axisOk_center _
  · simp only
    split
    · exact .inl rfl
    · split
      · exact .inr (.inr rfl)
      · exact h

theorem resolveBitmap_unitAOk {cfg : Params} {a : UnitA} (x : Word) (h : UnitAOk cfg a) :
    UnitAOk cfg (resolveBitmap cfg x a) := by
  unfold resolveBitmap
  split
  · exact { h with }
  · exact { h with axis_l := trackUpdate_axisOk _ h.axis_l, axis_r := trackUpdate_axisOk _ h.axis_r }
  · exact h

/-- A FUSE that goes on from an Idle parser waits while it lacks a mask, or waits no more (40_aggregator.md R110). -/
theorem fuseContinue_unitAOk {fw : FuseWait} {s : State} (h : UnitAOk s.cfg s.a) (hidle : s.a.parser = .idle) :
    UnitAOk s.cfg (fuseContinue fw s).a := by
  obtain hlt | hle := Nat.lt_or_ge _ s.cfg.na
  · rw [fuseContinue_short rfl hlt]
    exact { h with wait_idle := fun _ _ => hidle, wait_short := fun _ hw => by cases hw; exact hlt }
  · rw [fuseContinue_done rfl hle]
    exact { h with wait_idle := nofun, wait_short := nofun }

theorem fuseEffect_unitAOk {s : State} (h : UnitAOk s.cfg s.a) (hidle : s.a.parser = .idle) :
    UnitAOk s.cfg (fuseEffect s).a := by
  unfold fuseEffect
  split
  · exact fuseContinue_unitAOk h hidle
  · exact h

/-- A command that takes effect on unit A with its parser Idle keeps its invariant. -/
theorem exec_unitAOk {i : Instr} {s t : State} (hx : exec i s = .next t) (h : UnitAOk s.cfg s.a)
    (hidle : s.port = .a → s.a.parser = .idle) : UnitAOk s.cfg t.a := by
  obtain ha | ⟨-, -, ha⟩ | ⟨hp, hl, ha⟩ := exec_a_cases hx <;> rw [ha]
  · exact h
  · exact { h with }
  · obtain he | ⟨-, he⟩ | ⟨n, v, -, he⟩ | ⟨v, -, -, he⟩ | ⟨x, -, he⟩ := effectOf_a_cases hl s <;> rw [he]
    · exact h
    · exact fuseEffect_unitAOk h (hidle hp)
    · exact { h with }
    · exact { h with axis_l := axisOk_center _, axis_r := axisOk_center _ }
    · exact resolveBitmap_unitAOk x h

/-! ### Unit C: the timelines -/

/-- A unit step of the pulse stays within its bounds (43_compositor_render.md R183). -/
theorem pulseUnitStep_bounds {cfg : Params} {p : Nat × Bool} (h : cfg.pulseMin ≤ p.1 ∧ p.1 ≤ cfg.pulseMax) :
    cfg.pulseMin ≤ (pulseUnitStep cfg p).1 ∧ (pulseUnitStep cfg p).1 ≤ cfg.pulseMax := by
  have := cfg.pulse_le
  obtain ⟨v, d⟩ := p
  cases d <;> simp only [pulseUnitStep] at h ⊢ <;> split <;> simp only <;> omega

theorem pulseSteps_bounds {cfg : Params} (n : Nat) {p : Nat × Bool} (h : cfg.pulseMin ≤ p.1 ∧ p.1 ≤ cfg.pulseMax) :
    cfg.pulseMin ≤ (pulseSteps cfg n p).1 ∧ (pulseSteps cfg n p).1 ≤ cfg.pulseMax := by
  induction n generalizing p with
  | zero => exact h
  | succ n ih => exact ih (pulseUnitStep_bounds h)

theorem blendUpdate_unitCOk {cfg : Params} {c : UnitC} (e : Nat) (h : UnitCOk cfg c) : UnitCOk cfg (blendUpdate cfg e c) :=
  { h with
    blend_le := by
      have := h.blend_le
      simp only [blendUpdate, BitVec.toNat_ofNat, advance_unit, setAcc_blend, setAcc_touch]
      split <;> omega }

theorem pulseLayer_unitCOk {cfg : Params} {c : UnitC} (e : Nat) (h : UnitCOk cfg c) : UnitCOk cfg (pulseLayer cfg e c) := by
  obtain ⟨hlo, hhi⟩ := pulseSteps_bounds (pulseReduced cfg (advance cfg .pulse e c).1)
    (p := (c.pulseP.toNat, c.pulseDir)) ⟨h.pulse_lo, h.pulse_hi⟩
  have hp := toNat_ofNat_of_le_pulseMax hhi
  exact { h with pulse_lo := hp.symm ▸ hlo, pulse_hi := hp.symm ▸ hhi }

theorem rainbowCycleLayer_unitCOk {cfg : Params} {c : UnitC} (e : Nat) (h : UnitCOk cfg c) :
    UnitCOk cfg (rainbowCycleLayer cfg e c) :=
  { h with
    phase_lt := by
      rw [rainbowCycleLayer, BitVec.toNat_ofNat]
      exact Nat.lt_of_le_of_lt (Nat.mod_le _ _) (Nat.mod_lt _ cfg.glen_pos) }

theorem idleLayer_unitCOk {cfg : Params} {c : UnitC} (e : Nat) (h : UnitCOk cfg c) : UnitCOk cfg (idleLayer cfg e c) := by
  unfold idleLayer
  split
  case h_3 => exact pulseLayer_unitCOk e h
  case h_5 => exact rainbowCycleLayer_unitCOk e h
  all_goals exact { h with }

theorem fadeLayer_unitCOk {cfg : Params} {c : UnitC} (e : Nat) (tgt : UnitC → Fin 32 → Color) (h : UnitCOk cfg c) :
    UnitCOk cfg (fadeLayer cfg e tgt c) :=
  { h with
    fade_le := fun i => by
      have := h.fade_le i
      simp only [fadeLayer, perSegment_get_fin, BitVec.toNat_ofNat, advance_unit, setAcc_fadeF]
      split <;> omega }

theorem touchedLayer_unitCOk {cfg : Params} {c : UnitC} (e : Nat) (h : UnitCOk cfg c) :
    UnitCOk cfg (touchedLayer cfg e c) := by
  unfold touchedLayer
  split
  case h_4 | h_5 => exact fadeLayer_unitCOk e _ h
  all_goals exact { h with }

theorem renderLayers_unitCOk {cfg : Params} {c : UnitC} (e : Nat) (h : UnitCOk cfg c) :
    UnitCOk cfg (renderLayers cfg e c) :=
  touchedLayer_unitCOk e (idleLayer_unitCOk e (blendUpdate_unitCOk e h))

theorem tickEffect_unitCOk {s : State} (e : Nat) (h : UnitCOk s.cfg s.c) : UnitCOk s.cfg (tickEffect e s).c := by
  obtain ht | ht := tickEffect_c_cases e s <;> rw [ht]
  · exact { h with }
  · exact renderLayers_unitCOk e { h with }

/-- SETIMODE restarts the idle timelines within their bounds (42_compositor_config.md R154). -/
theorem setimodeEffect_unitCOk {s : State} (v : BitVec 8) (h : UnitCOk s.cfg s.c) :
    UnitCOk s.cfg (setimodeEffect v s).c := by
  have hr := unitCOk_reset s.cfg
  unfold setimodeEffect
  split
  · exact { h with pulse_lo := hr.pulse_lo, pulse_hi := hr.pulse_hi, phase_lt := hr.phase_lt }
  · exact h

/-- SETTMODE restarts the fade timeline at 0 (42_compositor_config.md R155). -/
theorem settmodeEffect_unitCOk {s : State} (v : BitVec 8) (h : UnitCOk s.cfg s.c) :
    UnitCOk s.cfg (settmodeEffect v s).c := by
  unfold settmodeEffect
  split
  · exact { h with fade_le := fun i => by simp }
  · exact h

/-- A command that takes effect keeps unit C's invariant. -/
theorem exec_unitCOk {i : Instr} {s t : State} (hx : exec i s = .next t) (h : UnitCOk s.cfg s.c) : UnitCOk s.cfg t.c := by
  obtain hc | ⟨-, -, hc⟩ | ⟨-, hl, hc⟩ := exec_c_cases hx <;> rw [hc]
  · exact h
  · exact { h with }
  · cases i
    case nop => exact h
    case read x => exact (emitResponse_c _ s).symm ▸ h
    case raw d => exact (rawEffect_c d s).symm ▸ h
    case tick e => exact tickEffect_unitCOk _ h
    case setimode v => exact setimodeEffect_unitCOk v h
    case settmode v => exact settmodeEffect_unitCOk v h
    case setbri | setspd | seticol | settcol | setupc | setraw | settouch | setpc | clrpc => exact { h with }
    all_goals simp [Instr.opcode, Opcode.legalOn] at hl

/-! ### The step -/

theorem exec_keeps_inv {i : Instr} {s t : State} (hx : exec i s = .next t) (h : Inv s)
    (hidle : s.port = .a → s.a.parser = .idle) : Inv t := by
  obtain ⟨ha, hc⟩ := (inv_iff s).mp h
  obtain ⟨-, -, hcfg, -⟩ := exec_frame hx
  rw [inv_iff, hcfg]
  exact ⟨exec_unitAOk hx ha hidle, exec_unitCOk hx hc⟩

theorem setPending_keeps_inv {s : State} (p : Port) (ws : List Word) (h : Inv s) : Inv (setPending s p ws) := by
  cases p <;> exact { h with }

/-- A free port's parser may move to any state that a run can reach. -/
theorem setParser_keeps_inv {s : State} {p : Port} {q : Parser} (hq : ParserOk q) (hfree : heldBy s p = none)
    (h : Inv s) : Inv (setParser s p q) := by
  cases p
  · have hw : s.a.fuseWait = none := hfree
    exact { h with parser_a := hq, wait_idle := fun fw hfw => by simp [setParser, hw] at hfw }
  · exact { h with parser_c := hq }

theorem badCmd_keeps_inv {s : State} (h : Inv s) : Inv (badCmd s) := by
  unfold badCmd setErr
  split <;> exact { h with }

theorem takeEffect_keeps_inv {p : Port} {cmd : Command} {s t : State} (ht : takeEffect p cmd s = .next t)
    (h : Inv s) (hidle : parserOf s p = .idle) : Inv t := by
  have hport : Inv { s with port := p } := { h with }
  obtain ⟨i, -, hx⟩ | rfl := takeEffect_cases ht
  · exact exec_keeps_inv hx hport (by rintro rfl; exact hidle)
  · exact badCmd_keeps_inv hport

/-- The parser of a port is in a state that a run can reach. -/
theorem parserOf_ok {s : State} (h : Inv s) (p : Port) : ParserOk (parserOf s p) := by
  cases p
  · exact h.parser_a
  · exact h.parser_c

/-- Only port A is ever held, and its parser is Idle then (60_exceptions.md R256). -/
theorem fuseContinue_keeps_inv {p : Port} {fw : FuseWait} {s : State} (hheld : heldBy s p = some fw) (h : Inv s) :
    Inv (fuseContinue fw s) := by
  cases p
  · obtain ⟨ha, hc⟩ := (inv_iff s).mp h
    rw [inv_iff, fuseContinue_cfg]
    refine ⟨fuseContinue_unitAOk ha (h.wait_idle fw hheld), ?_⟩
    obtain ⟨_, _, _, _, _, hf⟩ := fuseContinue_frame fw s
    rw [hf]
    exact hc
  · simp [heldBy] at hheld

theorem unitTurn_keeps_inv {p : Port} {s t : State} (ht : unitTurn p s = .next t) (h : Inv s) : Inv t := by
  obtain ⟨fw, hheld, rfl⟩ | ⟨-, -, rfl⟩ | ⟨w, rest, hfree, -, -, rfl⟩ | ⟨w, rest, cmd, hfree, -, hcmd, htake⟩ :=
    unitTurn_cases ht
  · exact fuseContinue_keeps_inv hheld h
  · exact h
  all_goals
    obtain ⟨hok, hdone⟩ := acceptWord_spec (parserOf_ok h p) w
    have hnext := setParser_keeps_inv hok (by rwa [heldBy_setPending]) (setPending_keeps_inv p rest h)
  · exact hnext
  · obtain ⟨hidle, -⟩ := hdone cmd hcmd
    exact takeEffect_keeps_inv htake hnext (by rwa [parserOf_setParser])

theorem handleEvent_keeps_inv {ev : Event} {s t : State} (ht : handleEvent ev s = .next t) (h : Inv s) : Inv t := by
  cases ev <;> simp only [handleEvent, Host.Outcome.next.injEq] at ht
  case unit p => exact unitTurn_keeps_inv ht h
  all_goals subst ht
  case send p w => exact setPending_keeps_inv p _ h
  case time ms => exact { h with }
  case answer a m => exact { h with }
  case reset => exact (inv_iff _).mpr ⟨unitAOk_reset s.cfg, unitCOk_reset s.cfg⟩

/-- Settles O11: a step is one event, and each event keeps the invariant. -/
theorem stepKeepsTheInvariant : Obligations.StepKeepsTheInvariant := by
  unfold Obligations.StepKeepsTheInvariant
  intro s t h ht
  obtain ⟨-, rfl⟩ | ⟨ev, es, -, hev⟩ := step_cases ht
  · exact h
  · exact handleEvent_keeps_inv hev { h with }

end Sys2Proof.Machine
end

section
/-! PROOFS. What stands on the interfaces, and what the two units share: the mailbox alone
(spec/20_memory.md R60 to R77). -/

namespace Sys2Proof.Machine

/-! ### The world outside the block -/

/-- A step with an event left is that event, the list moved on. -/
theorem step_of_events {s : State} {ev : Event} {es : List Event} (h : s.io.events = ev :: es) :
    step s = handleEvent ev { s with io := { s.io with events := es } } := by
  unfold step
  rw [h]

/-- Settles O60: each of the four events is its own update of the interfaces. -/
theorem hostAndAdaptersActOnTheirInterfaces : Obligations.HostAndAdaptersActOnTheirInterfaces := by
  unfold Obligations.HostAndAdaptersActOnTheirInterfaces
  refine fun s es => ⟨fun w h => step_of_events h, fun w h => step_of_events h, fun t h => step_of_events h,
    fun a m h => ⟨s.io.sense.set a (s.io.sense[a] ++ [m]), step_of_events h, fun k => ?_⟩⟩
  by_cases hk : k = a
  · subst hk; simp
  · have hne : a.val ≠ k.val := fun e => hk (Fin.ext e.symm)
    simp [hk, hne]

/-! ### What a command does to the interfaces -/

/-- What an effect can do to the interfaces: nothing, one response by READ, answers used by FUSE, or one frame
by TICK or RAW. -/
theorem effectOf_io_cases (i : Instr) (s : State) :
    (effectOf i s).io = s.io ∨
    (∃ x w, i = .read x ∧ s.port = .a ∧ (effectOf i s).io = { s.io with respA := s.io.respA ++ [w] }) ∨
    (∃ x w, i = .read x ∧ s.port = .c ∧ (effectOf i s).io = { s.io with respC := s.io.respC ++ [w] }) ∨
    (∃ q, i = .fuse ∧ (effectOf i s).io = { s.io with sense := q }) ∨
    (∃ px, ((∃ e, i = .tick e) ∨ ∃ d, i = .raw d) ∧
      (effectOf i s).io = { s.io with frames := s.io.frames ++ [px] }) := by
  cases i
  case read x =>
    cases hp : s.port
    · exact .inr (.inl ⟨x, _, rfl, rfl, by rw [effectOf, readEffect_a hp]⟩)
    · exact .inr (.inr (.inl ⟨x, _, rfl, rfl, by rw [effectOf, readEffect_c hp]⟩))
  case fuse =>
    obtain ⟨_, _, _, _, q, hf⟩ := fuseEffect_frame s
    exact .inr (.inr (.inr (.inl ⟨q, rfl, by rw [effectOf, hf]⟩)))
  case tick e =>
    cases hr : s.c.rawen
    · exact .inr (.inr (.inr (.inr ⟨_, .inl ⟨e, rfl⟩, by
        rw [effectOf, tickEffect_render hr, renderFrame, emitFrame, takeTouch_io]⟩)))
    · exact .inl (by rw [effectOf, tickEffect_raw hr, takeTouch_io])
  case raw d =>
    obtain hr | ⟨px, hr⟩ := rawEffect_frame d s
    · exact .inl (by rw [effectOf, hr])
    · exact .inr (.inr (.inr (.inr ⟨px, .inr ⟨d, rfl⟩, by rw [effectOf, hr]⟩)))
  case setgmode v => exact .inl (by simp only [effectOf, setgmodeEffect]; split <;> rfl)
  case setimode v => exact .inl (by simp only [effectOf, setimodeEffect]; split <;> rfl)
  case settmode v => exact .inl (by simp only [effectOf, settmodeEffect]; split <;> rfl)
  all_goals exact .inl rfl

/-- What a command can do to the interfaces: as its effect, and each only on a port its row names. -/
theorem exec_io_cases {i : Instr} {s t : State} (h : exec i s = .next t) :
    t.io = s.io ∨
    (∃ x w, i = .read x ∧ s.port = .a ∧ t.io = { s.io with respA := s.io.respA ++ [w] }) ∨
    (∃ x w, i = .read x ∧ s.port = .c ∧ t.io = { s.io with respC := s.io.respC ++ [w] }) ∨
    (∃ q, i = .fuse ∧ s.port = .a ∧ t.io = { s.io with sense := q }) ∨
    (∃ px, ((∃ e, i = .tick e) ∨ ∃ d, i = .raw d) ∧ s.port = .c ∧
      t.io = { s.io with frames := s.io.frames ++ [px] }) := by
  obtain ⟨hl, rfl⟩ | ⟨-, rfl⟩ := exec_cases h
  · obtain hio | hio | hio | ⟨q, rfl, hio⟩ | ⟨px, hi, hio⟩ := effectOf_io_cases i s
    · exact .inl hio
    · exact .inr (.inl hio)
    · exact .inr (.inr (.inl hio))
    · exact .inr (.inr (.inr (.inl ⟨q, rfl, by simpa [Instr.opcode, Opcode.legalOn] using hl, hio⟩)))
    · refine .inr (.inr (.inr (.inr ⟨px, hi, ?_, hio⟩)))
      obtain ⟨e, rfl⟩ | ⟨d, rfl⟩ := hi <;> simpa [Instr.opcode, Opcode.legalOn] using hl
  · exact .inl (badCmd_io s)

/-- Settles O23: each case of `exec_io_cases` writes the one stream it names. -/
theorem writersOfTheStreams : Obligations.WritersOfTheStreams := by
  unfold Obligations.WritersOfTheStreams
  intro i s t h
  obtain hio | ⟨x, w, hi, hp, hio⟩ | ⟨x, w, hi, hp, hio⟩ | ⟨q, hi, hp, hio⟩ | ⟨px, hi, hp, hio⟩ := exec_io_cases h
  · simp [hio]
  all_goals simp [hio, hi, hp]

/-- A command takes no word of either port. -/
theorem exec_pending {i : Instr} {s t : State} (h : exec i s = .next t) (q : Port) : pending t q = pending s q := by
  obtain ⟨-, -, -, -, hA, hC, -⟩ := writersOfTheStreams i s t h
  cases q
  · exact hA
  · exact hC

/-! ### A unit's turn takes words in order -/

/-- A waiting FUSE takes no word (20_memory.md R68). -/
theorem fuseContinue_pending (fw : FuseWait) (s : State) (q : Port) : pending (fuseContinue fw s) q = pending s q := by
  obtain ⟨_, _, _, _, _, hf⟩ := fuseContinue_frame fw s
  rw [hf]
  cases q <;> rfl

theorem badCmd_pending (s : State) (q : Port) : pending (badCmd s) q = pending s q := by
  cases q <;> simp [pending]

theorem takeEffect_pending {p : Port} {cmd : Command} {s t : State} (h : takeEffect p cmd s = .next t) (q : Port) :
    pending t q = pending s q := by
  have hport : pending { s with port := p } q = pending s q := by cases q <;> rfl
  obtain ⟨i, -, hx⟩ | rfl := takeEffect_cases h
  · exact (exec_pending hx q).trans hport
  · exact (badCmd_pending _ q).trans hport

theorem pending_setPending_of_ne {p q : Port} (h : q ≠ p) (s : State) (ws : List Word) :
    pending (setPending s p ws) q = pending s q := by
  cases p <;> cases q
  case a.c | c.a => rfl
  all_goals exact absurd rfl h

/-- A turn takes no word, or the first of its own; the other port's words stay. -/
theorem unitTurn_pending {p : Port} {s t : State} (h : unitTurn p s = .next t) :
    (pending t p = pending s p ∨ ∃ w, pending s p = w :: pending t p) ∧
    (∀ q, q ≠ p → pending t q = pending s q) := by
  obtain ⟨fw, -, rfl⟩ | ⟨-, -, rfl⟩ | ⟨w, rest, -, hw, -, rfl⟩ | ⟨w, rest, cmd, -, hw, -, htake⟩ := unitTurn_cases h
  · exact ⟨.inl (fuseContinue_pending fw s p), fun q _ => fuseContinue_pending fw s q⟩
  · exact ⟨.inl rfl, fun _ _ => rfl⟩
  · exact ⟨.inr ⟨w, by simpa using hw⟩, fun q hq => by simpa using pending_setPending_of_ne hq s rest⟩
  · have hkeep := fun q => (takeEffect_pending htake q).trans (pending_setParser _ p q _)
    exact ⟨.inr ⟨w, by rw [hkeep, pending_setPending, hw]⟩,
      fun q hq => (hkeep q).trans (pending_setPending_of_ne hq s rest)⟩

/-- Settles O19: the step is the unit's turn. -/
theorem wordsAreTakenInOrder : Obligations.WordsAreTakenInOrder := by
  unfold Obligations.WordsAreTakenInOrder
  intro s t p q es hev ht
  rw [step_of_events hev] at ht
  obtain ⟨hown, hother⟩ := unitTurn_pending ht
  cases p <;> exact ⟨hown, fun hq => (hother q hq).trans (by cases q <;> rfl)⟩

/-! ### A unit's turn changes nothing of the other unit but the mailbox -/

/-- What port p's unit leaves: the other unit's registers, words and streams; of the mailbox all but Send(BITMAP)
on port A and Take on port C. -/
def LeavesOtherUnit (p : Port) (s t : State) : Prop :=
  match p with
  | .a => t.c = s.c ∧ t.io.cmdC = s.io.cmdC ∧ t.io.respC = s.io.respC ∧ t.io.frames = s.io.frames ∧
      (t.mbox = s.mbox ∨ t.mbox = ⟨s.a.bitmap, true⟩)
  | .c => t.a = s.a ∧ t.io.cmdA = s.io.cmdA ∧ t.io.respA = s.io.respA ∧ t.io.sense = s.io.sense ∧
      (t.mbox = s.mbox ∨ t.mbox = ⟨s.mbox.val, false⟩)

@[simp] theorem tickEffect_mbox (e : Nat) (s : State) : (tickEffect e s).mbox = ⟨s.mbox.val, false⟩ := by
  cases hr : s.c.rawen
  · rw [tickEffect_render hr, renderFrame, emitFrame_mbox, takeTouch_mbox]
  · rw [tickEffect_raw hr, takeTouch_mbox]

/-- What a command can do to the mailbox: Send(BITMAP) on port A, Take on port C. -/
theorem exec_mbox_cases {i : Instr} {s t : State} (h : exec i s = .next t) :
    t.mbox = s.mbox ∨ (s.port = .a ∧ t.mbox = ⟨s.a.bitmap, true⟩) ∨ (s.port = .c ∧ t.mbox = ⟨s.mbox.val, false⟩) := by
  by_cases hm : t.mbox = s.mbox
  · exact .inl hm
  obtain ⟨hl, rfl⟩ | ⟨-, rfl⟩ := exec_cases h
  · obtain rfl | ⟨e, rfl⟩ := exec_mbox_writers h hm
    · exact .inr (.inl ⟨by simpa [Instr.opcode, Opcode.legalOn] using hl, rfl⟩)
    · exact .inr (.inr ⟨by simpa [Instr.opcode, Opcode.legalOn] using hl, tickEffect_mbox e.toNat s⟩)
  · exact absurd (badCmd_mbox s) hm

theorem badCmd_leavesOtherUnit (s : State) : LeavesOtherUnit s.port s (badCmd s) := by
  cases hp : s.port
  · simp [LeavesOtherUnit, badCmd_c_of_a s hp]
  · simp [LeavesOtherUnit, badCmd_a_of_c s hp]

theorem fuseContinue_leavesOtherUnit (fw : FuseWait) (s : State) : LeavesOtherUnit .a s (fuseContinue fw s) := by
  obtain ⟨_, _, _, _, _, hf⟩ := fuseContinue_frame fw s
  rw [hf]
  exact ⟨rfl, rfl, rfl, rfl, .inl rfl⟩

theorem exec_leavesOtherUnit {i : Instr} {s t : State} (h : exec i s = .next t) : LeavesOtherUnit s.port s t := by
  have hmbox := exec_mbox_cases h
  have hio := exec_io_cases h
  cases hp : s.port <;>
    simp only [hp, reduceCtorEq, true_and, false_and, and_false, exists_false, false_or, or_false] at hmbox hio
  · have hc : t.c = s.c := by simpa [hp] using exec_c_cases h
    obtain hio | ⟨x, w, -, hio⟩ | ⟨q, -, hio⟩ := hio <;> simp [LeavesOtherUnit, hc, hio, hmbox]
  · have ha : t.a = s.a := by simpa [hp] using exec_a_cases h
    obtain hio | ⟨x, w, -, hio⟩ | ⟨px, -, hio⟩ := hio <;> simp [LeavesOtherUnit, ha, hio, hmbox]

theorem takeEffect_leavesOtherUnit {p : Port} {cmd : Command} {s t : State} (h : takeEffect p cmd s = .next t) :
    LeavesOtherUnit p s t := by
  have hport : LeavesOtherUnit p { s with port := p } t := by
    obtain ⟨i, -, hx⟩ | rfl := takeEffect_cases h
    · exact exec_leavesOtherUnit hx
    · exact badCmd_leavesOtherUnit { s with port := p }
  cases p <;> exact hport

/-- Taking a word is port p's own: what is left of the other unit after it is left after the whole turn. -/
theorem LeavesOtherUnit.of_take {p : Port} {s t : State} {q : Parser} {ws : List Word}
    (h : LeavesOtherUnit p (setParser (setPending s p ws) p q) t) : LeavesOtherUnit p s t := by
  cases p <;> exact h

theorem LeavesOtherUnit.refl (p : Port) (s : State) : LeavesOtherUnit p s s := by
  cases p <;> exact ⟨rfl, rfl, rfl, rfl, .inl rfl⟩

theorem unitTurn_leavesOtherUnit {p : Port} {s t : State} (h : unitTurn p s = .next t) : LeavesOtherUnit p s t := by
  obtain ⟨fw, hheld, rfl⟩ | ⟨-, -, rfl⟩ | ⟨w, rest, -, -, -, rfl⟩ | ⟨w, rest, cmd, -, -, -, htake⟩ := unitTurn_cases h
  · cases p
    · exact fuseContinue_leavesOtherUnit fw s
    · simp [heldBy] at hheld
  · exact .refl p _
  · exact .of_take (.refl p _)
  · exact .of_take (takeEffect_leavesOtherUnit htake)

/-- Settles O17: the step is the unit's turn. -/
theorem unitsShareOnlyTheMailbox : Obligations.UnitsShareOnlyTheMailbox := by
  unfold Obligations.UnitsShareOnlyTheMailbox
  intro s t es ht
  constructor <;> intro hev <;> rw [step_of_events hev] at ht
  · have hturn := unitTurn_leavesOtherUnit (p := .a) ht
    exact hturn
  · have hturn := unitTurn_leavesOtherUnit (p := .c) ht
    exact hturn

/-! ### Updates that a command does not read

"The answer does not depend on r" is said as: the command commutes with the update `f` that replaces r. -/

/-- A command commutes with an update that keeps the port and commutes with its effect and with BadCmd. -/
theorem exec_of_commutes {f : State → State} {i : Instr} {s t : State} (hport : (f s).port = s.port)
    (heff : i.opcode.legalOn s.port = true → effectOf i (f s) = f (effectOf i s))
    (hbad : badCmd (f s) = f (badCmd s)) (h : exec i s = .next t) : exec i (f s) = .next (f t) := by
  obtain ⟨hl, rfl⟩ | ⟨hl, rfl⟩ := exec_cases h
  · rw [exec_of_legal (hport.symm ▸ hl), heff hl]
  · rw [exec_of_illegal (hport.symm ▸ hl), hbad]

/-- TICK is its mailbox take and its rendering, so it commutes with an update that both commute with. -/
theorem tickEffect_of_commutes {f : State → State} {e : Nat} {s : State} (htake : takeTouch (f s) = f (takeTouch s))
    (hrender : ∀ u, renderFrame e (f u) = f (renderFrame e u)) (hrawen : ∀ u, (f u).c.rawen = u.c.rawen) :
    tickEffect e (f s) = f (tickEffect e s) := by
  simp only [tickEffect, htake, hrender, hrawen, apply_ite f]

/-! ### TIME_MS -/

/-- No effect but FUSE's reads TIME_MS or writes it (20_memory.md R65). -/
theorem effectOf_hostTime {i : Instr} (hi : i ≠ .fuse) (ms : Word) (s : State) :
    effectOf i (hostTime ms s) = hostTime ms (effectOf i s) := by
  cases i <;> simp only [effectOf]
  case fuse => exact absurd rfl hi
  case read x =>
    cases hp : s.port
    · rw [readEffect_a hp, readEffect_a (s := hostTime ms s) hp]; rfl
    · rw [readEffect_c hp, readEffect_c (s := hostTime ms s) hp]; rfl
  case tick e => exact tickEffect_of_commutes (by rw [takeTouch_eq, takeTouch_eq]; rfl) (fun _ => rfl) fun _ => rfl
  case raw d => simp only [rawEffect, apply_ite (hostTime ms)]; rfl
  case setgmode v => simp only [setgmodeEffect, apply_ite (hostTime ms)]; rfl
  case setimode v => simp only [setimodeEffect, apply_ite (hostTime ms)]; rfl
  case settmode v => simp only [settmodeEffect, apply_ite (hostTime ms)]; rfl
  all_goals rfl

theorem badCmd_hostTime (ms : Word) (s : State) : badCmd (hostTime ms s) = hostTime ms (badCmd s) := by
  cases hp : s.port <;> simp [badCmd, setErr, hp, hostTime]

/-- Settles O20: a command commutes with presenting another TIME_MS, unless it is FUSE. -/
theorem onlyFuseReadsTheTime : Obligations.OnlyFuseReadsTheTime := by
  unfold Obligations.OnlyFuseReadsTheTime
  intro i s t ms hi h
  exact exec_of_commutes (f := hostTime ms) rfl (fun _ => effectOf_hostTime hi ms s) (badCmd_hostTime ms s) h

/-! ### The other unit's registers -/

/-- The state with other registers in the unit that is not port p's. -/
def replaceOther (p : Port) (a' : UnitA) (c' : UnitC) (s : State) : State :=
  match p with
  | .a => { s with c := c' }
  | .c => { s with a := a' }

section
variable {p : Port} {a' : UnitA} {c' : UnitC}

theorem replaceOther_port (s : State) : (replaceOther p a' c' s).port = s.port := by cases p <;> rfl

theorem replaceOther_withPort (s : State) (q : Port) :
    { replaceOther p a' c' s with port := q } = replaceOther p a' c' { s with port := q } := by cases p <;> rfl

theorem heldBy_replaceOther (s : State) : heldBy (replaceOther p a' c' s) p = heldBy s p := by cases p <;> rfl

theorem pending_replaceOther (s : State) : pending (replaceOther p a' c' s) p = pending s p := by cases p <;> rfl

theorem parserOf_replaceOther (s : State) : parserOf (replaceOther p a' c' s) p = parserOf s p := by cases p <;> rfl

theorem setPending_replaceOther (s : State) (ws : List Word) :
    setPending (replaceOther p a' c' s) p ws = replaceOther p a' c' (setPending s p ws) := by cases p <;> rfl

theorem setParser_replaceOther (s : State) (q : Parser) :
    setParser (replaceOther p a' c' s) p q = replaceOther p a' c' (setParser s p q) := by cases p <;> rfl

theorem badCmd_replaceOther {s : State} (hp : s.port = p) :
    badCmd (replaceOther p a' c' s) = replaceOther p a' c' (badCmd s) := by
  cases p <;> simp [badCmd, setErr, replaceOther, hp]

theorem fuseContinue_replaceOther (fw : FuseWait) (s : State) :
    fuseContinue fw (replaceOther .a a' c' s) = replaceOther .a a' c' (fuseContinue fw s) := by
  simp only [fuseContinue, apply_ite (replaceOther .a a' c')]
  rfl

/-- No effect reads or writes the unit of the port it is not performed on (20_memory.md R71). -/
theorem effectOf_replaceOther {i : Instr} {s : State} (hp : s.port = p) (hl : i.opcode.legalOn p = true) :
    effectOf i (replaceOther p a' c' s) = replaceOther p a' c' (effectOf i s) := by
  cases p <;> cases i <;> simp only [effectOf]
  case a.read x => rw [readEffect_a hp, readEffect_a (s := replaceOther .a a' c' s) hp]; rfl
  case a.fuse =>
    simp only [fuseEffect, apply_ite (replaceOther .a a' c'), ← fuseContinue_replaceOther]
    rfl
  case a.setgmode v => simp only [setgmodeEffect, apply_ite (replaceOther .a a' c')]; rfl
  case a.nop | a.brev | a.pubt | a.resolve | a.resolvei => rfl
  case c.read x => rw [readEffect_c hp, readEffect_c (s := replaceOther .c a' c' s) hp]; rfl
  case c.tick e => exact tickEffect_of_commutes (by rw [takeTouch_eq, takeTouch_eq]; rfl) (fun _ => rfl) fun _ => rfl
  case c.raw d => simp only [rawEffect, apply_ite (replaceOther .c a' c')]; rfl
  case c.setimode v => simp only [setimodeEffect, apply_ite (replaceOther .c a' c')]; rfl
  case c.settmode v => simp only [settmodeEffect, apply_ite (replaceOther .c a' c')]; rfl
  case c.nop | c.setbri | c.setspd | c.seticol | c.settcol | c.setupc | c.setraw | c.settouch | c.setpc | c.clrpc => rfl
  all_goals simp [Instr.opcode, Opcode.legalOn] at hl

theorem exec_replaceOther {i : Instr} {s t : State} (hp : s.port = p) (h : exec i s = .next t) :
    exec i (replaceOther p a' c' s) = .next (replaceOther p a' c' t) :=
  exec_of_commutes (f := replaceOther p a' c') (replaceOther_port s)
    (fun hl => effectOf_replaceOther hp (hp ▸ hl)) (badCmd_replaceOther hp) h

theorem takeEffect_replaceOther {cmd : Command} {s t : State} (h : takeEffect p cmd s = .next t) :
    takeEffect p cmd (replaceOther p a' c' s) = .next (replaceOther p a' c' t) := by
  unfold takeEffect at h ⊢
  rw [replaceOther_withPort]
  cases hd : decodeCommand cmd.word cmd.data with
  | ok i =>
    rw [hd] at h
    exact exec_replaceOther rfl h
  | error e =>
    rw [hd] at h
    cases e
    case undefinedOpcode | reservedBits =>
      cases h
      exact congrArg Host.Outcome.next (badCmd_replaceOther rfl)
    case dataCount | truncated => cases h

theorem takeWord_replaceOther {w : Word} {s t : State} (h : takeWord p w s = .next t) :
    takeWord p w (replaceOther p a' c' s) = .next (replaceOther p a' c' t) := by
  unfold takeWord at h ⊢
  rw [parserOf_replaceOther, setParser_replaceOther]
  cases hcmd : (acceptWord (parserOf s p) w).2 with
  | none =>
    rw [hcmd] at h
    cases h
    rfl
  | some cmd =>
    rw [hcmd] at h
    exact takeEffect_replaceOther h

theorem unitTurn_replaceOther {s t : State} (h : unitTurn p s = .next t) :
    unitTurn p (replaceOther p a' c' s) = .next (replaceOther p a' c' t) := by
  unfold unitTurn at h ⊢
  rw [heldBy_replaceOther, pending_replaceOther]
  cases hheld : heldBy s p with
  | some fw =>
    cases p
    · rw [hheld] at h
      cases h
      exact congrArg _ (fuseContinue_replaceOther fw s)
    · simp [heldBy] at hheld
  | none =>
    rw [hheld] at h
    cases hw : pending s p with
    | nil =>
      rw [hw] at h
      cases h
      rfl
    | cons w rest =>
      rw [hw] at h
      simp only [setPending_replaceOther]
      exact takeWord_replaceOther h

end

/-- Settles O18: the step is the unit's turn, and the turn commutes with replacing the other unit's registers. -/
theorem unitsCannotReadEachOther : Obligations.UnitsCannotReadEachOther := by
  unfold Obligations.UnitsCannotReadEachOther
  intro s t es ht
  constructor <;> intro hev r' <;> rw [step_of_events hev] at ht
  · rw [step_of_events (s := { s with c := r' }) hev]
    exact unitTurn_replaceOther (p := .a) (a' := s.a) (c' := r') ht
  · rw [step_of_events (s := { s with a := r' }) hev]
    exact unitTurn_replaceOther (p := .c) (a' := r') (c' := s.c) ht

/-! ### The mailbox between a PUBT and a TICK -/

/-- No command but PUBT and TICK changes the mailbox (10_state.md R30). -/
theorem exec_keeps_mbox {i : Instr} {s t : State} (hp : i ≠ .pubt) (ht : ∀ e, i ≠ .tick e) (h : exec i s = .next t) :
    t.mbox = s.mbox := by
  by_contra hne
  obtain hi | ⟨e, hi⟩ := exec_mbox_writers h hne
  · exact hp hi
  · exact ht e hi

theorem tickEffect_touch (e : Nat) (s : State) : (tickEffect e s).c.touch = touchAfterTake s := by
  obtain ht | ht := tickEffect_c_cases e s <;> rw [ht]
  obtain ⟨_, _, _, _, _, _, _, _, _, _, _, _, hr, -⟩ := renderLayers_frame s.cfg e { s.c with touch := touchAfterTake s }
  rw [hr]

/-- Settles O59: what PUBT sent stays in the mailbox until the TICK, since only those two write it. -/
theorem tickTakesTheLatestSend : Obligations.TickTakesTheLatestSend := by
  unfold Obligations.TickTakesTheLatestSend
  intro s t u v is e hs hpubt his hfold htick
  have hsent : t.mbox = ⟨s.a.bitmap, true⟩ := by
    rw [exec_of_legal (by rw [hs]; rfl)] at hpubt
    cases hpubt
    rfl
  have hkept : u.mbox = ⟨s.a.bitmap, true⟩ := by
    refine SatisfiesM_Option_eq.mp (List.satisfiesM_foldlM (motive := fun st => st.mbox = ⟨s.a.bitmap, true⟩) hsent
      fun st hm x hx => SatisfiesM_Option_eq.mpr fun st' hst => ?_) u hfold
    obtain ⟨hnotPubt, hnotTick⟩ := his x hx
    split at hst
    case h_1 st'' hexec =>
      cases hst
      have hkeep := exec_keeps_mbox hnotPubt hnotTick hexec
      exact hkeep.trans hm
    case h_2 => cases hst
  rw [exec_of_legal rfl] at htick
  cases htick
  simp [effectOf, tickEffect_touch, touchAfterTake, hkept]

end Sys2Proof.Machine
end

section
/-! PROOFS. The decoder and the encoder are inverse to each other (spec/30_encoding.md R80 to R91). -/

namespace Sys2Proof

/-! ### The operand field of a format -/

/-- How many low bits of [23:0] a format uses; the bits above them are reserved (30_encoding.md R82). -/
def Format.width : Format → Nat
  | .z => 0
  | .v8 => 8
  | .u24 => 24
  | .c => 24
  | .b1 => 1
  | .n5 => 5

theorem getElem_reservedMask (f : Format) (k : Fin 24) : f.reservedMask[k] = decide (f.width ≤ k.val) := by
  cases f <;> decide +revert

/-- The reserved bits are 0 exactly when the operand field is below 2 to the format's width. -/
theorem reservedClear_iff (f : Format) (w : Word) :
    reservedClear f w = true ↔ (operandField w).toNat < 2 ^ f.width := by
  have hbit (k : Fin 24) : (operandField w &&& f.reservedMask)[k] =
      ((operandField w).toNat.testBit k && decide (f.width ≤ k.val)) := by
    rw [← getElem_reservedMask]
    simp [BitVec.getElem_eq_testBit_toNat]
  unfold reservedClear
  rw [beq_iff_eq]
  constructor
  · intro h
    refine Nat.lt_pow_two_of_testBit _ fun k hk => ?_
    by_cases hlt : k < 24
    · simpa [h, hk] using (hbit ⟨k, hlt⟩).symm
    · exact BitVec.getLsbD_of_ge _ _ (by omega)
  · intro h
    ext k hk
    refine (hbit ⟨k, hk⟩).trans ?_
    by_cases hle : f.width ≤ k
    · simp [Nat.testBit_lt_two_pow (h.trans_le (Nat.pow_le_pow_right (by decide) hle))]
    · simp [hle]

/-- The low bits of a command word are those of its operand field. -/
theorem extractLsb'_zero_eq {n : Nat} (hn : n ≤ 24) (w : Word) : w.extractLsb' 0 n = (operandField w).setWidth n := by
  ext k hk
  simp [operandField, show k < 24 by omega]

theorem ofBool_getLsbD_zero_eq (w : Word) : BitVec.ofBool (w.getLsbD 0) = (operandField w).setWidth 1 := by
  rw [← extractLsb'_zero_eq (by decide)]
  ext k hk
  obtain rfl : k = 0 := by omega
  simp

/-- An operand field with nothing above its low `n` bits is those bits. -/
theorem setWidth_extractLsb'_of_lt {n : Nat} {w : Word} (hn : n ≤ 24) (h : (operandField w).toNat < 2 ^ n) :
    (w.extractLsb' 0 n).setWidth 24 = operandField w := by
  rw [extractLsb'_zero_eq hn]
  apply BitVec.eq_of_toNat_eq
  rw [BitVec.toNat_setWidth, BitVec.toNat_setWidth, Nat.mod_eq_of_lt h, Nat.mod_eq_of_lt (operandField w).isLt]

theorem setWidth_ofBool_of_lt {w : Word} (h : (operandField w).toNat < 2 ^ 1) :
    (BitVec.ofBool (w.getLsbD 0)).setWidth 24 = operandField w := by
  rw [ofBool_getLsbD_zero_eq, ← extractLsb'_zero_eq (by decide), setWidth_extractLsb'_of_lt (by decide) h]

theorem toNat_setWidth_lt {n : Nat} (hn : n ≤ 24) (x : BitVec n) : (x.setWidth 24).toNat < 2 ^ n := by
  rw [BitVec.toNat_setWidth_of_le hn]
  exact x.isLt

/-! ### One instruction -/

/-- An instruction's operands set no reserved bit of its format (30_encoding.md R83). -/
theorem operands_lt (i : Instr) : i.operands.toNat < 2 ^ i.opcode.format.width := by
  cases i with
  | read v | setgmode v | setimode v | settmode v => exact toNat_setWidth_lt (by decide) v
  | brev n v => exact toNat_setWidth_lt (by decide) n
  | setupc b | setraw b => exact toNat_setWidth_lt (by decide) (BitVec.ofBool b)
  | setbri u | setspd u | tick u => exact u.isLt
  | seticol c | settcol c | setpc c => exact (colorWord c).isLt
  | nop | fuse | pubt | resolve | resolvei | settouch | clrpc | raw => exact Nat.one_pos

theorem length_dataWords {i : Instr} (h : i.wf = true) : i.dataWords.length = i.opcode.nd := by
  cases i with
  | raw d => exact beq_iff_eq.mp h
  | _ => rfl

/-- An instruction's own command word and data words build it again (30_encoding.md R83, R84). -/
theorem buildInstr_commandWord (i : Instr) : buildInstr i.opcode (commandWord i) i.dataWords = .ok i := by
  have hlow {n : Nat} (hn : n ≤ 24) : (commandWord i).extractLsb' 0 n = i.operands.setWidth n := by
    rw [extractLsb'_zero_eq hn, operandField_commandWord]
  have hbit : BitVec.ofBool ((commandWord i).getLsbD 0) = i.operands.setWidth 1 := by
    rw [ofBool_getLsbD_zero_eq, operandField_commandWord]
  cases i with
  | setupc b | setraw b =>
    have hb := BitVec.ofBool_eq_iff_eq.mp (hbit.trans (BitVec.setWidth_setWidth_of_le (BitVec.ofBool b) (by decide)))
    simp only [buildInstr, Instr.opcode, hb]
  | _ => simp [buildInstr, Instr.opcode, Instr.dataWords, Instr.operands, withDataWord, hlow]

theorem decodeCommand_commandWord {i : Instr} (h : i.wf = true) :
    decodeCommand (commandWord i) i.dataWords = .ok i := by
  have hclear : reservedClear i.opcode.format (commandWord i) = true := by
    rw [reservedClear_iff, operandField_commandWord]
    exact operands_lt i
  simp [decodeCommand, length_dataWords h, hclear, buildInstr_commandWord]

theorem withDataWord_eq_ok {data : List Word} {f : Word → Instr} {i : Instr} (h : withDataWord data f = .ok i) :
    ∃ d, data = [d] ∧ i = f d := by
  unfold withDataWord at h
  split at h
  · exact ⟨_, rfl, by simpa using h.symm⟩
  · cases h

/-- What is built has the row, the operand field and the data words it was built from: no bit is dropped. -/
theorem buildInstr_eq_ok {o : Opcode} {w : Word} {data : List Word} {i : Instr} (h : buildInstr o w data = .ok i)
    (hlen : data.length = o.nd) (hclear : (operandField w).toNat < 2 ^ o.format.width) :
    i.wf = true ∧ i.opcode = o ∧ i.operands = operandField w ∧ i.dataWords = data := by
  have hzero (hz : (operandField w).toNat < 1) : 0 = operandField w :=
    BitVec.eq_of_toNat_eq (Nat.lt_one_iff.mp hz).symm
  cases o with
  | brev =>
    obtain ⟨d, rfl, rfl⟩ := withDataWord_eq_ok h
    exact ⟨rfl, rfl, setWidth_extractLsb'_of_lt (by decide) hclear, rfl⟩
  | resolvei | settouch =>
    obtain ⟨d, rfl, rfl⟩ := withDataWord_eq_ok h
    exact ⟨rfl, rfl, hzero hclear, rfl⟩
  | raw =>
    cases h
    exact ⟨beq_iff_eq.mpr hlen, rfl, hzero hclear, rfl⟩
  | nop | fuse | pubt | resolve | clrpc =>
    cases h
    exact ⟨rfl, rfl, hzero hclear, (List.eq_nil_of_length_eq_zero hlen).symm⟩
  | read | setgmode | setimode | settmode =>
    cases h
    exact ⟨rfl, rfl, setWidth_extractLsb'_of_lt (by decide) hclear,
      (List.eq_nil_of_length_eq_zero hlen).symm⟩
  | setupc | setraw =>
    cases h
    exact ⟨rfl, rfl, setWidth_ofBool_of_lt hclear,
      (List.eq_nil_of_length_eq_zero hlen).symm⟩
  | setbri | setspd | tick =>
    cases h
    exact ⟨rfl, rfl, rfl, (List.eq_nil_of_length_eq_zero hlen).symm⟩
  | seticol | settcol | setpc =>
    cases h
    exact ⟨rfl, rfl, colorWord_colorOfWord _, (List.eq_nil_of_length_eq_zero hlen).symm⟩

/-- A command word and data words decode to `i` exactly when they are those of `i` and `i` is well formed. -/
theorem decodeCommand_eq_ok_iff {w : Word} {data : List Word} {i : Instr} :
    decodeCommand w data = .ok i ↔ i.wf = true ∧ commandWord i = w ∧ i.dataWords = data := by
  constructor
  · intro h
    unfold decodeCommand at h
    cases ho : opcodeOfBits (opcodeField w) with
    | none => simp [ho] at h
    | some o =>
      simp only [ho] at h
      split_ifs at h with hlen hclear
      obtain ⟨hwf, hop, hfield, hdata⟩ := buildInstr_eq_ok h (not_not.mp hlen) ((reservedClear_iff _ _).mp hclear)
      refine ⟨hwf, ?_, hdata⟩
      rw [commandWord, hop, hfield, bits_of_opcodeOfBits ho, word_eq_fields]
  · rintro ⟨hwf, rfl, rfl⟩
    exact decodeCommand_commandWord hwf

/-! ### A word stream -/

/-- A stream decodes to `i` with a rest exactly when it is the words of `i`, well formed, and that rest
(30_encoding.md R81, R91). -/
theorem decode_eq_ok_iff {ws rest : List Word} {i : Instr} :
    decode ws = .ok (i, rest) ↔ i.wf = true ∧ encode i ++ rest = ws := by
  constructor
  · intro h
    cases ws with
    | nil => simp [decode] at h
    | cons w ws =>
      simp only [decode] at h
      split_ifs at h with hshort
      split at h
      · rename_i j hj
        obtain ⟨rfl, rfl⟩ : j = i ∧ _ = rest := by simpa using h
        obtain ⟨hwf, hw, hdata⟩ := decodeCommand_eq_ok_iff.mp hj
        refine ⟨hwf, ?_⟩
        rw [encode, hw, hdata, List.cons_append, List.take_append_drop]
      · cases h
  · rintro ⟨hwf, rfl⟩
    simp [decode, encode, ← length_dataWords hwf, decodeCommand_commandWord hwf]

/-- Settles O2: the words of a well-formed instruction are one of the streams of `decode_eq_ok_iff`. -/
theorem decodeOfEncodeIsTheInstruction : Obligations.DecodeOfEncodeIsTheInstruction := by
  unfold Obligations.DecodeOfEncodeIsTheInstruction
  exact fun i rest hwf => decode_eq_ok_iff.mpr ⟨hwf, rfl⟩

/-- Settles O3: the other direction of `decode_eq_ok_iff`. -/
theorem encodeOfDecodeIsTheWords : Obligations.EncodeOfDecodeIsTheWords := by
  unfold Obligations.EncodeOfDecodeIsTheWords
  exact fun ws i rest h => decode_eq_ok_iff.mp h

/-- Settles O1: each word list is closed, so the decoder is run on it. -/
theorem decodesWrittenOutWords : Obligations.DecodesWrittenOutWords := by
  unfold Obligations.DecodesWrittenOutWords
  decide

end Sys2Proof
end

section
/-! PROOFS. How a free port takes a command's words, and which commands then perform only BadCmd
(spec/30_encoding.md R81, R86 to R89, R93). -/

namespace Sys2Proof.Machine

/-! ### The opcode map by opcode value -/

/-- Column ND written out by opcode value is the model's (30_encoding.md R85, R88). -/
theorem ndOf_eq_dataWordsDue (op : BitVec 8) : ndOf op = dataWordsDue op := by
  cases ho : opcodeOfBits op with
  | some o =>
    obtain rfl := bits_of_opcodeOfBits ho
    cases o <;> rfl
  | none =>
    have hne (o : Opcode) : op ≠ o.bits := by
      rintro rfl
      simp at ho
    have hone : ¬(op = 0x11 ∨ op = 0x22 ∨ op = 0x38) := by
      rintro (h | h | h)
      · exact hne .brev h
      · exact hne .resolvei h
      · exact hne .settouch h
    have hraw : op ≠ 0x3C := hne .raw
    rw [ndOf, ho, dataWordsDue, if_neg hone, if_neg hraw]

/-! ### Taking a word -/

@[simp] theorem heldBy_takenTo (s : State) (p : Port) (rest : List Word) (es : List Event) :
    heldBy (takenTo s p rest es) p = heldBy s p := by cases p <;> rfl

@[simp] theorem parserOf_takenTo (s : State) (p : Port) (rest : List Word) (es : List Event) :
    parserOf (takenTo s p rest es) p = parserOf s p := by cases p <;> rfl

@[simp] theorem pending_takenTo (s : State) (p : Port) (rest : List Word) (es : List Event) :
    pending (takenTo s p rest es) p = rest := by cases p <;> rfl

@[simp] theorem takenTo_io_events (s : State) (p : Port) (rest : List Word) (es : List Event) :
    (takenTo s p rest es).io.events = es := by cases p <;> rfl

/-- Taking words and moving the parser do not disturb each other, and of two takings the last counts. -/
theorem takenTo_setParser_takenTo (s : State) (p : Port) (q : Parser) (ws rest : List Word) (fs es : List Event) :
    takenTo (setParser (takenTo s p ws fs) p q) p rest es = setParser (takenTo s p rest es) p q := by
  cases p <;> rfl

theorem setParser_of_parserOf {s : State} {p : Port} {q : Parser} (h : parserOf s p = q) : setParser s p q = s :=
  h ▸ setParser_parserOf s p

theorem acceptWord_idle_zero {w : Word} (h : ndOf (opcodeField w) = 0) :
    acceptWord .idle w = (.idle, some ⟨w, []⟩) := by simp [acceptWord, h]

theorem acceptWord_idle_pos {w : Word} (h : ndOf (opcodeField w) ≠ 0) :
    acceptWord .idle w = (.collect w (ndOf (opcodeField w)) [], none) := by simp [acceptWord, h]

theorem acceptWord_collect_more (cmd w : Word) (buf : List Word) {k : Nat} (h : 1 < k) :
    acceptWord (.collect cmd k buf) w = (.collect cmd (k - 1) (buf ++ [w]), none) := by simp [acceptWord, h]

theorem acceptWord_collect_last (cmd w : Word) (buf : List Word) :
    acceptWord (.collect cmd 1 buf) w = (.idle, some ⟨cmd, buf ++ [w]⟩) := rfl

section
variable {s : State} {p : Port} {w : Word} {rest : List Word} {es : List Event} {q q' : Parser}
variable (hfree : heldBy s p = none) (hp : pending s p = w :: rest) (hev : s.io.events = .unit p :: es)
include hfree hp hev

/-- A turn of a free port with a word to take is that word going through its parser (20_memory.md R68). -/
theorem step_eq_takeWord : step s = takeWord p w (takenTo s p rest es) := by
  rw [step_of_events hev]
  cases p <;> simp_all [handleEvent, unitTurn, heldBy, pending, takenTo, setPending]

/-- The step that takes a word which the parser keeps. -/
theorem step_of_kept (hq : parserOf s p = q) (hacc : acceptWord q w = (q', none)) :
    step s = .next (setParser (takenTo s p rest es) p q') := by
  rw [step_eq_takeWord hfree hp hev, takeWord, parserOf_takenTo, hq, hacc]

/-- The step that takes a word which completes a command. -/
theorem step_of_completed {cmd : Command} (hq : parserOf s p = q) (hacc : acceptWord q w = (q', some cmd)) :
    step s = takeEffect p cmd (setParser (takenTo s p rest es) p q') := by
  rw [step_eq_takeWord hfree hp hev, takeWord, parserOf_takenTo, hq, hacc]

end

/-- Settles O8: the four cases of `acceptWord`, each at the step that takes the word. -/
theorem takingAWordMovesTheParser : Obligations.TakingAWordMovesTheParser := by
  unfold Obligations.TakingAWordMovesTheParser
  intro s p w rest es hfree hp hev
  rw [← ndOf_eq_dataWordsDue]
  refine ⟨fun hq h0 => ?_, fun hq h0 => ?_, fun cmd k buf hq hk => ?_, fun cmd buf hq => ?_⟩
  · have hidle : parserOf (takenTo s p rest es) p = .idle := by rw [parserOf_takenTo, hq]
    rw [step_of_completed hfree hp hev hq (acceptWord_idle_zero h0), setParser_of_parserOf hidle]
  · exact step_of_kept hfree hp hev hq (acceptWord_idle_pos h0)
  · exact step_of_kept hfree hp hev hq (acceptWord_collect_more cmd w buf hk)
  · exact step_of_completed hfree hp hev hq (acceptWord_collect_last cmd w buf)

theorem takeEffect_of_decoded {w : Word} {data : List Word} {i : Instr} (h : decodeCommand w data = .ok i)
    (p : Port) (s : State) : takeEffect p ⟨w, data⟩ s = exec i { s with port := p } := by
  simp only [takeEffect, h]

/-- Settles O9: the word completes the command, and the command decodes. -/
theorem stepRunsTheDecodedInstruction : Obligations.StepRunsTheDecodedInstruction := by
  unfold Obligations.StepRunsTheDecodedInstruction
  intro s p w rest es cmd i hfree hp hev hacc hdec
  rw [step_of_completed hfree hp hev rfl hacc, takeEffect_of_decoded hdec]

/-! ### Taking a whole command -/

theorem runSteps_succ {s t : State} (h : step s = .next t) (n : Nat) : runSteps (n + 1) s = runSteps n t := by
  simp only [runSteps, h]

theorem runSteps_one (s : State) : runSteps 1 s = step s := by
  simp only [runSteps]
  cases step s <;> rfl

/-- `ReadyFor` with any parser state: port `p` is free, has `ws` and then `rest` to take, and has one turn for each
word of `ws` before the events `es`. -/
def Taking (q : Parser) (s : State) (p : Port) (ws rest : List Word) (es : List Event) : Prop :=
  heldBy s p = none ∧ parserOf s p = q ∧ pending s p = ws ++ rest ∧
  s.io.events = List.replicate ws.length (.unit p) ++ es

theorem taking_idle_iff {s : State} {p : Port} {ws rest : List Word} {es : List Event} :
    Taking .idle s p ws rest es ↔ ReadyFor s p ws rest es := Iff.rfl

/-- A kept word is one step, after which the port takes the words behind it, with nothing else changed. -/
theorem Taking.step_of_kept {q q' : Parser} {s : State} {p : Port} {w : Word} {ws rest : List Word} {es : List Event}
    (h : Taking q s p (w :: ws) rest es) (hacc : acceptWord q w = (q', none)) :
    ∃ t, step s = .next t ∧ Taking q' t p ws rest es ∧
      takenTo t p rest es = setParser (takenTo s p rest es) p q' := by
  obtain ⟨hfree, hq, hp, hev⟩ := h
  refine ⟨_, Machine.step_of_kept hfree hp hev hq hacc, ⟨by simpa, by simp, by simp, by simp⟩, ?_⟩
  exact takenTo_setParser_takenTo s p q' _ rest _ es

/-- The last word due is one step, in which the command takes effect. -/
theorem Taking.step_of_completed {q q' : Parser} {s : State} {p : Port} {w : Word} {rest : List Word} {es : List Event}
    {cmd : Command} (h : Taking q s p [w] rest es) (hacc : acceptWord q w = (q', some cmd)) :
    step s = takeEffect p cmd (setParser (takenTo s p rest es) p q') := by
  obtain ⟨hfree, hq, hp, hev⟩ := h
  exact Machine.step_of_completed hfree hp hev hq hacc

/-- A port in the middle of a command takes the data words still due one a step, and the command takes effect
with the last of them (30_encoding.md R81). -/
theorem runSteps_of_collect {s : State} {p : Port} {cmd d : Word} {buf data rest : List Word} {es : List Event}
    (h : Taking (.collect cmd (data.length + 1) buf) s p (d :: data) rest es) :
    runSteps (data.length + 1) s =
      takeEffect p ⟨cmd, buf ++ d :: data⟩ (setParser (takenTo s p rest es) p .idle) := by
  induction data generalizing d s buf with
  | nil =>
    rw [List.length_nil, runSteps_one]
    exact h.step_of_completed (acceptWord_collect_last cmd d buf)
  | cons d' data ih =>
    obtain ⟨t, hstep, ht, htaken⟩ := h.step_of_kept (acceptWord_collect_more cmd d buf (by simp))
    rw [List.length_cons, runSteps_succ hstep, ih ht, htaken, setParser_setParser, List.append_assoc,
      List.singleton_append]

/-- A free idle port takes a command word and its ND data words, one a step; with the last of them the command
takes effect, and nothing before changes anything else (30_encoding.md R81). -/
theorem runSteps_of_readyFor {s : State} {p : Port} {w : Word} {data rest : List Word} {es : List Event}
    (hlen : data.length = ndOf (opcodeField w)) (hready : ReadyFor s p (w :: data) rest es) :
    runSteps (data.length + 1) s = takeEffect p ⟨w, data⟩ (takenTo s p rest es) := by
  have h := taking_idle_iff.mpr hready
  obtain ⟨-, hq, -, -⟩ := hready
  have hidle : setParser (takenTo s p rest es) p .idle = takenTo s p rest es :=
    setParser_of_parserOf (by rw [parserOf_takenTo, hq])
  cases data with
  | nil =>
    rw [List.length_nil, runSteps_one, h.step_of_completed (acceptWord_idle_zero hlen.symm), hidle]
  | cons d data =>
    obtain ⟨t, hstep, ht, htaken⟩ := h.step_of_kept (acceptWord_idle_pos (by simp [← hlen]))
    rw [← hlen] at ht
    rw [List.length_cons, runSteps_succ hstep, runSteps_of_collect ht, htaken, setParser_setParser, hidle,
      List.nil_append]

/-- Settles O10: the words of `i` are a command word and its ND data words, and they decode to `i`. -/
theorem encodedCommandRunsWithItsLastWord : Obligations.EncodedCommandRunsWithItsLastWord := by
  unfold Obligations.EncodedCommandRunsWithItsLastWord
  intro s p i rest es hwf hready
  have hlen : i.dataWords.length = ndOf (opcodeField (commandWord i)) := by
    rw [opcodeField_commandWord, ndOf_bits, length_dataWords hwf]
  rw [encode, List.length_cons, runSteps_of_readyFor hlen hready,
    takeEffect_of_decoded (decodeCommand_commandWord hwf)]

/-! ### Commands that perform only BadCmd -/

theorem onlyErrSet_badCmd (s : State) : OnlyErrSet s (badCmd s) := by
  constructor <;> intro h <;> simp only [badCmd, setErr, h]

/-- A command of no row of the opcode map performs only BadCmd (30_encoding.md R88). -/
theorem takeEffect_of_undefined {w : Word} (h : opcodeOfBits (opcodeField w) = none) (data : List Word)
    (p : Port) (s : State) : takeEffect p ⟨w, data⟩ s = .next (badCmd { s with port := p }) := by
  simp only [takeEffect, decodeCommand, h]

/-- A command on a port that its row does not name performs only BadCmd, whatever its words (30_encoding.md R89). -/
theorem takeEffect_of_wrongPort {w : Word} {data : List Word} {p : Port} (hlen : data.length = ndOf (opcodeField w))
    (hport : ∀ o : Opcode, o.bits = opcodeField w → o.legalOn p = false) (s : State) :
    takeEffect p ⟨w, data⟩ s = .next (badCmd { s with port := p }) := by
  obtain ⟨t, ht⟩ := takeEffect_next (p := p) (cmd := ⟨w, data⟩) hlen s
  obtain ⟨i, hdec, -⟩ | hbad := takeEffect_cases ht
  · obtain ⟨-, hw, -⟩ := decodeCommand_eq_ok_iff.mp hdec
    rw [takeEffect_of_decoded hdec]
    exact exec_of_illegal (hport _ (by rw [← opcodeField_commandWord, hw]))
  · rw [ht, hbad]

/-- Settles O5: the value of a row's opcode is in none of the ranges. -/
theorem undefinedOpcodePerformsOnlyBadCmd : Obligations.UndefinedOpcodePerformsOnlyBadCmd := by
  unfold Obligations.UndefinedOpcodePerformsOnlyBadCmd
  intro s p w rest es op hop hready
  have hnone : opcodeOfBits (opcodeField w) = none := by
    refine Option.eq_none_iff_forall_ne_some.mpr fun o ho => ?_
    have hval : o.bits.toNat = op := congrArg BitVec.toNat (bits_of_opcodeOfBits ho)
    rw [← hval] at hop
    cases o <;> simp [Opcode.bits] at hop
  have hlen : ([] : List Word).length = ndOf (opcodeField w) := by simp [ndOf, hnone]
  have hrun := runSteps_of_readyFor hlen hready
  rw [takeEffect_of_undefined hnone, List.length_nil, runSteps_one] at hrun
  exact ⟨_, hrun, onlyErrSet_badCmd _⟩

theorem legalOn_c_eq_false (o : Opcode) : 0x10 ≤ o.bits.toNat → o.bits.toNat ≤ 0x22 → o.legalOn .c = false := by
  cases o <;> decide

theorem legalOn_a_eq_false (o : Opcode) : 0x30 ≤ o.bits.toNat → o.bits.toNat ≤ 0x3C → o.legalOn .a = false := by
  cases o <;> decide

/-- Settles O6: a row whose opcode is in the range names the other port alone. -/
theorem wrongPortPerformsOnlyBadCmd : Obligations.WrongPortPerformsOnlyBadCmd := by
  unfold Obligations.WrongPortPerformsOnlyBadCmd
  intro s p w data rest es op hop hlen hready
  have hport (o : Opcode) (hbits : o.bits = opcodeField w) : o.legalOn p = false := by
    have hval : o.bits.toNat = op := congrArg BitVec.toNat hbits
    rw [← hval] at hop
    obtain ⟨rfl, hlo, hhi⟩ | ⟨rfl, hlo, hhi⟩ := hop
    · exact legalOn_c_eq_false o hlo hhi
    · exact legalOn_a_eq_false o hlo hhi
  have hnd := hlen.trans (ndOf_eq_dataWordsDue _).symm
  have hrun := runSteps_of_readyFor hnd hready
  rw [takeEffect_of_wrongPort hnd hport] at hrun
  exact ⟨_, hrun, onlyErrSet_badCmd _⟩

/-- The bits of [23:0] above the low `n`, in one piece, are 0 if the operand field is below `2 ^ n`. -/
theorem extractLsb'_eq_zero_of_lt {w : Word} {n m : Nat} (hnm : n + m = 24) (h : (operandField w).toNat < 2 ^ n) :
    w.extractLsb' n m = 0 := by
  have hfield : (operandField w).toNat = w.toNat % 2 ^ (n + m) := by simp [operandField, hnm]
  apply BitVec.eq_of_toNat_eq
  rw [BitVec.extractLsb'_toNat, Nat.shiftRight_eq_div_pow, ← Nat.mod_mul_right_div_self, ← Nat.pow_add, ← hfield,
    Nat.div_eq_of_lt h]
  rfl

/-- A nonzero bit above the low ones that the format of the word's row uses is a reserved bit set. -/
theorem reservedClear_eq_false_of_rows {w : Word} {ops : List (BitVec 8)} {f : Format} {m : Nat}
    (hrows : ∀ op ∈ ops, (opcodeOfBits op).map Opcode.format = some f) (hop : opcodeField w ∈ ops)
    (hm : f.width + m = 24) (hne : w.extractLsb' f.width m ≠ 0) :
    ∃ o, opcodeOfBits (opcodeField w) = some o ∧ reservedClear o.format w = false := by
  obtain ⟨o, ho, rfl⟩ := Option.map_eq_some_iff.mp (hrows _ hop)
  refine ⟨o, ho, Bool.eq_false_iff.mpr fun hclear => hne ?_⟩
  exact extractLsb'_eq_zero_of_lt hm ((reservedClear_iff _ _).mp hclear)

/-- The reserved bits written out by opcode value are those of the row's format (30_encoding.md R82, R85). -/
theorem reservedClear_of_reservedBitSet {w : Word} (h : ReservedBitSet w) :
    ∃ o, opcodeOfBits (opcodeField w) = some o ∧ reservedClear o.format w = false := by
  obtain ⟨hop, hne⟩ | ⟨hop, hne⟩ | ⟨hop, hne⟩ | ⟨hop, hne⟩ := h
  · exact reservedClear_eq_false_of_rows (f := .z) (by decide) hop rfl hne
  · exact reservedClear_eq_false_of_rows (f := .v8) (by decide) hop rfl hne
  · exact reservedClear_eq_false_of_rows (f := .b1) (by decide) hop rfl hne
  · exact reservedClear_eq_false_of_rows (f := .n5) (ops := [0x11]) (by decide) (List.mem_singleton.mpr hop) rfl hne

/-- Settles O4: the data words are taken, and the reserved bit makes the command bad. -/
theorem reservedBitPerformsOnlyBadCmd : Obligations.ReservedBitPerformsOnlyBadCmd := by
  unfold Obligations.ReservedBitPerformsOnlyBadCmd
  intro s p w data rest es hbit hlen hready
  obtain ⟨o, ho, hr⟩ := reservedClear_of_reservedBitSet hbit
  have hnd : data.length = ndOf (opcodeField w) := hlen.trans (ndOf_eq_dataWordsDue _).symm
  have hrun := runSteps_of_readyFor hnd hready
  have hbad := takeEffect_reserved (p := p) (cmd := ⟨w, data⟩) (s := takenTo s p rest es) ho
    (by simpa [ndOf, ho] using hnd) hr
  exact ⟨_, hrun.trans hbad, onlyErrSet_badCmd _⟩

/-! ### Pseudo-instructions -/

/-- SETGMODE to another mode (41_resolver.md R135). -/
theorem setgmodeEffect_of_ne {v : BitVec 8} {s : State} (h : v ≠ s.a.gmode) :
    setgmodeEffect v s =
      { s with a := { s.a with gmode := v, trkL := ⟨0, 15, s.cfg.center⟩, trkR := ⟨0, 15, s.cfg.center⟩ } } :=
  if_pos h

theorem setgmodeEffect_self {v : BitVec 8} {s : State} (h : v = s.a.gmode) : setgmodeEffect v s = s :=
  if_neg (not_not.mpr h)

/-- RESTICK (30_encoding.md R93): SETGMODE 1 is a change after SETGMODE 0, so it writes the tracks' defaults. -/
theorem setgmodeEffect_one_zero (s : State) :
    setgmodeEffect 1 (setgmodeEffect 0 s) =
      { s with a := { s.a with gmode := 1, trkL := ⟨0, 15, s.cfg.center⟩, trkR := ⟨0, 15, s.cfg.center⟩ } } := by
  by_cases h : 0 = s.a.gmode
  · rw [setgmodeEffect_self h, setgmodeEffect_of_ne (by rw [← h]; decide)]
  · rw [setgmodeEffect_of_ne h, setgmodeEffect_of_ne (by simp)]

/-- Settles O41: the expansions are the model's own equations, and RESTICK runs as `setgmodeEffect_one_zero`. -/
theorem pseudoInstructionsExpand : Obligations.PseudoInstructionsExpand := by
  unfold Obligations.PseudoInstructionsExpand
  refine ⟨rfl, rfl, rfl, fun _ => rfl, rfl, fun s hp => ?_⟩
  have hport : (effectOf (.setgmode 0) s).port = .a := by
    obtain ⟨-, hport, -⟩ := effectOf_frame (.setgmode 0) s
    rw [hport, hp]
  exact ⟨_, _, exec_of_legal (by rw [hp]; rfl), exec_of_legal (by rw [hport]; rfl), setgmodeEffect_one_zero s⟩

end Sys2Proof.Machine
end

section
/-! PROOFS. What the assembler makes of a mnemonic and its operands (spec/30_encoding.md R85, R92). -/

namespace Sys2Proof.Machine

/-! ### The operand counts -/

theorem noOperand_eq_some {ops : List Nat} {i j : Instr} (h : noOperand ops j = some i) : i = j := by
  unfold noOperand at h
  split at h
  · exact (Option.some.inj h).symm
  · cases h

theorem noOperand_eq_none {ops : List Nat} (h : ops.length ≠ 0) (i : Instr) : noOperand ops i = none := by
  unfold noOperand
  split
  · exact absurd rfl h
  · rfl

theorem oneOperand_eq_some {bound : Nat} {ops : List Nat} {f : Nat → Instr} {i : Instr}
    (h : oneOperand bound ops f = some i) : ∃ v, i = f v := by
  unfold oneOperand at h
  split at h
  · split_ifs at h
    exact ⟨_, (Option.some.inj h).symm⟩
  · cases h

theorem oneOperand_eq_none {ops : List Nat} (h : ops.length ≠ 1) (bound : Nat) (f : Nat → Instr) :
    oneOperand bound ops f = none := by
  unfold oneOperand
  split
  · exact absurd rfl h
  · rfl

/-! ### What is assembled -/

/-- An assembled instruction is one of its mnemonic's row, with 32 data words for RAW. -/
theorem wf_opcode_of_assembleInstr {o : Opcode} {ops : List Nat} {i : Instr} (h : assembleInstr o ops = some i) :
    i.wf = true ∧ i.opcode = o := by
  cases o with
  | nop | fuse | pubt | resolve | clrpc =>
    obtain rfl := noOperand_eq_some h
    exact ⟨rfl, rfl⟩
  | brev =>
    simp only [assembleInstr] at h
    split at h
    · split_ifs at h
      cases h
      exact ⟨rfl, rfl⟩
    · cases h
  | raw =>
    simp only [assembleInstr] at h
    split_ifs at h with hops
    cases h
    exact ⟨by simp [Instr.wf, hops.1], rfl⟩
  | _ =>
    obtain ⟨v, rfl⟩ := oneOperand_eq_some h
    exact ⟨rfl, rfl⟩

/-- The words of an instruction as numbers: the opcode above the operand field, then the data words. -/
theorem encode_map_toNat (i : Instr) :
    (encode i).map BitVec.toNat =
      (i.opcode.bits.toNat * 2 ^ 24 + i.operands.toNat) :: i.dataWords.map BitVec.toNat := by
  rw [encode, List.map_cons, commandWord_toNat]

section
variable {o : Opcode} {bound code : Nat} {f : Nat → Instr}
variable (hform : ∀ v, assembleInstr o [v] = oneOperand bound [v] f) (hcode : ∀ v, (f v).opcode.bits.toNat = code)
include hform hcode

/-- A mnemonic whose one operand is written in the operand field. -/
theorem assembles_field (hfield : ∀ v < bound, (f v).operands.toNat = v) (hdata : ∀ v, (f v).dataWords = [])
    (v : Nat) :
    (v < bound → AssemblesTo o [v] [code * 2 ^ 24 + v]) ∧ (bound ≤ v → assembleInstr o [v] = none) := by
  refine ⟨fun hv => ⟨f v, (hform v).trans (if_pos hv), ?_⟩, fun hv => (hform v).trans (if_neg hv.not_gt)⟩
  rw [encode_map_toNat, hcode, hfield v hv, hdata, List.map_nil]

/-- A mnemonic whose one operand is its data word. -/
theorem assembles_data (hfield : ∀ v, (f v).operands.toNat = 0)
    (hdata : ∀ v < bound, (f v).dataWords.map BitVec.toNat = [v]) (v : Nat) :
    (v < bound → AssemblesTo o [v] [code * 2 ^ 24, v]) ∧ (bound ≤ v → assembleInstr o [v] = none) := by
  refine ⟨fun hv => ⟨f v, (hform v).trans (if_pos hv), ?_⟩, fun hv => (hform v).trans (if_neg hv.not_gt)⟩
  rw [encode_map_toNat, hcode, hfield, hdata v hv, Nat.add_zero]

end

/-! ### The operand forms -/

theorem toNat_ofNat_setWidth {n v : Nat} (hn : n ≤ 24) (hv : v < 2 ^ n) :
    ((BitVec.ofNat n v).setWidth 24).toNat = v := by
  rw [BitVec.toNat_setWidth_of_le hn, BitVec.toNat_ofNat, Nat.mod_eq_of_lt hv]

theorem toNat_colorWord_ofNat (v : Nat) (hv : v < 2 ^ 24) : (colorWord (colorOfWord (BitVec.ofNat 24 v))).toNat = v := by
  rw [colorWord_colorOfWord, BitVec.toNat_ofNat, Nat.mod_eq_of_lt hv]

theorem toNat_ofBool_beq_one (v : Nat) (hv : v < 2) : ((BitVec.ofBool (v == 1)).setWidth 24).toNat = v := by
  interval_cases v <;> rfl

theorem assembles_brev (n v : Nat) :
    (1 ≤ n → n ≤ 32 → v < 2 ^ 32 → AssemblesTo .brev [n, v] [0x11 * 2 ^ 24 + (n - 1), v]) ∧
    (n = 0 ∨ 32 < n ∨ 2 ^ 32 ≤ v → assembleInstr .brev [n, v] = none) := by
  refine ⟨fun hlo hhi hv => ⟨_, if_pos ⟨hlo, hhi, hv⟩, ?_⟩, fun h => if_neg (by omega)⟩
  have hfield := toNat_ofNat_setWidth (n := 5) (by decide) (show n - 1 < 2 ^ 5 by omega)
  rw [encode_map_toNat, Instr.operands, hfield, Instr.dataWords, List.map_singleton, BitVec.toNat_ofNat,
    Nat.mod_eq_of_lt hv]
  rfl

theorem assembles_raw (ops : List Nat) (hlen : ops.length = 32) :
    ((∀ v ∈ ops, v < 2 ^ 32) → AssemblesTo .raw ops (0x3C * 2 ^ 24 :: ops)) ∧
    ((∃ v ∈ ops, 2 ^ 32 ≤ v) → assembleInstr .raw ops = none) := by
  constructor
  · intro hall
    refine ⟨_, if_pos ⟨hlen, by simpa using hall⟩, ?_⟩
    have hword (v : Nat) (hv : v ∈ ops) : (BitVec.ofNat 32 v).toNat = v := by
      rw [BitVec.toNat_ofNat, Nat.mod_eq_of_lt (hall v hv)]
    have hdata : (ops.map (BitVec.ofNat 32)).map BitVec.toNat = ops := by
      rw [List.map_map]
      exact (List.map_congr_left hword).trans (List.map_id _)
    simp [encode_map_toNat, Instr.opcode, Opcode.bits, Instr.operands, Instr.dataWords, hdata]
  · rintro ⟨v, hmem, hv⟩
    refine if_neg fun h => ?_
    have hlt : v < 2 ^ 32 := by simpa using List.all_eq_true.mp h.2 v hmem
    omega

/-- Another number of operands than the form's is refused (30_encoding.md R92). -/
theorem assembleInstr_eq_none_of_length {o : Opcode} {ops : List Nat}
    (h : ops.length ≠ (if o ∈ [.nop, .fuse, .pubt, .resolve, .clrpc] then 0 else if o = .brev then 2
      else if o = .raw then 32 else 1)) : assembleInstr o ops = none := by
  cases o with
  | nop | fuse | pubt | resolve | clrpc => exact noOperand_eq_none h _
  | brev =>
    simp only [assembleInstr]
    split
    · exact absurd rfl h
    · rfl
  | raw => exact if_neg fun hops => h hops.1
  | _ => exact oneOperand_eq_none h _ _

/-- Settles O7: each form by its own lemma, and the words of what is assembled decode by `decode_eq_ok_iff`. -/
theorem assembledInstructionsDecodeToThemselves : Obligations.AssembledInstructionsDecodeToThemselves := by
  unfold Obligations.AssembledInstructionsDecodeToThemselves
  refine ⟨fun o ops i h => ?_, ?_, ?_, ?_, assembles_brev, assembles_raw, fun o ops => assembleInstr_eq_none_of_length⟩
  · obtain ⟨hwf, hop⟩ := wf_opcode_of_assembleInstr h
    exact ⟨hwf, hop, decode_eq_ok_iff.mpr ⟨hwf, List.append_nil _⟩⟩
  · simp only [List.forall_mem_cons, List.not_mem_nil, false_implies, implies_true, and_true]
    exact ⟨⟨_, rfl, rfl⟩, ⟨_, rfl, rfl⟩, ⟨_, rfl, rfl⟩, ⟨_, rfl, rfl⟩, ⟨_, rfl, rfl⟩⟩
  · have hbyte (v : Nat) (hv : v < 2 ^ 8) := toNat_ofNat_setWidth (by decide : 8 ≤ 24) hv
    have hfield (v : Nat) (hv : v < 2 ^ 24) : (BitVec.ofNat 24 v).toNat = v := by
      rw [BitVec.toNat_ofNat, Nat.mod_eq_of_lt hv]
    simp only [List.forall_mem_cons, List.not_mem_nil, false_implies, implies_true, and_true]
    refine ⟨?_, ?_, ?_, ?_, ?_, ?_, ?_, ?_, ?_, ?_, ?_, ?_⟩
    -- the forms V8, U24, C and B1, in the statement's order
    iterate 4 exact assembles_field (fun _ => rfl) (fun _ => rfl) hbyte (fun _ => rfl)
    iterate 3 exact assembles_field (fun _ => rfl) (fun _ => rfl) hfield (fun _ => rfl)
    iterate 3 exact assembles_field (fun _ => rfl) (fun _ => rfl) toNat_colorWord_ofNat (fun _ => rfl)
    iterate 2 exact assembles_field (fun _ => rfl) (fun _ => rfl) toNat_ofBool_beq_one (fun _ => rfl)
  · have hword (v : Nat) (hv : v < 2 ^ 32) : [(BitVec.ofNat 32 v).toNat] = [v] := by
      rw [BitVec.toNat_ofNat, Nat.mod_eq_of_lt hv]
    simp only [List.forall_mem_cons, List.not_mem_nil, false_implies, implies_true, and_true]
    exact ⟨assembles_data (fun _ => rfl) (fun _ => rfl) (fun _ => rfl) hword,
      assembles_data (fun _ => rfl) (fun _ => rfl) (fun _ => rfl) hword⟩

end Sys2Proof.Machine
end

section
/-! PROOFS. The aggregator: bit reversal, BREV and PUBT, and what a FUSE fuses, polls and waits for
(spec/40_aggregator.md R100 to R112). -/

namespace Sys2Proof.Machine

/-! ### Bit reversal -/

/-- R100 said of bits. The induction follows the model's loop: the lowest bit left goes to the highest place left. -/
theorem testBit_bitrev (n v k : Nat) :
    (bitrev n v).testBit k = (decide (k < n) && v.testBit (n - 1 - k)) := by
  induction n generalizing v with
  | zero => simp [bitrev]
  | succ n ih =>
    rw [bitrev, Nat.testBit_or, ih, Nat.testBit_shiftLeft, Nat.testBit_shiftRight, ← Nat.pow_one 2,
      Nat.testBit_mod_two_pow]
    obtain hlt | rfl | hgt := Nat.lt_trichotomy k n
    · simp [hlt, Nat.not_le.mpr hlt, show k < n + 1 by omega, show 1 + (n - 1 - k) = n - k by omega]
    · simp
    · simp [show ¬k < n by omega, show ¬k < n + 1 by omega, show ¬k - n < 1 by omega]

theorem bitrev_lt_two_pow (n v : Nat) : bitrev n v < 2 ^ n :=
  Nat.lt_pow_two_of_testBit _ fun k hk => by simp [testBit_bitrev, Nat.not_lt.mpr hk]

theorem bitrev_bitrev (n v : Nat) : bitrev n (bitrev n v) = v % 2 ^ n := by
  refine Nat.eq_of_testBit_eq fun k => ?_
  rw [testBit_bitrev, testBit_bitrev, Nat.testBit_mod_two_pow]
  by_cases hk : k < n
  · simp [hk, show n - 1 - k < n by omega, show n - 1 - (n - 1 - k) = k by omega]
  · simp [hk]

@[simp] theorem bitrev_zero (n : Nat) : bitrev n 0 = 0 :=
  Nat.eq_of_testBit_eq fun k => by simp [testBit_bitrev]

/-- Settles O27, all from the bits of the reversal. -/
theorem bitReversalMirrorsTheBits : Obligations.BitReversalMirrorsTheBits := by
  unfold Obligations.BitReversalMirrorsTheBits
  exact fun n v => ⟨testBit_bitrev n v, bitrev_lt_two_pow n v, bitrev_bitrev n v, bitrev_zero n⟩

/-! ### Commands that are bad on the other port and with a reserved bit set -/

theorem badOn_of_illegal {p : Port} {i : Instr} (h : i.opcode.legalOn p = false) : BadOn p i := by
  rintro s rfl
  exact ⟨_, exec_of_illegal h, onlyErrSet_badCmd s⟩

/-- Every row: a 1 in a bit that its format marks 0 is BadCmd after the row's data words (30_encoding.md R87). -/
theorem reservedBitsAreBad_of_row (o : Opcode) : ReservedBitsAreBad o.bits o.format.reservedMask := by
  intro s p w data hop hbit hlen
  have hrow : opcodeOfBits (opcodeField w) = some o := by rw [opcodeField, hop, opcodeOfBits_bits]
  have hnd : data.length = o.nd := by rw [hlen, ← ndOf_eq_dataWordsDue, ndOf_bits]
  have hset : reservedClear o.format w = false := beq_eq_false_iff_ne.mpr hbit
  exact ⟨_, takeEffect_reserved (cmd := ⟨w, data⟩) hrow hnd hset, onlyErrSet_badCmd _⟩

/-! ### BREV and PUBT -/

/-- BRES after BREV holds the reversal whole: its at most 32 bits fit (40_aggregator.md R111). -/
theorem getLsbD_bres_of_brev (nm1 : BitVec 5) (v : Word) (k : Nat) :
    (BitVec.ofNat 32 (bitrev (bitCount nm1) v.toNat)).getLsbD k =
      (decide (k ≤ nm1.toNat) && v.getLsbD (nm1.toNat - k)) := by
  rw [BitVec.getLsbD_ofNat, testBit_bitrev, bitCount, Nat.add_sub_cancel, BitVec.testBit_toNat]
  have hnm1 : nm1.toNat < 32 := nm1.isLt
  by_cases hk : k ≤ nm1.toNat
  · simp [hk, show k < 32 by omega, show k < nm1.toNat + 1 by omega]
  · simp [hk, show ¬k < nm1.toNat + 1 by omega]

/-- Settles O28: BRES takes the reversal, and its bits are `getLsbD_bres_of_brev`. -/
theorem brevReversesIntoBres : Obligations.BrevReversesIntoBres := by
  unfold Obligations.BrevReversesIntoBres
  refine ⟨fun s nm1 v hport => ⟨_, ?_, getLsbD_bres_of_brev nm1 v⟩, fun nm1 v => badOn_of_illegal rfl,
    reservedBitsAreBad_of_row .brev⟩
  exact exec_of_legal (by rw [hport]; rfl)

/-- Settles O29: the effect of PUBT is the Send whatever the mailbox holds. -/
theorem pubtSendsTheBitmap : Obligations.PubtSendsTheBitmap := by
  unfold Obligations.PubtSendsTheBitmap
  exact ⟨fun s hport => exec_of_legal (by rw [hport]; rfl), badOn_of_illegal rfl, reservedBitsAreBad_of_row .pubt⟩

/-! ### The fused value -/

/-- The bits of an adapter's slice of an answer (40_aggregator.md R101, R103). -/
theorem testBit_slice (ad : Adapter) (m : Word) (k : Nat) :
    (m.toNat >>> ad.srcLo % 2 ^ ad.len).testBit k = (decide (k < ad.len) && m.getLsbD (ad.srcLo + k)) := by
  rw [Nat.testBit_mod_two_pow, Nat.testBit_shiftRight, BitVec.testBit_toNat]

/-- Bit `i` of one adapter's contribution (40_aggregator.md R103): a bit of its slice, mirrored within it if `rev`. -/
theorem getLsbD_contrib (ad : Adapter) (m : Word) {i : Nat} (hi : i < 32) :
    (contrib ad m).getLsbD i = true ↔ ad.dstLo ≤ i ∧ i < ad.dstLo + ad.len ∧
      m.getLsbD (if ad.rev then ad.srcLo + (ad.len - 1 - (i - ad.dstLo)) else ad.srcLo + (i - ad.dstLo)) = true := by
  simp only [contrib, BitVec.getLsbD_ofNat, Nat.testBit_shiftLeft, hi, decide_true, Bool.true_and, Bool.and_eq_true,
    decide_eq_true_eq, ge_iff_le]
  refine and_congr_right fun hlo => ?_
  rw [show i < ad.dstLo + ad.len ↔ i - ad.dstLo < ad.len by omega]
  cases ad.rev with
  | false => simp only [Bool.false_eq_true, if_false, testBit_slice, Bool.and_eq_true, decide_eq_true_eq]
  | true =>
    simp only [if_true, testBit_bitrev, testBit_slice, Bool.and_eq_true, decide_eq_true_eq]
    exact and_congr_right fun hk => and_iff_right (by omega)

/-- The slice lies within the native mask, so reducing an answer to it drops nothing that is placed. -/
theorem contrib_nativeMask (ad : Adapter) (m : Word) : contrib ad (nativeMask ad m) = contrib ad m := by
  have hslice : (nativeMask ad m).toNat >>> ad.srcLo % 2 ^ ad.len = m.toNat >>> ad.srcLo % 2 ^ ad.len := by
    refine Nat.eq_of_testBit_eq fun k => ?_
    rw [testBit_slice, testBit_slice]
    by_cases hk : k < ad.len
    · have hwidth : ad.srcLo + k < ad.kind.width := (Nat.add_lt_add_left hk _).trans_le ad.slice_fits
      have hle : ad.kind.width ≤ 32 := by cases ad.kind <;> decide
      rw [nativeMask, BitVec.getLsbD_ofNat, Nat.testBit_mod_two_pow, BitVec.testBit_toNat]
      simp [hwidth, hwidth.trans_le hle]
    · simp [hk]
  simp only [contrib, hslice]

/-- A bit of the OR-tree is a bit of some adapter's contribution (40_aggregator.md R104). -/
theorem getLsbD_fuseMasks (ads : List Adapter) (ms : List Word) (i : Nat) :
    (fuseMasks ads ms).getLsbD i = true ↔
      ∃ (k : Nat) (ad : Adapter) (m : Word), ads[k]? = some ad ∧ ms[k]? = some m ∧ (contrib ad m).getLsbD i = true := by
  induction ads generalizing ms with
  | nil => simp [fuseMasks]
  | cons ad ads ih =>
    cases ms with
    | nil => simp [fuseMasks]
    | cons m ms =>
      rw [fuseMasks, BitVec.getLsbD_or, Bool.or_eq_true, ih]
      constructor
      · rintro (h | ⟨k, h⟩)
        · exact ⟨0, ad, m, rfl, rfl, h⟩
        · exact ⟨k + 1, h⟩
      · rintro ⟨_ | k, ad', m', had, hm, h⟩
        · cases had
          cases hm
          exact .inl h
        · exact .inr ⟨k, ad', m', had, hm, h⟩

theorem getLsbD_fuseMasks_iff_fusedBit (cfg : Params) (ms : List Word) {i : Nat} (hi : i < 32) :
    (fuseMasks cfg.adapters ms).getLsbD i = true ↔ FusedBit cfg ms i := by
  simp only [getLsbD_fuseMasks, getLsbD_contrib _ _ hi, FusedBit]

/-- Orientation keeps the bits in place or mirrors all 32 (40_aggregator.md R105). -/
theorem getLsbD_orient (cfg : Params) (x : Word) {i : Nat} (hi : i < 32) :
    (orient cfg x).getLsbD i = x.getLsbD (if cfg.reverse then 31 - i else i) := by
  unfold orient
  split
  · rw [BitVec.getLsbD_ofNat, testBit_bitrev, BitVec.testBit_toNat]
    simp [hi]
  · rfl

theorem isFusionOf_orient_fuseMasks (cfg : Params) (ms : List Word) :
    IsFusionOf cfg ms (orient cfg (fuseMasks cfg.adapters ms)) := by
  intro i hi
  rw [getLsbD_orient cfg _ hi]
  exact getLsbD_fuseMasks_iff_fusedBit cfg ms (by split <;> omega)

/-- Fusing the native masks of the last answers is fusing these answers. -/
theorem fuseMasks_append_zipWith_nativeMask (ads : List Adapter) (got ms : List Word) :
    fuseMasks ads (got ++ List.zipWith nativeMask (ads.drop got.length) ms) = fuseMasks ads (got ++ ms) := by
  induction ads generalizing got ms with
  | nil => simp [fuseMasks]
  | cons ad ads ih =>
    cases got with
    | cons g got => exact congrArg (contrib ad g ||| ·) (ih got ms)
    | nil =>
      cases ms with
      | nil => rfl
      | cons m ms =>
        have htail : fuseMasks ads (List.zipWith nativeMask ads ms) = fuseMasks ads ms := ih [] ms
        simp [fuseMasks, contrib_nativeMask, htail]

/-! ### A FUSE that goes on -/

/-- Polling is what `PollsUpTo` says, from any adapter on that is configured or the first that is not. -/
theorem pollsUpTo_pollFrom (cfg : Params) {k : Nat} (hk : k ≤ cfg.na) (q : Vector (List Word) 32) :
    PollsUpTo cfg k q (pollFrom (cfg.adapters.drop k) k q).1 (pollFrom (cfg.adapters.drop k) k q).2 := by
  obtain ⟨htaken, hleft, hsilent⟩ := pollFrom_spec (cfg.adapters.drop k) k q
  have hlen := pollFrom_length (cfg.adapters.drop k) k q
  rw [List.length_drop] at hlen hsilent
  unfold Params.na at hk
  refine ⟨by unfold Params.na; omega, fun j hlo hhi => ?_, hleft, fun j hj hna => hsilent j hj ?_⟩
  · obtain ⟨ad, m, had, hq, hgot⟩ := htaken j hlo hhi
    rw [List.getElem?_drop, Nat.add_sub_cancel' hlo] at had
    exact ⟨ad, m, had, hq, hgot⟩
  · unfold Params.na at hna
    omega

/-- All answers it still needs are ready: FUSE completes with the fusion of all masks, the answers before and now. -/
theorem fuseContinue_of_answersReady {fw : FuseWait} {s : State} {ms : List Word}
    (h : AnswersReady s fw.got.length ms) :
    ∃ (bm : Word) (sense : Vector (List Word) 32),
      fuseContinue fw s = { s with
        a := { s.a with bitmap := bm, valid := true, lastMs := fw.t, fuseWait := none }
        io := { s.io with sense := sense } } ∧
      IsFusionOf s.cfg (fw.got ++ ms) bm ∧
      ∀ k : Fin 32, sense[k] =
        if fw.got.length ≤ k.val ∧ k.val < s.cfg.na then (s.io.sense[k]).tail else s.io.sense[k] := by
  obtain ⟨hna, hready⟩ := h
  have hlen : ms.length = (s.cfg.adapters.drop fw.got.length).length := by
    rw [List.length_drop, ← Params.na]
    omega
  have hle : fw.got.length + ms.length ≤ 32 := hna ▸ s.cfg.na_le
  obtain ⟨hmasks, hleft⟩ := pollFrom_ready _ _ s.io.sense ms hlen hle hready
  have hdone : s.cfg.na ≤
      (fw.got ++ (pollFrom (s.cfg.adapters.drop fw.got.length) fw.got.length s.io.sense).1).length := by
    rw [hmasks, List.length_append, List.length_zipWith, ← hlen, Nat.min_self, hna]
  refine ⟨_, _, fuseContinue_done rfl hdone, ?_, fun k => by rw [hleft, hna]⟩
  rw [hmasks, fuseMasks_append_zipWith_nativeMask]
  exact isFusionOf_orient_fuseMasks s.cfg _

/-- An adapter it still needs is silent: FUSE waits on, with the masks of the adapters before the first silent one. -/
theorem fuseContinue_of_silent {fw : FuseWait} {s : State} {j : Fin 32} (hj : fw.got.length ≤ j.val)
    (hna : j.val < s.cfg.na) (hsilent : s.io.sense[j] = []) :
    ∃ (got : List Word) (sense : Vector (List Word) 32),
      fuseContinue fw s = { s with
        a := { s.a with fuseWait := some ⟨fw.t, fw.got ++ got⟩ }, io := { s.io with sense := sense } } ∧
      PollsUpTo s.cfg fw.got.length s.io.sense got sense ∧ fw.got.length + got.length ≤ j.val := by
  have hbefore := pollFrom_silent (s.cfg.adapters.drop fw.got.length) _ s.io.sense j hj hsilent
  refine ⟨_, _, fuseContinue_short rfl ?_, pollsUpTo_pollFrom s.cfg (by omega) s.io.sense, by omega⟩
  rw [List.length_append]
  omega

/-! ### FUSE -/

theorem due_iff (cfg : Params) (a : UnitA) (t : Word) :
    due cfg a t = true ↔ a.valid = false ∨ cfg.rateMs ≤ (t - a.lastMs).toNat := by simp [due]

theorem not_due_iff (cfg : Params) (a : UnitA) (t : Word) :
    due cfg a t = false ↔ a.valid = true ∧ (t - a.lastMs).toNat < cfg.rateMs := by
  rw [← Bool.not_eq_true, due_iff, not_or, Bool.not_eq_false, Nat.not_le]

theorem exec_fuse_of_due {s : State} (hport : s.port = .a) (h : due s.cfg s.a s.io.timeMs = true) :
    exec .fuse s = .next (fuseContinue ⟨s.io.timeMs, []⟩ s) :=
  (exec_of_legal (by rw [hport]; rfl)).trans (congrArg _ (if_pos h))

theorem exec_fuse_of_not_due {s : State} (hport : s.port = .a) (h : due s.cfg s.a s.io.timeMs = false) :
    exec .fuse s = .next s :=
  (exec_of_legal (by rw [hport]; rfl)).trans (congrArg _ (if_neg (Bool.eq_false_iff.mp h)))

/-- Settles O30: FUSE begins with no mask and all answers ready. -/
theorem fusePollsAndWritesTogether : Obligations.FusePollsAndWritesTogether := by
  unfold Obligations.FusePollsAndWritesTogether
  intro s ms hport hdue hready
  rw [exec_fuse_of_due hport ((due_iff _ _ _).mpr hdue)]
  simpa using fuseContinue_of_answersReady (fw := ⟨s.io.timeMs, []⟩) hready

/-- Settles O32: FUSE begins with no mask and meets a silent adapter. -/
theorem fuseWaitsForASilentAdapter : Obligations.FuseWaitsForASilentAdapter := by
  unfold Obligations.FuseWaitsForASilentAdapter
  intro s j hport hdue hna hsilent
  rw [exec_fuse_of_due hport ((due_iff _ _ _).mpr hdue)]
  simpa using fuseContinue_of_silent (fw := ⟨s.io.timeMs, []⟩) (Nat.zero_le _) hna hsilent

/-- A FUSE that goes on and does not wait has written VALID and LAST_MS. -/
theorem fuseContinue_of_not_waiting {fw : FuseWait} {s : State} (h : (fuseContinue fw s).a.fuseWait = none) :
    ∃ bm sense, fuseContinue fw s = { s with
      a := { s.a with bitmap := bm, valid := true, lastMs := fw.t, fuseWait := none }
      io := { s.io with sense := sense } } := by
  by_cases hlen :
      (fw.got ++ (pollFrom (s.cfg.adapters.drop fw.got.length) fw.got.length s.io.sense).1).length < s.cfg.na
  · rw [fuseContinue_short rfl hlen] at h
    cases h
  · exact ⟨_, _, fuseContinue_done rfl (Nat.not_lt.mp hlen)⟩

/-- A FUSE that did not wait leaves a state in which FUSE is not due: no time has passed and RATE_MS is at least 1. -/
theorem not_due_of_exec_fuse {s t : State} (hport : s.port = .a) (h : exec .fuse s = .next t)
    (hwait : t.a.fuseWait = none) : due t.cfg t.a t.io.timeMs = false := by
  cases hdue : due s.cfg s.a s.io.timeMs with
  | false =>
    rw [exec_fuse_of_not_due hport hdue] at h
    cases h
    exact hdue
  | true =>
    rw [exec_fuse_of_due hport hdue] at h
    cases h
    obtain ⟨bm, sense, ht⟩ := fuseContinue_of_not_waiting hwait
    rw [ht]
    have hrate : 0 < s.cfg.rateMs := s.cfg.rate_pos
    exact (not_due_iff _ _ _).mpr ⟨rfl, by simpa using hrate⟩

/-- Settles O31: in each case FUSE is not due. -/
theorem fuseWithinTheRateWindowChangesNothing : Obligations.FuseWithinTheRateWindowChangesNothing := by
  unfold Obligations.FuseWithinTheRateWindowChangesNothing
  refine ⟨fun s hport hvalid hrate => ?_, fun s t h hport hwait => ?_, badOn_of_illegal rfl,
    reservedBitsAreBad_of_row .fuse⟩
  · exact exec_fuse_of_not_due hport ((not_due_iff _ _ _).mpr ⟨hvalid, hrate⟩)
  · obtain ⟨-, -, -, hport'⟩ := exec_frame h
    exact exec_fuse_of_not_due (hport'.trans hport) (not_due_of_exec_fuse hport h hwait)

/-- At the turn of unit A a waiting FUSE goes on (20_memory.md R68). -/
theorem step_of_fuseWait {s : State} {fw : FuseWait} {es : List Event} (hwait : s.a.fuseWait = some fw)
    (hev : s.io.events = .unit .a :: es) :
    step s = .next (fuseContinue fw { s with io := { s.io with events := es } }) := by
  simp only [step_of_events hev, handleEvent, unitTurn, heldBy, hwait]

/-- Settles O33: at its turn the waiting FUSE goes on with the masks it has. -/
theorem waitingFuseCompletesWithTheLastAnswer : Obligations.WaitingFuseCompletesWithTheLastAnswer := by
  unfold Obligations.WaitingFuseCompletesWithTheLastAnswer
  intro s fw es hwait hev
  simp only [step_of_fuseWait hwait hev, Host.Outcome.next.injEq]
  exact ⟨fun ms => fuseContinue_of_answersReady (s := { s with io := { s.io with events := es } }),
    fun j => fuseContinue_of_silent (s := { s with io := { s.io with events := es } })⟩

end Sys2Proof.Machine
end

section
/-! PROOFS. The resolver: the extents of a half, the track update, and SETGMODE, RESOLVE and RESOLVEI
(spec/41_resolver.md R130 to R138). -/

namespace Sys2Proof.Machine

/-! ### The extents of a half -/

theorem exists_getLsbD_of_ne_zero {h : BitVec 16} (h0 : h ≠ 0) : ∃ k, k ≤ 15 ∧ h.getLsbD k = true := by
  by_contra hnone
  push Not at hnone
  refine h0 (BitVec.eq_of_getLsbD_eq fun k hk => ?_)
  simpa using hnone k (by omega)

theorem ne_zero_of_getLsbD {h : BitVec 16} {k : Nat} (hk : h.getLsbD k = true) : h ≠ 0 := by
  rintro rfl
  simp at hk

theorem scanDown_le (h : BitVec 16) (i : Nat) : scanDown h i ≤ i := by
  induction i with
  | zero => exact Nat.le_refl 0
  | succ i ih =>
    unfold scanDown
    split <;> omega

/-- The scan downward stops at a set bit if there is one on its way. -/
theorem getLsbD_scanDown {h : BitVec 16} {k i : Nat} (hk : h.getLsbD k = true) (hki : k ≤ i) :
    h.getLsbD (scanDown h i) = true := by
  induction i with
  | zero =>
    obtain rfl := Nat.le_zero.mp hki
    exact hk
  | succ i ih =>
    unfold scanDown
    split
    next hset => exact hset
    next hclear =>
      have hne : k ≠ i + 1 := fun heq => hclear (heq ▸ hk)
      exact ih (by omega)

/-- The scan downward passes only clear bits. -/
theorem getLsbD_of_scanDown_lt {h : BitVec 16} {i j : Nat} (hlt : scanDown h i < j) (hj : j ≤ i) :
    h.getLsbD j = false := by
  induction i with
  | zero => omega
  | succ i ih =>
    unfold scanDown at hlt
    split at hlt
    next => omega
    next hclear =>
      obtain rfl | hne := eq_or_ne j (i + 1)
      · exact Bool.eq_false_iff.mpr hclear
      · exact ih hlt (by omega)

theorem scanUp_le (h : BitVec 16) (n i : Nat) : scanUp h n i ≤ i + n := by
  induction n generalizing i with
  | zero => exact Nat.le_refl i
  | succ n ih =>
    unfold scanUp
    split
    · omega
    · exact (ih (i + 1)).trans (by omega)

/-- The scan upward stops at a set bit if there is one on its way. -/
theorem getLsbD_scanUp {h : BitVec 16} {k n i : Nat} (hk : h.getLsbD k = true) (hik : i ≤ k) (hkn : k ≤ i + n) :
    h.getLsbD (scanUp h n i) = true := by
  induction n generalizing i with
  | zero =>
    obtain rfl := Nat.le_antisymm hkn hik
    exact hk
  | succ n ih =>
    unfold scanUp
    split
    next hset => exact hset
    next hclear =>
      have hne : k ≠ i := fun heq => hclear (heq ▸ hk)
      exact ih (by omega) (by omega)

/-- The scan upward passes only clear bits. -/
theorem getLsbD_of_lt_scanUp {h : BitVec 16} {n i j : Nat} (hij : i ≤ j) (hlt : j < scanUp h n i) :
    h.getLsbD j = false := by
  induction n generalizing i with
  | zero => exact absurd hlt (Nat.not_lt.mpr hij)
  | succ n ih =>
    unfold scanUp at hlt
    split at hlt
    next => omega
    next hclear =>
      obtain rfl | hne := eq_or_ne j i
      · exact Bool.eq_false_iff.mpr hclear
      · exact ih (by omega) hlt

theorem msb_toNat (h : BitVec 16) : (msb h).toNat = scanDown h 15 := by
  have hle := scanDown_le h 15
  rw [msb, BitVec.toNat_ofNat]
  omega

theorem lsb_toNat (h : BitVec 16) : (lsb h).toNat = scanUp h 15 0 := by
  have hle := scanUp_le h 15 0
  rw [lsb, BitVec.toNat_ofNat]
  omega

theorem getLsbD_msb {h : BitVec 16} (h0 : h ≠ 0) : h.getLsbD (msb h).toNat = true := by
  obtain ⟨k, hk15, hk⟩ := exists_getLsbD_of_ne_zero h0
  exact msb_toNat h ▸ getLsbD_scanDown hk hk15

theorem getLsbD_of_msb_lt {h : BitVec 16} {j : Nat} (hj : (msb h).toNat < j) : h.getLsbD j = false := by
  obtain hle | hgt := le_or_gt j 15
  · exact getLsbD_of_scanDown_lt (msb_toNat h ▸ hj) hle
  · exact BitVec.getLsbD_of_ge h j hgt

theorem getLsbD_lsb {h : BitVec 16} (h0 : h ≠ 0) : h.getLsbD (lsb h).toNat = true := by
  obtain ⟨k, hk15, hk⟩ := exists_getLsbD_of_ne_zero h0
  exact lsb_toNat h ▸ getLsbD_scanUp hk (Nat.zero_le k) (by omega)

theorem getLsbD_of_lt_lsb {h : BitVec 16} {j : Nat} (hj : j < (lsb h).toNat) : h.getLsbD j = false :=
  getLsbD_of_lt_scanUp (Nat.zero_le j) (lsb_toNat h ▸ hj)

/-- A set bit with none above it is the highest (41_resolver.md R130). -/
theorem msb_eq {h : BitVec 16} {l : BitVec 4} (hset : h.getLsbD l.toNat = true)
    (habove : ∀ j, l.toNat < j → h.getLsbD j = false) : msb h = l := by
  have hset' := getLsbD_msb (ne_zero_of_getLsbD hset)
  have hle : ¬l.toNat < (msb h).toNat := fun hlt => by simp [habove _ hlt] at hset'
  have hge : ¬(msb h).toNat < l.toNat := fun hlt => by simp [getLsbD_of_msb_lt hlt] at hset
  exact BitVec.eq_of_toNat_eq (by omega)

/-- A set bit with none below it is the lowest (41_resolver.md R130). -/
theorem lsb_eq {h : BitVec 16} {r : BitVec 4} (hset : h.getLsbD r.toNat = true)
    (hbelow : ∀ j, j < r.toNat → h.getLsbD j = false) : lsb h = r := by
  have hset' := getLsbD_lsb (ne_zero_of_getLsbD hset)
  have hle : ¬r.toNat < (lsb h).toNat := fun hlt => by simp [getLsbD_of_lt_lsb hlt] at hset
  have hge : ¬(lsb h).toNat < r.toNat := fun hlt => by simp [hbelow _ hlt] at hset'
  exact BitVec.eq_of_toNat_eq (by omega)

/-! ### The track update -/

/-- The two directions exclude each other under every STICK_RULE (41_resolver.md R133). -/
theorem not_toward15_and_toward0 (rule : StickRule) (t : Track) (l r : BitVec 4) :
    ¬(toward15 rule t l r = true ∧ toward0 rule t l r = true) := by
  cases rule <;> simp only [toward15, toward0, decide_eq_true_eq] <;> bv_omega

/-- Extents that stay where they are move in neither direction. -/
theorem toward15_self (rule : StickRule) (t : Track) : toward15 rule t t.lm t.rm = false := by
  cases rule <;> simp [toward15]

theorem toward0_self (rule : StickRule) (t : Track) : toward0 rule t t.lm t.rm = false := by
  cases rule <;> simp [toward0]

theorem trackUpdate_zero (cfg : Params) (t : Track) : trackUpdate cfg t 0 = ⟨0, 15, cfg.center⟩ := if_pos rfl

theorem trackUpdate_of_ne_zero {h : BitVec 16} (h0 : h ≠ 0) (cfg : Params) (t : Track) :
    trackUpdate cfg t h =
      ⟨msb h, lsb h,
        if toward15 cfg.stickRule t (msb h) (lsb h) then 0x00
        else if toward0 cfg.stickRule t (msb h) (lsb h) then 0xFF
        else t.axis⟩ := if_neg h0

/-- The same half again moves no extent and keeps the axis. -/
theorem trackUpdate_trackUpdate (cfg : Params) (t : Track) (h : BitVec 16) :
    trackUpdate cfg (trackUpdate cfg t h) h = trackUpdate cfg t h := by
  obtain rfl | h0 := eq_or_ne h 0
  · rw [trackUpdate_zero, trackUpdate_zero]
  · rw [trackUpdate_of_ne_zero h0, trackUpdate_of_ne_zero h0]
    simp only [toward15_self _ ⟨msb h, lsb h, _⟩, toward0_self _ ⟨msb h, lsb h, _⟩, Bool.false_eq_true, if_false]

/-- Settles O38: the scans find the extents, and the directions are the model's own comparisons. -/
theorem trackUpdateFollowsTheExtents : Obligations.TrackUpdateFollowsTheExtents := by
  unfold Obligations.TrackUpdateFollowsTheExtents
  refine ⟨trackUpdate_zero, fun cfg t h l r hl habove hr hbelow => ?_⟩
  rw [trackUpdate_of_ne_zero (ne_zero_of_getLsbD hl), msb_eq hl habove, lsb_eq hr hbelow]
  intro up down
  have hup : toward15 cfg.stickRule t l r = true ↔ up := by
    unfold toward15 up
    cases cfg.stickRule <;> exact decide_eq_true_iff
  have hdown : toward0 cfg.stickRule t l r = true ↔ down := by
    unfold toward0 down
    cases cfg.stickRule <;> exact decide_eq_true_iff
  have hexcl := not_toward15_and_toward0 cfg.stickRule t l r
  rw [← hup, ← hdown]
  refine ⟨rfl, rfl, fun hu => if_pos hu, fun hd => ?_, fun hnu hnd => (if_neg hnu).trans (if_neg hnd), hexcl⟩
  exact (if_neg fun hu => hexcl ⟨hu, hd⟩).trans (if_pos hd)

/-! ### The first touch -/

/-- Only bit 15 is set in a nonzero half whose lowest set bit is 15. -/
theorem eq_of_lsb_eq_fifteen {h : BitVec 16} (h0 : h ≠ 0) (hlsb : lsb h = 15) : h = 0x8000 := by
  have hset := getLsbD_lsb h0
  rw [hlsb] at hset
  refine BitVec.eq_of_getLsbD_eq fun k hk => ?_
  obtain hlt | rfl : k < 15 ∨ k = 15 := by omega
  · have hclear : h.getLsbD k = false := getLsbD_of_lt_lsb (by rw [hlsb]; exact hlt)
    rw [hclear]
    interval_cases k <;> rfl
  · exact hset

/-- Only bit 0 is set in a nonzero half whose highest set bit is 0. -/
theorem eq_of_msb_eq_zero {h : BitVec 16} (h0 : h ≠ 0) (hmsb : msb h = 0) : h = 0x0001 := by
  have hset := getLsbD_msb h0
  rw [hmsb] at hset
  refine BitVec.eq_of_getLsbD_eq fun k hk => ?_
  obtain rfl | hpos := Nat.eq_zero_or_pos k
  · exact hset
  · have hclear : h.getLsbD k = false := getLsbD_of_msb_lt (by rw [hmsb]; exact hpos)
    rw [hclear]
    interval_cases k <;> rfl

/-- From `{0, 15, CENTER}` a move toward 15 leaves the right extent at 15 (41_resolver.md R138 (c)). -/
theorem toward15_default_iff {h : BitVec 16} (h0 : h ≠ 0) (rule : StickRule) (center : BitVec 8) :
    toward15 rule ⟨0, 15, center⟩ (msb h) (lsb h) = true ↔ h = 0x8000 ∧ (rule = .either ∨ rule = .leftStrict) := by
  constructor
  · intro hup
    obtain ⟨hlsb, hrule⟩ : lsb h = 15 ∧ (rule = .either ∨ rule = .leftStrict) := by
      cases rule <;> simp [toward15] at hup ⊢ <;> bv_omega
    exact ⟨eq_of_lsb_eq_fifteen h0 hlsb, hrule⟩
  · rintro ⟨rfl, rfl | rfl⟩ <;> rfl

/-- From `{0, 15, CENTER}` a move toward 0 leaves the left extent at 0 (41_resolver.md R138 (d)). -/
theorem toward0_default_iff {h : BitVec 16} (h0 : h ≠ 0) (rule : StickRule) (center : BitVec 8) :
    toward0 rule ⟨0, 15, center⟩ (msb h) (lsb h) = true ↔ h = 0x0001 ∧ (rule = .either ∨ rule = .rightStrict) := by
  constructor
  · intro hdown
    obtain ⟨hmsb, hrule⟩ : msb h = 0 ∧ (rule = .either ∨ rule = .rightStrict) := by
      cases rule <;> simp [toward0] at hdown ⊢ <;> bv_omega
    exact ⟨eq_of_msb_eq_zero h0 hmsb, hrule⟩
  · rintro ⟨rfl, rfl | rfl⟩ <;> rfl

/-- Settles O40: from the default track each direction is a move of one half only. -/
theorem firstTouchFromTheDefaultTrack : Obligations.FirstTouchFromTheDefaultTrack := by
  unfold Obligations.FirstTouchFromTheDefaultTrack
  intro cfg h
  obtain rfl | h0 := eq_or_ne h 0
  · rw [trackUpdate_zero]
    rfl
  · simp only [trackUpdate_of_ne_zero h0, toward15_default_iff h0, toward0_default_iff h0]

/-! ### SETGMODE -/

/-- Settles O35: the effect of SETGMODE on a change and without one. -/
theorem setgmodeResetsTracksOnAChange : Obligations.SetgmodeResetsTracksOnAChange := by
  unfold Obligations.SetgmodeResetsTracksOnAChange
  have hexec (s : State) (v : BitVec 8) (hport : s.port = .a) : exec (.setgmode v) s = .next (setgmodeEffect v s) :=
    exec_of_legal (by rw [hport]; rfl)
  refine ⟨fun s v hport hne => ?_, fun s hport => ?_, fun v => badOn_of_illegal rfl, reservedBitsAreBad_of_row .setgmode⟩
  · rw [hexec s v hport, setgmodeEffect_of_ne hne]
  · rw [hexec s _ hport, setgmodeEffect_self rfl]

/-! ### RESOLVE and RESOLVEI -/

theorem exec_resolve {s : State} (hport : s.port = .a) :
    exec .resolve s = .next { s with a := resolveBitmap s.cfg s.a.bitmap s.a } :=
  exec_of_legal (by rw [hport]; rfl)

theorem exec_resolvei {s : State} (hport : s.port = .a) (x : Word) :
    exec (.resolvei x) s = .next { s with a := resolveBitmap s.cfg x s.a } :=
  exec_of_legal (by rw [hport]; rfl)

theorem resolveBitmap_of_arcade {a : UnitA} (h : a.gmode = 0) (cfg : Params) (x : Word) :
    resolveBitmap cfg x a = { a with axes := arcadeAxes cfg.center x } := by
  simp [resolveBitmap, gestureModeOf, h]

theorem resolveBitmap_of_stick {a : UnitA} (h : a.gmode = 1) (cfg : Params) (x : Word) :
    resolveBitmap cfg x a = stickResolve cfg x a := by
  simp [resolveBitmap, gestureModeOf, h]

theorem resolveBitmap_of_unrecognized {a : UnitA} (h : 2 ≤ a.gmode.toNat) (cfg : Params) (x : Word) :
    resolveBitmap cfg x a = a := by
  have hne0 : a.gmode ≠ 0 := by bv_omega
  have hne1 : a.gmode ≠ 1 := by bv_omega
  simp only [resolveBitmap, gestureModeOf, if_neg hne0, if_neg hne1]

/-- Settles O36, each mode by its own equation. -/
theorem arcadeResolveSlicesTheBitmap : Obligations.ArcadeResolveSlicesTheBitmap := by
  unfold Obligations.ArcadeResolveSlicesTheBitmap
  refine ⟨rfl, fun s x hport hmode => ⟨?_, ?_⟩, fun s x hport hmode => ?_,
    ⟨badOn_of_illegal rfl, fun x => badOn_of_illegal rfl⟩, reservedBitsAreBad_of_row .resolve,
    reservedBitsAreBad_of_row .resolvei⟩
  · rw [exec_resolvei hport, resolveBitmap_of_arcade hmode, arcadeAxes]
  · rintro rfl
    rw [exec_resolve hport, resolveBitmap_of_arcade hmode, arcadeAxes]
  · simp only [exec_resolve hport, exec_resolvei hport, resolveBitmap_of_unrecognized hmode, and_self]

/-- Settles O37: the halves are the model's own. -/
theorem stickResolveTracksBothHalves : Obligations.StickResolveTracksBothHalves := by
  unfold Obligations.StickResolveTracksBothHalves
  intro s x hport hmode
  constructor
  · rw [exec_resolvei hport, resolveBitmap_of_stick hmode]
    rfl
  · rintro rfl
    rw [exec_resolve hport, resolveBitmap_of_stick hmode]
    rfl

/-! ### Resolving twice -/

theorem resolveBitmap_resolveBitmap (cfg : Params) (x : Word) (a : UnitA) :
    resolveBitmap cfg x (resolveBitmap cfg x a) = resolveBitmap cfg x a := by
  obtain h | h | h : a.gmode = 0 ∨ a.gmode = 1 ∨ 2 ≤ a.gmode.toNat := by bv_omega
  · rw [resolveBitmap_of_arcade h, resolveBitmap_of_arcade (a := { a with axes := arcadeAxes cfg.center x }) h]
  · rw [resolveBitmap_of_stick h, resolveBitmap_of_stick (a := stickResolve cfg x a) h]
    simp only [stickResolve, trackUpdate_trackUpdate]
  · rw [resolveBitmap_of_unrecognized h, resolveBitmap_of_unrecognized h]

theorem badCmd_badCmd (s : State) : badCmd (badCmd s) = badCmd s := by
  cases hp : s.port <;> simp [badCmd, setErr, hp]

/-- A command whose effect is idempotent is idempotent on both ports: BadCmd is too. -/
theorem exec_exec_of_idempotent {i : Instr} {s t : State} (hidem : effectOf i (effectOf i s) = effectOf i s)
    (h : exec i s = .next t) : exec i t = .next t := by
  obtain ⟨-, -, -, hport⟩ := exec_frame h
  obtain ⟨hl, rfl⟩ | ⟨hl, rfl⟩ := exec_cases h <;> rw [← hport] at hl
  · rw [exec_of_legal hl, hidem]
  · rw [exec_of_illegal hl, badCmd_badCmd]

theorem resolveiEffect_resolveiEffect (x : Word) (s : State) :
    resolveiEffect x (resolveiEffect x s) = resolveiEffect x s := by
  simp only [resolveiEffect, resolveBitmap_resolveBitmap]

/-- A resolution keeps BITMAP, so the second one is of the same word. -/
theorem resolveEffect_resolveEffect (s : State) : resolveEffect (resolveEffect s) = resolveEffect s := by
  have hbitmap : (resolveBitmap s.cfg s.a.bitmap s.a).bitmap = s.a.bitmap := by
    obtain ⟨_, _, _, hr⟩ := resolveBitmap_frame s.cfg s.a.bitmap s.a
    rw [hr]
  simp only [resolveEffect, hbitmap, resolveBitmap_resolveBitmap]

/-- Settles O39: both effects are idempotent. -/
theorem resolvingTwiceIsResolvingOnce : Obligations.ResolvingTwiceIsResolvingOnce := by
  unfold Obligations.ResolvingTwiceIsResolvingOnce
  exact ⟨fun s _ => exec_exec_of_idempotent (resolveEffect_resolveEffect s),
    fun x s _ => exec_exec_of_idempotent (resolveiEffect_resolveiEffect x s)⟩

end Sys2Proof.Machine
end

section
/-! PROOFS. The compositor's configuration: what SETBRI to CLRPC write on port C, and that they are bad on port A
(spec/42_compositor_config.md R150 to R162). -/

namespace Sys2Proof.Machine

/-- A command whose row names port C takes its effect there (30_encoding.md R86). -/
theorem exec_of_port_c {i : Instr} {s : State} (hport : s.port = .c) (hlegal : i.opcode.legalOn .c = true) :
    exec i s = .next (effectOf i s) :=
  exec_of_legal (by rw [hport, hlegal])

/-! ### SETBRI and SETSPD -/

/-- Nothing is lost in the 8 bits of the register (42_compositor_config.md R150). -/
theorem toNat_clampByte (u24 : BitVec 24) : (clampByte u24).toNat = min u24.toNat 255 := by
  rw [clampByte, BitVec.toNat_ofNat, Nat.mod_eq_of_lt (by omega)]

/-- Settles O42: both registers take the clamped operand. -/
theorem brightnessAndSpeedAreClamped : Obligations.BrightnessAndSpeedAreClamped := by
  unfold Obligations.BrightnessAndSpeedAreClamped
  exact ⟨fun s u hport => ⟨clampByte u, toNat_clampByte u, exec_of_port_c hport rfl, exec_of_port_c hport rfl⟩,
    fun u => ⟨badOn_of_illegal rfl, badOn_of_illegal rfl⟩⟩

/-! ### SETIMODE and SETTMODE -/

theorem setimodeEffect_of_ne {v : BitVec 8} {s : State} (h : v ≠ s.c.imode) :
    setimodeEffect v s =
      { s with
        c := { s.c with
          imode := v, pulseP := BitVec.ofNat 7 s.cfg.pulseMax, pulseDir := false, phase := 0, accP := 0, accR := 0 } } :=
  if_pos h

theorem setimodeEffect_self {v : BitVec 8} {s : State} (h : v = s.c.imode) : setimodeEffect v s = s :=
  if_neg (not_not.mpr h)

/-- Settles O43: the effect of SETIMODE on a change, where PULSE_MAX fits the 7 bits of PULSE_P, and without one. -/
theorem setimodeResetsTheIdleTimelines : Obligations.SetimodeResetsTheIdleTimelines := by
  unfold Obligations.SetimodeResetsTheIdleTimelines
  refine ⟨fun s v hport hne => ⟨_, toNat_ofNat_of_le_pulseMax (Nat.le_refl _), ?_⟩, fun s hport => ?_,
    fun v => badOn_of_illegal rfl, reservedBitsAreBad_of_row .setimode⟩
  · rw [exec_of_port_c hport rfl, effectOf, setimodeEffect_of_ne hne]
  · rw [exec_of_port_c hport rfl, effectOf, setimodeEffect_self rfl]

theorem settmodeEffect_of_ne {v : BitVec 8} {s : State} (h : v ≠ s.c.tmode) :
    settmodeEffect v s =
      { s with
        c := { s.c with
          tmode := v, fadeF := perSegment fun _ => 0, fadeC := perSegment fun _ => Color.black, accF := 0 } } :=
  if_pos h

theorem settmodeEffect_self {v : BitVec 8} {s : State} (h : v = s.c.tmode) : settmodeEffect v s = s :=
  if_neg (not_not.mpr h)

/-- Settles O44: the effect of SETTMODE on a change, read at each segment, and without one. -/
theorem settmodeClearsTheFades : Obligations.SettmodeClearsTheFades := by
  unfold Obligations.SettmodeClearsTheFades
  refine ⟨fun s v hport hne => ⟨perSegment fun _ => 0, perSegment fun _ => Color.black, ?_, fun i => ?_⟩,
    fun s hport => ?_, fun v => badOn_of_illegal rfl, reservedBitsAreBad_of_row .settmode⟩
  · rw [exec_of_port_c hport rfl, effectOf, settmodeEffect_of_ne hne]
  · exact ⟨perSegment_get_fin _ i, perSegment_get_fin _ i⟩
  · rw [exec_of_port_c hport rfl, effectOf, settmodeEffect_self rfl]

/-! ### The plain setters -/

/-- Settles O45: on port C each setter's effect is its write, on port A its row is illegal, and the four formats with
reserved bits refuse them. -/
theorem settersWriteTheirRegister : Obligations.SettersWriteTheirRegister := by
  unfold Obligations.SettersWriteTheirRegister
  refine ⟨fun s col b x hport => ?_, fun col b x => ?_, reservedBitsAreBad_of_row .setupc,
    reservedBitsAreBad_of_row .setraw, reservedBitsAreBad_of_row .settouch, reservedBitsAreBad_of_row .clrpc⟩
  · have hexec {i : Instr} (hlegal : i.opcode.legalOn .c = true) : exec i s = .next (effectOf i s) :=
      exec_of_port_c hport hlegal
    exact ⟨hexec rfl, hexec rfl, hexec rfl, hexec rfl, hexec rfl, hexec rfl, hexec rfl⟩
  · exact ⟨badOn_of_illegal rfl, badOn_of_illegal rfl, badOn_of_illegal rfl, badOn_of_illegal rfl,
      badOn_of_illegal rfl, badOn_of_illegal rfl, badOn_of_illegal rfl⟩

end Sys2Proof.Machine
end

section
/-! PROOFS. The two counts of the rendering: a timeline's steps over many advances, and the pulse's unit steps
(spec/43_compositor_render.md R180, R183, R202). -/

namespace Sys2Proof.Machine

/-! ### The stepper over many advances -/

/-- The sum of the step counts, and unit C, after one more advance. -/
def advanceMore (cfg : Params) (tl : Timeline) (r : Nat × UnitC) (e : Nat) : Nat × UnitC :=
  (r.1 + (advance cfg tl e r.2).1, (advance cfg tl e r.2).2)

theorem advance_spd (cfg : Params) (tl : Timeline) (e : Nat) (c : UnitC) : (advance cfg tl e c).2.spd = c.spd :=
  setAcc_spd _ _ _

/-- One advance splits the sum into steps and remainder, and loses nothing (43_compositor_render.md R180). -/
theorem advance_count_mul_add_acc (cfg : Params) (tl : Timeline) (e : Nat) (c : UnitC) :
    (advance cfg tl e c).1 * threshold cfg tl c.spd + (acc (advance cfg tl e c).2 tl).toNat = (acc c tl).toNat + e := by
  rw [advance_count, advance_acc, Nat.div_add_mod']

theorem advance_acc_lt (cfg : Params) (tl : Timeline) (e : Nat) (c : UnitC) :
    (acc (advance cfg tl e c).2 tl).toNat < threshold cfg tl c.spd := by
  rw [advance_acc]
  exact Nat.mod_lt _ (threshold_pos _ _ _)

/-- Over any advances at one speed nothing is lost: steps and accumulator hold the exact total. -/
theorem foldl_advanceMore_total (cfg : Params) (tl : Timeline) (es : List Nat) (r : Nat × UnitC) :
    (es.foldl (advanceMore cfg tl) r).1 * threshold cfg tl r.2.spd + (acc (es.foldl (advanceMore cfg tl) r).2 tl).toNat =
      r.1 * threshold cfg tl r.2.spd + (acc r.2 tl).toNat + es.sum := by
  induction es generalizing r with
  | nil => simp
  | cons e es ih =>
    have hrest := ih (advanceMore cfg tl r e)
    have hone := advance_count_mul_add_acc cfg tl e r.2
    simp only [advanceMore, advance_spd, Nat.add_mul] at hrest
    simp only [List.foldl_cons, List.sum_cons, advanceMore]
    omega

/-- The accumulator is below the threshold after an advance, and stays there. -/
theorem foldl_advanceMore_acc_lt (cfg : Params) (tl : Timeline) (es : List Nat) (r : Nat × UnitC)
    (h : es ≠ [] ∨ (acc r.2 tl).toNat < threshold cfg tl r.2.spd) :
    (acc (es.foldl (advanceMore cfg tl) r).2 tl).toNat < threshold cfg tl r.2.spd := by
  induction es generalizing r with
  | nil => simpa using h
  | cons e es ih =>
    have hrest := ih (advanceMore cfg tl r e) (.inr (by rw [advanceMore, advance_spd]; exact advance_acc_lt cfg tl e r.2))
    rwa [advanceMore, advance_spd] at hrest

/-- Settles O46: the total and the bound of the accumulator make steps and accumulator its quotient and remainder. -/
theorem stepperCountsDependOnlyOnTheTotal : Obligations.StepperCountsDependOnlyOnTheTotal := by
  unfold Obligations.StepperCountsDependOnlyOnTheTotal
  intro cfg tl c es thr run
  have hpos : 0 < thr := threshold_pos cfg tl c.spd
  have htotal : run.1 * thr + (acc run.2 tl).toNat = (acc c tl).toNat + es.sum := by
    have h := foldl_advanceMore_total cfg tl es (0, c)
    simp only [Nat.zero_mul, Nat.zero_add] at h
    exact h
  refine ⟨hpos, htotal, fun hne => ?_, fun k hzero hsum => ?_⟩
  · have hlt : (acc run.2 tl).toNat < thr := foldl_advanceMore_acc_lt cfg tl es (0, c) (.inl hne)
    rw [← htotal, Nat.mul_add_mod', Nat.mod_eq_of_lt hlt]
  · have hacc : (acc c tl).toNat = 0 := congrArg BitVec.toNat hzero
    have hlt : (acc run.2 tl).toNat < thr := foldl_advanceMore_acc_lt cfg tl es (0, c) (.inr (hacc.symm ▸ hpos))
    rw [hacc, hsum, Nat.zero_add] at htotal
    have hcount : run.1 = k := by
      rw [← Nat.mul_div_cancel k hpos, ← htotal, Nat.add_comm, Nat.add_mul_div_right _ _ hpos, Nat.div_eq_of_lt hlt,
        Nat.zero_add]
    subst hcount
    exact ⟨rfl, BitVec.eq_of_toNat_eq (by simpa using htotal)⟩

/-! ### The pulse's unit steps -/

theorem pulseSteps_eq_iterate (cfg : Params) (n : Nat) (p : Nat × Bool) :
    pulseSteps cfg n p = (pulseUnitStep cfg)^[n] p := by
  induction n generalizing p with
  | zero => rfl
  | succ n ih => exact ih (pulseUnitStep cfg p)

theorem pulseUnitStep_turn_low {cfg : Params} {v : Nat} (h : v ≤ cfg.pulseMin + 1) :
    pulseUnitStep cfg (v, false) = (cfg.pulseMin, true) := if_pos (by omega)

theorem pulseUnitStep_turn_high {cfg : Params} {v : Nat} (h : cfg.pulseMax ≤ v + 1) :
    pulseUnitStep cfg (v, true) = (cfg.pulseMax, false) := if_pos h

theorem pulseUnitStep_fall {cfg : Params} {v : Nat} (h : cfg.pulseMin < v) :
    pulseUnitStep cfg (v + 1, false) = (v, false) := if_neg (by omega)

theorem pulseUnitStep_rise {cfg : Params} {v : Nat} (h : v + 1 < cfg.pulseMax) :
    pulseUnitStep cfg (v, true) = (v + 1, true) := if_neg (by omega)

/-- A falling pulse is at its low bound, and turned, after its height above it in steps, or after one. -/
theorem iterate_pulseUnitStep_fall (cfg : Params) (v : Nat) :
    (pulseUnitStep cfg)^[max 1 (v - cfg.pulseMin)] (v, false) = (cfg.pulseMin, true) := by
  induction v with
  | zero =>
    rw [Nat.zero_sub]
    exact pulseUnitStep_turn_low (Nat.zero_le _)
  | succ v ih =>
    by_cases h : cfg.pulseMin < v
    · rw [show max 1 (v + 1 - cfg.pulseMin) = max 1 (v - cfg.pulseMin) + 1 by omega, Function.iterate_succ_apply,
        pulseUnitStep_fall h, ih]
    · rw [show max 1 (v + 1 - cfg.pulseMin) = 1 by omega]
      exact pulseUnitStep_turn_low (by omega)

/-- A rising pulse is at its high bound, and turned, after its depth below it in steps, or after one. -/
theorem iterate_pulseUnitStep_rise (cfg : Params) (v : Nat) :
    (pulseUnitStep cfg)^[max 1 (cfg.pulseMax - v)] (v, true) = (cfg.pulseMax, false) := by
  induction hd : cfg.pulseMax - v generalizing v with
  | zero => exact pulseUnitStep_turn_high (by omega)
  | succ d ih =>
    by_cases h : v + 1 < cfg.pulseMax
    · rw [show max 1 (d + 1) = max 1 d + 1 by omega, Function.iterate_succ_apply, pulseUnitStep_rise h,
        ih (v + 1) (by omega)]
    · rw [show max 1 (d + 1) = 1 by omega]
      exact pulseUnitStep_turn_high (by omega)

/-- A period is one way down and one way up; with equal bounds each way is the one step that flips the direction. -/
theorem pulsePeriod_eq (cfg : Params) :
    pulsePeriod cfg = max 1 (cfg.pulseMax - cfg.pulseMin) + max 1 (cfg.pulseMax - cfg.pulseMin) := by
  unfold pulsePeriod
  split <;> omega

theorem isPeriodicPt_pulse_low (cfg : Params) :
    Function.IsPeriodicPt (pulseUnitStep cfg) (pulsePeriod cfg) (cfg.pulseMin, true) := by
  rw [pulsePeriod_eq, Function.IsPeriodicPt, Function.IsFixedPt, Function.iterate_add_apply, iterate_pulseUnitStep_rise,
    iterate_pulseUnitStep_fall]

theorem isPeriodicPt_pulse_high (cfg : Params) :
    Function.IsPeriodicPt (pulseUnitStep cfg) (pulsePeriod cfg) (cfg.pulseMax, false) := by
  rw [pulsePeriod_eq, Function.IsPeriodicPt, Function.IsFixedPt, Function.iterate_add_apply, iterate_pulseUnitStep_fall,
    iterate_pulseUnitStep_rise]

/-- What turns periodic is periodic at every later step. -/
theorem isPeriodicPt_iterate_of_le {α : Type} {f : α → α} {x y : α} {k m n : Nat} (hy : Function.IsPeriodicPt f n y)
    (hreach : f^[k] x = y) (hkm : k ≤ m) : Function.IsPeriodicPt f n (f^[m] x) := by
  rw [← Nat.sub_add_cancel hkm, Function.iterate_add_apply, hreach]
  exact hy.apply_iterate _

/-- From every 7-bit PULSE_P the first 128 steps reach a bound, so the pulse is on its triangle wave (log 17). -/
theorem isPeriodicPt_pulse_after_128 (cfg : Params) {v : Nat} (hv : v < 128) (dir : Bool) :
    Function.IsPeriodicPt (pulseUnitStep cfg) (pulsePeriod cfg) ((pulseUnitStep cfg)^[128] (v, dir)) := by
  have hmax := cfg.pulse_max_le
  cases dir
  · exact isPeriodicPt_iterate_of_le (isPeriodicPt_pulse_low cfg) (iterate_pulseUnitStep_fall cfg v) (by omega)
  · exact isPeriodicPt_iterate_of_le (isPeriodicPt_pulse_high cfg) (iterate_pulseUnitStep_rise cfg v) (by omega)

/-- Settles O47: after the 128 steps that are kept, a whole period of further ones changes nothing. -/
theorem reducedPulseCountIsExact : Obligations.ReducedPulseCountIsExact := by
  unfold Obligations.ReducedPulseCountIsExact
  intro cfg n p dir
  rw [pulseReduced]
  split
  case isTrue => rfl
  case isFalse h =>
    have hperiodic := isPeriodicPt_pulse_after_128 cfg p.isLt dir
    calc pulseSteps cfg (128 + (n - 128) % pulsePeriod cfg) (p.toNat, dir)
      _ = (pulseUnitStep cfg)^[(n - 128) % pulsePeriod cfg] ((pulseUnitStep cfg)^[128] (p.toNat, dir)) := by
        rw [pulseSteps_eq_iterate, Nat.add_comm, Function.iterate_add_apply]
      _ = (pulseUnitStep cfg)^[n - 128] ((pulseUnitStep cfg)^[128] (p.toNat, dir)) := hperiodic.iterate_mod_apply _
      _ = pulseSteps cfg n (p.toNat, dir) := by
        rw [← Function.iterate_add_apply, Nat.sub_add_cancel (by omega), pulseSteps_eq_iterate]

end Sys2Proof.Machine
end

section
/-! PROOFS. Colours and their words: channels, the largest channel, and raw normalization
(spec/43_compositor_render.md R191, R193). -/

namespace Sys2Proof.Machine

/-- A colour's word is its channels' values, packed (00_scope.md R11). -/
theorem colorWord_eq_packRgb (c : Color) : colorWord c = packRgb c.r.toNat c.g.toNat c.b.toNat := by
  simp [colorWord, packRgb]

theorem channelOf_colorWord_le (c : Color) (ch : Fin 3) : channelOf (colorWord c) ch ≤ maxChannel c := by
  obtain ⟨hr, hg, hb⟩ := (Color.mk.injEq ..).mp (colorOfWord_colorWord c)
  obtain ⟨hrle, hgle, hble⟩ : c.r.toNat ≤ maxChannel c ∧ c.g.toNat ≤ maxChannel c ∧ c.b.toNat ≤ maxChannel c := by
    simp [maxChannel]
  match ch with
  | 0 => exact (congrArg BitVec.toNat hb).trans_le hble
  | 1 => exact (congrArg BitVec.toNat hg).trans_le hgle
  | 2 => exact (congrArg BitVec.toNat hr).trans_le hrle

theorem maxChannel_le (c : Color) : maxChannel c ≤ 255 := by
  have hr := c.r.isLt
  have hg := c.g.isLt
  have hb := c.b.isLt
  unfold maxChannel
  omega

/-- A monotone operation on the channels takes the largest channel to the largest one, if that fits 8 bits. -/
theorem maxChannel_mapChannels {f : Nat → Nat} (hf : Monotone f) {c : Color} (hfit : f (maxChannel c) < 256) :
    maxChannel (mapChannels f c) = f (maxChannel c) := by
  have hmax : f (maxChannel c) = max (f c.r.toNat) (max (f c.g.toNat) (f c.b.toNat)) := by
    rw [maxChannel, hf.map_max, hf.map_max]
  rw [hmax] at hfit ⊢
  simp only [maxChannel, mapChannels, BitVec.toNat_ofNat]
  omega

theorem mul_div_le_of_le {x k m : Nat} (h : x ≤ m) : x * k / m ≤ k :=
  Nat.div_le_of_le_mul (Nat.mul_le_mul_right k h)

theorem mul_percent_le {p : Nat} (h : p ≤ 100) (x : Nat) : x * p / 100 ≤ x := by
  rw [Nat.mul_comm]
  exact mul_div_le_of_le h

theorem monotone_mul_div (k m : Nat) : Monotone fun x => x * k / m :=
  fun _ _ h => Nat.div_le_div_right (Nat.mul_le_mul_right k h)

/-- Scaling by BRI/255 leaves no channel above BRI (43_compositor_render.md R191). -/
theorem maxChannel_brighten_le (bri : BitVec 8) (c : Color) : maxChannel (brighten bri.toNat c) ≤ bri.toNat := by
  have hle : maxChannel c * bri.toNat / 255 ≤ bri.toNat := mul_div_le_of_le (maxChannel_le c)
  rwa [brighten, maxChannel_mapChannels (monotone_mul_div _ _) (hle.trans_lt bri.isLt)]

theorem rawnorm_of_le {bri : Nat} {c : Color} (h : maxChannel c ≤ bri) : rawnorm bri c = c := if_neg (by omega)

theorem rawnorm_of_lt {bri : Nat} {c : Color} (h : bri < maxChannel c) :
    rawnorm bri c = mapChannels (fun ch => ch * bri / maxChannel c) c := if_pos h

/-- A colour with a channel above BRI is scaled so that its largest channel is BRI exactly: BRI times m, div m. -/
theorem maxChannel_rawnorm_of_lt {bri : BitVec 8} {c : Color} (h : bri.toNat < maxChannel c) :
    maxChannel (rawnorm bri.toNat c) = bri.toNat := by
  have htop : maxChannel c * bri.toNat / maxChannel c = bri.toNat := Nat.mul_div_cancel_left _ (by omega)
  rw [rawnorm_of_lt h, maxChannel_mapChannels (monotone_mul_div _ _) (htop.trans_lt bri.isLt), htop]

/-- Settles O57, by the two cases of raw normalization. -/
theorem rawNormalizationCapsTheLargestChannel : Obligations.RawNormalizationCapsTheLargestChannel := by
  unfold Obligations.RawNormalizationCapsTheLargestChannel
  refine fun bri c => ⟨?_, rawnorm_of_le, maxChannel_rawnorm_of_lt⟩
  obtain h | h := Nat.lt_or_ge bri.toNat (maxChannel c)
  · exact (maxChannel_rawnorm_of_lt h).le
  · rwa [rawnorm_of_le h]

end Sys2Proof.Machine
end

section
/-! PROOFS. TICK: the mailbox take, the blend factor, the two layers and the frame
(spec/43_compositor_render.md R180 to R192, R200, R202). -/

namespace Sys2Proof.Machine

/-! ### What a TICK leaves, whole -/

theorem takeTouch_c (s : State) : (takeTouch s).c = { s.c with touch := touchAfterTake s } := by
  rw [takeTouch_eq]
  rfl

theorem exec_tick_of_port_c {s : State} (e : BitVec 24) (hport : s.port = .c) :
    exec (.tick e) s = .next (tickEffect e.toNat s) :=
  exec_of_port_c hport rfl

/-- Settles O48: under raw override the effect is the mailbox take alone. -/
theorem tickUnderRawOverrideOnlyTakesTheMailbox : Obligations.TickUnderRawOverrideOnlyTakesTheMailbox := by
  unfold Obligations.TickUnderRawOverrideOnlyTakesTheMailbox
  refine ⟨fun s e hport hraw => ?_, fun e => badOn_of_illegal rfl⟩
  rw [exec_tick_of_port_c e hport, tickEffect_raw hraw, takeTouch_eq]
  rfl

/-- A rendering TICK draws its layers over the taken TOUCH and appends the frame of the colours they make. -/
theorem exec_tick_layers {s : State} (e : BitVec 24) (hport : s.port = .c) (hraw : s.c.rawen = false) :
    ∃ t, exec (.tick e) s = .next t ∧ t.c = renderLayers s.cfg e.toNat { s.c with touch := touchAfterTake s } ∧
      t.io.frames = s.io.frames ++ [frameOf s.cfg.lps (finalColors t.c).toList] :=
  ⟨_, exec_tick_render hport hraw, by rw [takeTouch_c], rfl⟩

/-- Settles O49: the frame of the three layers, read field by field. -/
theorem tickFrameOfWhatItWrites : Obligations.TickFrameOfWhatItWrites := by
  unfold Obligations.TickFrameOfWhatItWrites
  intro s e hport hraw
  refine ⟨renderLayers s.cfg e.toNat (takeTouch s).c, _, by rw [exec_tick_render hport hraw, takeTouch_eq], ?_⟩
  obtain ⟨_, _, _, _, _, _, _, _, _, _, _, _, hr, -⟩ := renderLayers_frame s.cfg e.toNat (takeTouch s).c
  rw [hr, takeTouch_c]
  simp

section
variable {cfg : Params} {e : Nat} {c : UnitC}

/-! ### The blend factor -/

theorem blendUpdate_accB : (blendUpdate cfg e c).accB.toNat = (c.accB.toNat + e) % threshold cfg .blend c.spd :=
  advance_acc cfg .blend e c

/-- Nothing is lost in the 7 bits of BLEND (43_compositor_render.md R181). -/
theorem blendUpdate_blend :
    (blendUpdate cfg e c).blend.toNat =
      if c.touch ≠ 0 then c.blend.toNat - min c.blend.toNat ((c.accB.toNat + e) / threshold cfg .blend c.spd)
      else min 100 (c.blend.toNat + (c.accB.toNat + e) / threshold cfg .blend c.spd) := by
  have hblend := c.blend.isLt
  rw [blendUpdate, BitVec.toNat_ofNat, Nat.mod_eq_of_lt (by split <;> omega)]
  rfl

/-! ### The idle layer -/

theorem effectiveIdleColor_eq : effectiveIdleColor c = if c.upc = true ∧ c.pcp = true then c.pcol else c.icol := by
  simp [effectiveIdleColor]

theorem pulseUnitStep_spec (p : Nat × Bool) : PulseUnitStep cfg p (pulseUnitStep cfg p) := by
  obtain ⟨v, dir⟩ := p
  refine ⟨?_, ?_, ?_, ?_⟩ <;> rintro rfl h
  · exact if_neg (by omega)
  · exact pulseUnitStep_turn_low h
  · exact pulseUnitStep_rise h
  · exact pulseUnitStep_turn_high h

/-- (PULSE_P, PULSE_DIR) after all the unit steps of an advance by `e` (43_compositor_render.md R183). -/
def pulseAfter (cfg : Params) (e : Nat) (c : UnitC) : Nat × Bool :=
  (pulseUnitStep cfg)^[(c.accP.toNat + e) / threshold cfg .pulse c.spd] (c.pulseP.toNat, c.pulseDir)

/-- PULSE_P stays within its 7 bits, whatever the bounds. -/
theorem pulseAfter_lt : (pulseAfter cfg e c).1 < 128 := by
  refine Function.Iterate.rec (fun q : Nat × Bool => q.1 < 128) c.pulseP.isLt (fun q hq => ?_) _
  have hle := cfg.pulse_le
  have hmax := cfg.pulse_max_le
  obtain ⟨v, dir⟩ := q
  cases dir <;> simp only [pulseUnitStep] <;> split <;> simp only at hq ⊢ <;> omega

/-- The reduced steps that Pulse runs are all the steps of its count. -/
theorem pulseLayer_eq :
    pulseLayer cfg e c = { (advance cfg .pulse e c).2 with
      pulseP := BitVec.ofNat 7 (pulseAfter cfg e c).1, pulseDir := (pulseAfter cfg e c).2
      idleL := perSegment fun _ => scalePercent (pulseAfter cfg e c).1 (effectiveIdleColor c) } := by
  rw [pulseAfter, ← pulseSteps_eq_iterate, ← reducedPulseCountIsExact]
  rfl

theorem pulseLayer_accP : (pulseLayer cfg e c).accP.toNat = (c.accP.toNat + e) % threshold cfg .pulse c.spd :=
  advance_acc cfg .pulse e c

theorem pulseLayer_pulseP : (pulseLayer cfg e c).pulseP.toNat = (pulseAfter cfg e c).1 := by
  rw [pulseLayer_eq, BitVec.toNat_ofNat, Nat.mod_eq_of_lt pulseAfter_lt]

theorem pulseLayer_pulseDir : (pulseLayer cfg e c).pulseDir = (pulseAfter cfg e c).2 := by
  rw [pulseLayer_eq]

theorem pulseLayer_idleL (i : Fin 32) :
    (pulseLayer cfg e c).idleL[i] = scalePercent (pulseLayer cfg e c).pulseP.toNat (effectiveIdleColor c) := by
  rw [pulseLayer_pulseP, pulseLayer_eq]
  exact perSegment_get_fin _ i

/-- Reading the gradient modulo its length always gives a colour (43_compositor_render.md R184). -/
theorem getElem?_gradient (i : Nat) : cfg.gradient[i % cfg.gradient.length]? = some (gradientAt cfg i) :=
  List.getElem?_eq_getElem _

theorem rainbowStaticLayer_idleL (i : Fin 32) : (rainbowStaticLayer cfg c).idleL[i] = gradientAt cfg cfg.rbOff[i] :=
  perSegment_get_fin _ i

theorem rainbowCycleLayer_accR :
    (rainbowCycleLayer cfg e c).accR.toNat = (c.accR.toNat + e) % threshold cfg .rainbow c.spd :=
  advance_acc cfg .rainbow e c

/-- The phase fits its 32 bits, since GLEN is at most 2^32 (log 5). -/
theorem rainbowCycleLayer_phase :
    (rainbowCycleLayer cfg e c).phase.toNat =
      (c.phase.toNat + (c.accR.toNat + e) / threshold cfg .rainbow c.spd) % cfg.gradient.length := by
  have hlt := Nat.mod_lt (c.phase.toNat + (c.accR.toNat + e) / threshold cfg .rainbow c.spd) cfg.glen_pos
  exact (BitVec.toNat_ofNat _ 32).trans (Nat.mod_eq_of_lt (hlt.trans_le cfg.glen_le))

theorem rainbowCycleLayer_idleL (i : Fin 32) :
    (rainbowCycleLayer cfg e c).idleL[i] = gradientAt cfg ((rainbowCycleLayer cfg e c).phase.toNat + cfg.rbOff[i]) := by
  rw [rainbowCycleLayer_phase]
  exact perSegment_get_fin _ i

/-! ### The touched layer -/

/-- A segment's fade counter after a TICK in a fade mode (43_compositor_render.md R188). -/
def fadeCount (cfg : Params) (e : Nat) (c : UnitC) (i : Fin 32) : Nat :=
  if c.touch.getLsbD i.val then 100
  else c.fadeF[i].toNat - min c.fadeF[i].toNat ((c.accF.toNat + e) / threshold cfg .fade c.spd)

/-- A segment's stored colour after a TICK in a fade mode (43_compositor_render.md R188). -/
def fadeColor (c : UnitC) (i : Fin 32) : Color := if c.touch.getLsbD i.val then c.tcol else c.fadeC[i]

/-- A segment's target in the fade modes, black in mode 3 (43_compositor_render.md R188). -/
def fadeTarget (c : UnitC) (i : Fin 32) : Color := if c.tmode = 3 then Color.black else c.idleL[i]

/-- Both fade modes in one: they differ in the target alone. -/
theorem touchedLayer_fadeModes (h : c.tmode = 3 ∨ c.tmode = 4) :
    touchedLayer cfg e c = { (advance cfg .fade e c).2 with
      fadeF := perSegment fun i => BitVec.ofNat 7 (fadeCount cfg e c i), fadeC := perSegment (fadeColor c)
      touchL := perSegment fun i => mix (fadeTarget c i) (fadeColor c i) (fadeCount cfg e c i) } := by
  obtain h | h := h
  · rw [touchedLayer_fade h]
    simp only [fadeTarget, h]
    rfl
  · rw [touchedLayer_fadeIdle h]
    simp only [fadeTarget, h]
    rfl

/-- A counter stays within its 7 bits. -/
theorem fadeCount_lt (i : Fin 32) : fadeCount cfg e c i < 128 := by
  unfold fadeCount
  split
  · omega
  · exact (Nat.sub_le _ _).trans_lt (BitVec.isLt _)

theorem touchedLayer_accF (h : c.tmode = 3 ∨ c.tmode = 4) :
    (touchedLayer cfg e c).accF.toNat = (c.accF.toNat + e) % threshold cfg .fade c.spd := by
  rw [touchedLayer_fadeModes h]
  exact advance_acc cfg .fade e c

theorem touchedLayer_fadeF (h : c.tmode = 3 ∨ c.tmode = 4) (i : Fin 32) :
    (touchedLayer cfg e c).fadeF[i].toNat = fadeCount cfg e c i := by
  rw [touchedLayer_fadeModes h, perSegment_get_fin, BitVec.toNat_ofNat, Nat.mod_eq_of_lt (fadeCount_lt i)]

theorem touchedLayer_fadeC (h : c.tmode = 3 ∨ c.tmode = 4) (i : Fin 32) :
    (touchedLayer cfg e c).fadeC[i] = fadeColor c i := by
  rw [touchedLayer_fadeModes h, perSegment_get_fin]

theorem touchedLayer_touchL (h : c.tmode = 3 ∨ c.tmode = 4) (i : Fin 32) :
    (touchedLayer cfg e c).touchL[i] = mix (fadeTarget c i) (fadeColor c i) (fadeCount cfg e c i) := by
  rw [touchedLayer_fadeModes h, perSegment_get_fin]

end

/-! ### The obligations of the layers -/

/-- Settles O50: the blend stage's own registers, which the later stages leave. -/
theorem tickMovesTheBlendFactor : Obligations.TickMovesTheBlendFactor := by
  unfold Obligations.TickMovesTheBlendFactor
  intro s e hport hraw
  obtain ⟨t, ht, hc, -⟩ := exec_tick_layers e hport hraw
  refine ⟨t, ht, ?_, ?_⟩
  · rw [hc, renderLayers_accB, blendUpdate_accB]
    rfl
  · rw [hc, renderLayers_blend, blendUpdate_blend]
    rfl

/-- The idle layer neither reads nor writes TOUCH, BLEND and ACC_B. -/
theorem idleLayer_of_blendStage (cfg : Params) (e : Nat) (c : UnitC) (x v : Word) (b : BitVec 7) :
    idleLayer cfg e { c with touch := x, blend := b, accB := v } =
      { idleLayer cfg e c with touch := x, blend := b, accB := v } := by
  unfold idleLayer
  dsimp only
  cases idleModeOf c.imode with
  | none => rfl
  | some m => cases m <;> rfl

/-- The idle stage of a TICK, from unit C as the TICK found it. -/
theorem idleLayer_blendUpdate (cfg : Params) (e : Nat) (c : UnitC) (x : Word) :
    ∃ b v, idleLayer cfg e (blendUpdate cfg e { c with touch := x }) =
      { idleLayer cfg e c with touch := x, blend := b, accB := v } :=
  ⟨_, _, idleLayer_of_blendStage cfg e c x _ _⟩

/-- The idle layer's fields after a rendering TICK are those its own stage makes of unit C as the TICK found it. -/
theorem exec_tick_idle {s : State} (e : BitVec 24) (hport : s.port = .c) (hraw : s.c.rawen = false) :
    ∃ t, exec (.tick e) s = .next t ∧ t.c.idleL = (idleLayer s.cfg e.toNat s.c).idleL ∧
      t.c.pulseP = (idleLayer s.cfg e.toNat s.c).pulseP ∧ t.c.pulseDir = (idleLayer s.cfg e.toNat s.c).pulseDir ∧
      t.c.phase = (idleLayer s.cfg e.toNat s.c).phase ∧ t.c.accP = (idleLayer s.cfg e.toNat s.c).accP ∧
      t.c.accR = (idleLayer s.cfg e.toNat s.c).accR := by
  obtain ⟨t, ht, hc, -⟩ := exec_tick_layers e hport hraw
  obtain ⟨_, _, hstage⟩ := idleLayer_blendUpdate s.cfg e.toNat s.c (touchAfterTake s)
  have hidle := renderLayers_idle (cfg := s.cfg) (e := e.toNat) (c := { s.c with touch := touchAfterTake s })
  rw [hstage, ← hc] at hidle
  exact ⟨t, ht, hidle⟩

/-- Settles O51: the idle stage's own registers, mode by mode; the pulse's path is the iterated unit step. -/
theorem tickDrawsTheIdleLayer : Obligations.TickDrawsTheIdleLayer := by
  unfold Obligations.TickDrawsTheIdleLayer
  intro s e hport hraw
  obtain ⟨t, ht, hL, hP, hD, hph, haccP, haccR⟩ := exec_tick_idle e hport hraw
  obtain ⟨_, _, _, _, _, _, hframe, hpulse, hrainbow, hkeep⟩ := idleLayer_frame s.cfg e.toNat s.c
  refine ⟨t, ht, fun hm i => ?_, fun hm i => ?_, fun hm => ?_, fun hm => ?_, fun hm i => ?_, fun hm => ?_,
    fun hm => ?_, fun hm => ?_⟩
  · rw [hL, idleLayer_off hm]
    exact perSegment_get_fin _ i
  · rw [hL, idleLayer_static hm, perSegment_get_fin, effectiveIdleColor_eq]
  · rw [idleLayer_pulse hm] at hL hP hD haccP
    refine ⟨?_, ⟨fun k => (pulseUnitStep s.cfg)^[k] (s.c.pulseP.toNat, s.c.pulseDir), rfl, fun k _ => ?_, ?_⟩, fun i => ?_⟩
    · rw [haccP, pulseLayer_accP]
      rfl
    · simp only [Function.iterate_succ_apply']
      exact pulseUnitStep_spec _
    · rw [hP, hD, pulseLayer_pulseP, pulseLayer_pulseDir]
      rfl
    · rw [hL, pulseLayer_idleL, ← hP, effectiveIdleColor_eq]
      rfl
  · rw [haccP, hP, hD, hframe]
    obtain ⟨hp, hd, hacc⟩ := hpulse hm
    exact ⟨hacc, hp, hd⟩
  · rw [hL, idleLayer_rainbowStatic hm, rainbowStaticLayer_idleL, getElem?_gradient]
  · rw [idleLayer_rainbowCycle hm] at hL hph haccR
    refine ⟨?_, ?_, fun i => ?_⟩
    · rw [haccR, rainbowCycleLayer_accR]
      rfl
    · rw [hph, rainbowCycleLayer_phase]
      rfl
    · rw [hL, rainbowCycleLayer_idleL, ← hph, getElem?_gradient]
  · rw [haccR, hph, hframe]
    exact (hrainbow hm).symm
  · rw [hL, hframe]
    exact hkeep hm

/-- The touched layer of a rendering TICK is drawn from a unit C with the taken TOUCH, this TICK's idle layer, and the
rest that it reads as the TICK found it. -/
theorem exec_tick_touched {s : State} (e : BitVec 24) (hport : s.port = .c) (hraw : s.c.rawen = false) :
    ∃ t c, exec (.tick e) s = .next t ∧ t.c = touchedLayer s.cfg e.toNat c ∧ c.idleL = t.c.idleL ∧
      c.touch = touchAfterTake s ∧ c.tmode = s.c.tmode ∧ c.tcol = s.c.tcol ∧ c.spd = s.c.spd ∧ c.accF = s.c.accF ∧
      c.fadeF = s.c.fadeF ∧ c.fadeC = s.c.fadeC ∧ c.touchL = s.c.touchL ∧ c.bri = s.c.bri := by
  obtain ⟨t, ht, hc, -⟩ := exec_tick_layers e hport hraw
  obtain ⟨hidle, -⟩ := renderLayers_idle (cfg := s.cfg) (e := e.toNat) (c := { s.c with touch := touchAfterTake s })
  exact ⟨t, _, ht, hc, by rw [hc, hidle], idleStage_keeps⟩

/-- Settles O52: the touched stage mode by mode, the two fade modes in one. -/
theorem tickDrawsTheTouchedLayer : Obligations.TickDrawsTheTouchedLayer := by
  unfold Obligations.TickDrawsTheTouchedLayer
  intro s e hport hraw touch thrF sumF
  obtain ⟨t, c, ht, hc, hidleL, htouch, htmode, htcol, hspd, haccF, hfadeF, hfadeC, htouchL, -⟩ :=
    exec_tick_touched e hport hraw
  obtain ⟨_, _, _, _, hframe, hfade, hkeep⟩ := touchedLayer_frame s.cfg e.toNat c
  rw [htmode] at hfade hkeep
  refine ⟨t, ht, fun hm i => ?_, fun hm i => ?_, fun hm i => ?_, fun hm => ?_, fun h3 h4 => ?_, fun hm => ?_⟩
  · rw [hc, touchedLayer_off (htmode.trans hm)]
    exact perSegment_get_fin _ i
  · rw [← hidleL, hc, touchedLayer_idle (htmode.trans hm)]
    exact perSegment_get_fin _ i
  · rw [hc, touchedLayer_touched (htmode.trans hm), perSegment_get_fin, touchedAt, htouch, htcol]
    rfl
  · have hmode : c.tmode = 3 ∨ c.tmode = 4 := by rwa [htmode]
    refine ⟨?_, fun i => ?_⟩
    · rw [hc, touchedLayer_accF hmode, haccF, hspd]
      rfl
    · intro f col tgt
      have hf : fadeCount s.cfg e.toNat c i = f := by
        rw [fadeCount, htouch, hfadeF, haccF, hspd]
        rfl
      have hcol : fadeColor c i = col := by rw [fadeColor, htouch, htcol, hfadeC]
      have htgt : fadeTarget c i = tgt := by
        rw [fadeTarget, htmode, hidleL]
        rfl
      refine ⟨?_, ?_, ?_⟩
      · rw [hc, touchedLayer_fadeF hmode, hf]
      · rw [hc, touchedLayer_fadeC hmode, hcol]
      · rw [hc, touchedLayer_touchL hmode, hf, hcol, htgt]
        rfl
  · rw [hc, hframe, ← haccF, ← hfadeF, ← hfadeC]
    obtain ⟨hF, hC, hacc⟩ := hfade h3 h4
    exact ⟨hacc, hF, hC⟩
  · rw [hc, hframe, ← htouchL]
    exact hkeep hm

/-! ### TouchedFade over two TICKs -/

theorem mix_black (c : Color) (f : Nat) : mix ⟨0, 0, 0⟩ c f = scalePercent f c := by
  simp [mix, scalePercent, zipChannels, mapChannels]

theorem scalePercent_hundred (c : Color) : scalePercent 100 c = c := by
  simp [scalePercent, mapChannels]

theorem scalePercent_zero (c : Color) : scalePercent 0 c = ⟨0, 0, 0⟩ := by
  simp [scalePercent, mapChannels]

/-- Up to 100 percent a larger counter gives no smaller channel. -/
theorem scaled_channel_le {f g : Nat} (hfg : f ≤ g) (hg : g ≤ 100) (x : BitVec 8) :
    (BitVec.ofNat 8 (x.toNat * f / 100)).toNat ≤ (BitVec.ofNat 8 (x.toNat * g / 100)).toNat := by
  have hx := x.isLt
  have hle : x.toNat * f / 100 ≤ x.toNat * g / 100 := Nat.div_le_div_right (Nat.mul_le_mul_left _ hfg)
  have htop : x.toNat * g / 100 ≤ x.toNat := mul_percent_le hg _
  rw [BitVec.toNat_ofNat, BitVec.toNat_ofNat]
  omega

theorem scalePercent_le {f g : Nat} (hfg : f ≤ g) (hg : g ≤ 100) (c : Color) :
    (scalePercent f c).r.toNat ≤ (scalePercent g c).r.toNat ∧ (scalePercent f c).g.toNat ≤ (scalePercent g c).g.toNat ∧
      (scalePercent f c).b.toNat ≤ (scalePercent g c).b.toNat :=
  ⟨scaled_channel_le hfg hg c.r, scaled_channel_le hfg hg c.g, scaled_channel_le hfg hg c.b⟩

/-- One TICK in TouchedFade, at one segment: the layer is the stored colour at the counter's percentage; a touch stores
TCOL at 100, and a released segment keeps its colour and does not raise its counter (43_compositor_render.md R188). -/
theorem exec_tick_touchedFade {s t : State} {e : BitVec 24} (hport : s.port = .c) (hraw : s.c.rawen = false)
    (hmode : s.c.tmode = 3) (ht : exec (.tick e) s = .next t) (i : Fin 32) :
    t.c.touchL[i] = scalePercent t.c.fadeF[i].toNat t.c.fadeC[i] ∧
    ((touchAfterTake s).getLsbD i.val = true → t.c.fadeF[i].toNat = 100 ∧ t.c.fadeC[i] = s.c.tcol) ∧
    ((touchAfterTake s).getLsbD i.val = false →
      t.c.fadeF[i].toNat ≤ s.c.fadeF[i].toNat ∧ t.c.fadeC[i] = s.c.fadeC[i]) := by
  obtain ⟨t', ht', -, -, -, hfade, -, -⟩ := tickDrawsTheTouchedLayer s e hport hraw
  obtain rfl : t = t' := by simpa [ht] using ht'
  obtain ⟨-, hseg⟩ := hfade (.inl hmode)
  obtain ⟨hF, hC, hL⟩ := hseg i
  refine ⟨?_, fun h => ?_, fun h => ?_⟩
  · rw [hL, ← hF, ← hC, if_pos hmode, ← mix_black]
    rfl
  · rw [hF, hC, h]
    exact ⟨rfl, rfl⟩
  · rw [hF, hC, h]
    exact ⟨Nat.sub_le _ _, rfl⟩

/-- Settles O55: from the first TICK to the second a released segment keeps its colour, and its counter, at most 100,
does not rise. -/
theorem touchedFadeNeverBrightens : Obligations.TouchedFadeNeverBrightens := by
  unfold Obligations.TouchedFadeNeverBrightens
  intro s t u e e' i hinv hport hraw hmode ht hu
  have heff : tickEffect e.toNat s = t := Host.Outcome.next.inj ((exec_tick_of_port_c e hport).symm.trans ht)
  obtain ⟨⟨-, -, -, htmode, -, -, -, hrawen, -⟩, -⟩ := tickEffect_keeps e.toNat s
  rw [heff] at htmode hrawen
  obtain ⟨-, -, -, htport⟩ := exec_frame ht
  have hle := (exec_unitCOk ht ((inv_iff s).mp hinv).2).fade_le i
  obtain ⟨hLt, htouched, -⟩ := exec_tick_touchedFade hport hraw hmode ht i
  obtain ⟨hLu, -, hreleased⟩ :=
    exec_tick_touchedFade (htport.trans hport) (hrawen.trans hraw) (htmode.trans hmode) hu i
  refine ⟨fun h => ?_, fun h => ?_⟩
  · obtain ⟨hF, hC⟩ := htouched h
    rw [hLt, hF, hC, scalePercent_hundred]
  · obtain ⟨hF, hC⟩ := hreleased h
    obtain ⟨hr, hg, hb⟩ := scalePercent_le hF hle t.c.fadeC[i]
    rw [hLu, hLt, hC]
    exact ⟨hr, hg, hb, fun h0 => by rw [h0]; exact scalePercent_zero _⟩

/-! ### The frame -/

/-- A composited channel fits its 8 bits while BLEND is at most 100 (43_compositor_render.md R190). -/
theorem toNat_composite_channel {blend : Nat} (h : blend ≤ 100) (x y : BitVec 8) :
    (BitVec.ofNat 8 (max (x.toNat * blend / 100) y.toNat)).toNat = max (x.toNat * blend / 100) y.toNat := by
  have hx := x.isLt
  have hy := y.isLt
  have htop : x.toNat * blend / 100 ≤ x.toNat := mul_percent_le h _
  rw [BitVec.toNat_ofNat, Nat.mod_eq_of_lt (by omega)]

theorem colorWord_final {blend : Nat} (h : blend ≤ 100) (bri : Nat) (idle touched : Color) :
    colorWord (brighten bri (compositeColor blend idle touched)) =
      packRgb (max (idle.r.toNat * blend / 100) touched.r.toNat * bri / 255)
        (max (idle.g.toNat * blend / 100) touched.g.toNat * bri / 255)
        (max (idle.b.toNat * blend / 100) touched.b.toNat * bri / 255) := by
  simp only [colorWord, packRgb, brighten, mapChannels, compositeColor, zipChannels, toNat_composite_channel h]

theorem getElem?_finalColors (c : UnitC) (i : Fin 32) :
    (finalColors c).toList[i.val]? =
      some (brighten c.bri.toNat (compositeColor c.blend.toNat c.idleL[i] c.touchL[i])) := by
  rw [finalColors, perSegment_toList, List.getElem?_ofFn, dif_pos i.isLt]

theorem renderLayers_bri (cfg : Params) (e : Nat) (c : UnitC) : (renderLayers cfg e c).bri = c.bri := by
  obtain ⟨_, _, _, _, _, _, _, _, _, _, _, _, hr, -⟩ := renderLayers_frame cfg e c
  rw [hr]

theorem renderLayers_blend_le {cfg : Params} {e : Nat} {c : UnitC} (h : c.blend.toNat ≤ 100) :
    (renderLayers cfg e c).blend.toNat ≤ 100 := by
  rw [renderLayers_blend, blendUpdate_blend]
  split
  · exact (Nat.sub_le _ _).trans h
  · exact Nat.min_le_left _ _

/-- Settles O53: pixel i·LPS + j is of segment i, and its colour's word is the packed composite. -/
theorem tickEmitsTheCompositedFrame : Obligations.TickEmitsTheCompositedFrame := by
  unfold Obligations.TickEmitsTheCompositedFrame
  intro s e hport hraw hblend
  obtain ⟨t, ht, hc, hframe⟩ := exec_tick_layers e hport hraw
  have hbri : t.c.bri = s.c.bri := by rw [hc, renderLayers_bri]
  have hle : t.c.blend.toNat ≤ 100 := by rw [hc]; exact renderLayers_blend_le hblend
  refine ⟨t, _, ht, hframe, by simp [length_frameOf], fun i j hj => ?_⟩
  rw [getElem_frameOf _ _ _ _ _ (getElem?_finalColors t.c i) hj, colorWord_final hle, hbri]

/-- A pixel of a composited frame has no channel above BRI. -/
theorem channelOf_finalColors_le {c : UnitC} {lps : Nat} {w : BitVec 24} (hw : w ∈ frameOf lps (finalColors c).toList)
    (ch : Fin 3) : channelOf w ch ≤ c.bri.toNat := by
  obtain ⟨col, hcol, rfl⟩ := mem_frameOf hw
  rw [finalColors, perSegment_toList, List.mem_ofFn] at hcol
  obtain ⟨i, rfl⟩ := hcol
  exact (channelOf_colorWord_le _ ch).trans (maxChannel_brighten_le _ _)

/-- Settles O54: only a rendering TICK on port C emits a frame, and its pixels are a composited frame's. -/
theorem tickChannelsNeverExceedBrightness : Obligations.TickChannelsNeverExceedBrightness := by
  unfold Obligations.TickChannelsNeverExceedBrightness
  intro s t e px ht hpx w hw ch
  cases hport : s.port
  case a =>
    have hbad : t = badCmd s := by simpa [exec_of_illegal, Instr.opcode, Opcode.legalOn, hport] using ht.symm
    simp [hbad] at hpx
  case c =>
    cases hraw : s.c.rawen
    case true =>
      rw [exec_tick_of_port_c e hport, tickEffect_raw hraw, Host.Outcome.next.injEq] at ht
      simp [← ht] at hpx
    case false =>
      obtain ⟨t', ht', hc, hframe⟩ := exec_tick_layers e hport hraw
      obtain rfl : t' = t := Host.Outcome.next.inj (ht'.symm.trans ht)
      obtain rfl : frameOf s.cfg.lps (finalColors t'.c).toList = px := by simpa [hframe] using hpx
      have hbri : t'.c.bri = s.c.bri := by rw [hc, renderLayers_bri]
      rw [← hbri]
      exact channelOf_finalColors_le hw ch

end Sys2Proof.Machine
end

section
/-! PROOFS. RAW: its frame of normalized colours, and where it does nothing or is bad
(spec/43_compositor_render.md R193, R201). -/

namespace Sys2Proof.Machine

/-- A raw colour is the low 24 bits of its data word; bits [31:24] are ignored (43_compositor_render.md R201). -/
theorem colorOfWord_operandField (w : Word) :
    colorOfWord (operandField w) = ⟨w.extractLsb' 16 8, w.extractLsb' 8 8, w.extractLsb' 0 8⟩ := by
  have hslice (start : Nat) (h : start + 8 ≤ 24) : (w.extractLsb' 0 24).extractLsb' start 8 = w.extractLsb' start 8 := by
    ext k hk
    simp [BitVec.getElem_extractLsb', show start + k < 24 by omega]
  simp only [colorOfWord, operandField, hslice 16 (by omega), hslice 8 (by omega), hslice 0 (by omega)]

/-- The word of a normalized colour, by the two cases of R193. -/
theorem colorWord_rawnorm (bri : Nat) (c : Color) :
    colorWord (rawnorm bri c) =
      if bri < maxChannel c then
        packRgb (c.r.toNat * bri / maxChannel c) (c.g.toNat * bri / maxChannel c) (c.b.toNat * bri / maxChannel c)
      else packRgb c.r.toNat c.g.toNat c.b.toNat := by
  split
  case isTrue h =>
    rw [rawnorm_of_lt h]
    rfl
  case isFalse h => rw [rawnorm_of_le (Nat.le_of_not_lt h), colorWord_eq_packRgb]

theorem getElem?_rawColors {bri : BitVec 8} {d : List Word} {i : Nat} {w : Word} (h : d[i]? = some w) :
    (rawColors bri d)[i]? = some (rawnorm bri.toNat (colorOfWord (operandField w))) := by
  rw [rawColors, List.getElem?_map, h, Option.map_some]

theorem length_rawColors (bri : BitVec 8) (d : List Word) : (rawColors bri d).length = d.length := List.length_map ..

/-- Settles O56: RAW's frame has LPS copies of each data word's normalized colour, and RAW writes nothing else. -/
theorem rawEmitsTheNormalizedFrame : Obligations.RawEmitsTheNormalizedFrame := by
  unfold Obligations.RawEmitsTheNormalizedFrame
  refine ⟨fun s d hport hraw hlen => ⟨frameOf s.cfg.lps (rawColors s.c.bri d), ?_, ?_, fun i j w hw hj => ?_⟩,
    fun s d hport hraw => ?_, fun d => badOn_of_illegal rfl, reservedBitsAreBad_of_row .raw⟩
  · rw [exec_of_port_c hport rfl, effectOf, rawEffect, if_pos hraw, emitFrame]
  · rw [length_frameOf, length_rawColors, hlen]
  · rw [getElem_frameOf _ _ _ _ _ (getElem?_rawColors hw) hj, colorWord_rawnorm, colorOfWord_operandField]
    rfl
  · rw [exec_of_port_c hport rfl, effectOf, rawEffect, if_neg (by simp [hraw])]

end Sys2Proof.Machine
end

section
/-! PROOFS. The system commands: the sticky error bits, NOP, and READ with the words of the readback maps
(spec/44_system.md R230 to R233). -/

namespace Sys2Proof.Machine

/-! ### The sticky error bits -/

/-- From `s` to `t` no error bit that was set is cleared (44_system.md R233). -/
def ErrBitsStick (s t : State) : Prop :=
  (s.a.err = true → t.a.err = true) ∧ (s.c.err = true → t.c.err = true)

theorem ErrBitsStick.of_eq {s t : State} (ha : t.a.err = s.a.err) (hc : t.c.err = s.c.err) : ErrBitsStick s t :=
  ⟨fun h => ha.trans h, fun h => hc.trans h⟩

theorem badCmd_errBitsStick (s : State) : ErrBitsStick s (badCmd s) := by
  cases hp : s.port
  · exact ⟨fun _ => by rw [badCmd_a s hp], fun h => by rwa [badCmd_c_of_a s hp]⟩
  · exact ⟨fun h => by rwa [badCmd_a_of_c s hp], fun _ => by rw [badCmd_c s hp]⟩

theorem exec_errBitsStick {i : Instr} {s t : State} (h : exec i s = .next t) : ErrBitsStick s t := by
  obtain ⟨-, rfl⟩ | ⟨-, rfl⟩ := exec_cases h
  · obtain ⟨-, -, -, -, -, -, -, -, ha, hc⟩ := effectOf_frame i s
    exact .of_eq ha hc
  · exact badCmd_errBitsStick s

theorem takeEffect_errBitsStick {p : Port} {cmd : Command} {s t : State} (h : takeEffect p cmd s = .next t) :
    ErrBitsStick s t := by
  have hport : ErrBitsStick { s with port := p } t := by
    obtain ⟨i, -, hx⟩ | rfl := takeEffect_cases h
    · exact exec_errBitsStick hx
    · exact badCmd_errBitsStick _
  exact hport

theorem fuseContinue_errBitsStick (fw : FuseWait) (s : State) : ErrBitsStick s (fuseContinue fw s) := by
  obtain ⟨_, _, _, _, _, hf⟩ := fuseContinue_frame fw s
  rw [hf]
  exact .of_eq rfl rfl

/-- Taking a word writes no error bit: what sticks after it sticks over the whole turn. -/
theorem ErrBitsStick.of_take {p : Port} {s t : State} {q : Parser} {ws : List Word}
    (h : ErrBitsStick (setParser (setPending s p ws) p q) t) : ErrBitsStick s t := by
  cases p <;> exact h

theorem unitTurn_errBitsStick {p : Port} {s t : State} (h : unitTurn p s = .next t) : ErrBitsStick s t := by
  obtain ⟨fw, -, rfl⟩ | ⟨-, -, rfl⟩ | ⟨w, rest, -, -, -, rfl⟩ | ⟨w, rest, cmd, -, -, -, htake⟩ := unitTurn_cases h
  · exact fuseContinue_errBitsStick fw s
  · exact .of_eq rfl rfl
  · exact .of_take (.of_eq rfl rfl)
  · exact .of_take (takeEffect_errBitsStick htake)

/-- Every event but reset leaves the error bits that are set. -/
theorem handleEvent_errBitsStick {ev : Event} {s t : State} (hne : ev ≠ .reset) (h : handleEvent ev s = .next t) :
    ErrBitsStick s t := by
  cases ev <;> simp only [handleEvent, Host.Outcome.next.injEq] at h
  case unit p => exact unitTurn_errBitsStick h
  case send p w => subst h; exact .of_eq (by simp) (by simp)
  case time ms => subst h; exact .of_eq rfl rfl
  case answer a m => subst h; exact .of_eq rfl rfl
  case reset => exact absurd rfl hne

/-- Settles O16: a step is one event, and the error bits stick through each event but reset. -/
theorem onlyResetClearsTheErrorBits : Obligations.OnlyResetClearsTheErrorBits := by
  unfold Obligations.OnlyResetClearsTheErrorBits
  intro s t hne ht
  obtain ⟨-, rfl⟩ | ⟨ev, es, hes, hev⟩ := step_cases ht
  · exact ⟨id, id⟩
  · have hstick := handleEvent_errBitsStick (fun hreset => hne es (hreset ▸ hes)) hev
    exact hstick

/-! ### NOP -/

/-- Settles O24: NOP is legal on both ports, its effect is the identity, and its format marks every operand bit 0. -/
theorem nopChangesNothing : Obligations.NopChangesNothing := by
  unfold Obligations.NopChangesNothing
  exact ⟨rfl, fun s => exec_of_legal rfl, reservedBitsAreBad_of_row .nop⟩

/-! ### The layouts of the readback words -/

theorem extractLsb'_of_four_bytes (b3 b2 b1 b0 : BitVec 8) :
    (b3 ++ b2 ++ b1 ++ b0 : BitVec (8 + 8 + 8 + 8)).extractLsb' 0 8 = b0 ∧
    (b3 ++ b2 ++ b1 ++ b0 : BitVec (8 + 8 + 8 + 8)).extractLsb' 8 8 = b1 ∧
    (b3 ++ b2 ++ b1 ++ b0 : BitVec (8 + 8 + 8 + 8)).extractLsb' 16 8 = b2 ∧
    (b3 ++ b2 ++ b1 ++ b0 : BitVec (8 + 8 + 8 + 8)).extractLsb' 24 8 = b3 := by
  refine ⟨BitVec.extractLsb'_append_eq_right, ?_, ?_, ?_⟩
  · rw [BitVec.extractLsb'_append_eq_of_le (by omega)]
    exact BitVec.extractLsb'_append_eq_right
  · rw [BitVec.extractLsb'_append_eq_of_le (by omega), BitVec.extractLsb'_append_eq_of_le (by omega)]
    exact BitVec.extractLsb'_append_eq_right
  · rw [BitVec.extractLsb'_append_eq_of_le (by omega), BitVec.extractLsb'_append_eq_of_le (by omega)]
    exact BitVec.extractLsb'_append_eq_left

/-- AXES as READ packs it, byte by byte (44_system.md R232). -/
theorem axesWord_bytes (x : Axes) :
    (axesWord x).extractLsb' 0 8 = x.la ∧ (axesWord x).extractLsb' 8 8 = x.ly ∧
    (axesWord x).extractLsb' 16 8 = x.ra ∧ (axesWord x).extractLsb' 24 8 = x.ry :=
  extractLsb'_of_four_bytes x.ry x.ra x.ly x.la

theorem trackWord_eq_four_bytes (x : Track) :
    trackWord x = (0#8 ++ x.axis ++ x.rm.setWidth 8 ++ x.lm.setWidth 8 : BitVec (8 + 8 + 8 + 8)) := by
  apply BitVec.eq_of_toNat_eq
  rw [trackWord, BitVec.toNat_setWidth_of_le (by omega)]
  repeat rw [BitVec.toNat_append]
  simp

/-- A track as READ packs it, byte by byte, the top byte unused (44_system.md R232). -/
theorem trackWord_bytes (x : Track) :
    (trackWord x).extractLsb' 0 8 = x.lm.setWidth 8 ∧ (trackWord x).extractLsb' 8 8 = x.rm.setWidth 8 ∧
    (trackWord x).extractLsb' 16 8 = x.axis ∧ (trackWord x).extractLsb' 24 8 = 0 := by
  rw [trackWord_eq_four_bytes]
  exact extractLsb'_of_four_bytes 0#8 x.axis (x.rm.setWidth 8) (x.lm.setWidth 8)

/-- Three status bits as READ packs them, the bits above them unused (44_system.md R232). -/
theorem statusWord_bits (b0 b1 b2 : Bool) :
    (statusWord b0 b1 b2).getLsbD 0 = b0 ∧ (statusWord b0 b1 b2).getLsbD 1 = b1 ∧
    (statusWord b0 b1 b2).getLsbD 2 = b2 ∧ (statusWord b0 b1 b2).toNat < 8 := by
  revert b0 b1 b2
  decide

/-- A colour as READ packs it: its colour word, the top byte unused (44_system.md R232). -/
theorem toNat_colorWord_setWidth (c : Color) :
    ((colorWord c).setWidth 32).toNat = (packRgb c.r.toNat c.g.toNat c.b.toNat).toNat := by
  rw [BitVec.toNat_setWidth_of_le (by omega), colorWord_eq_packRgb]

/-- PULSE as READ packs it: PULSE_P in [7:0], PULSE_DIR in [8] (44_system.md R232). -/
theorem toNat_pulseWord (dir : Bool) (p : BitVec 7) :
    ((BitVec.ofBool dir ++ p.setWidth 8 : BitVec (1 + 8)).setWidth 32).toNat = p.toNat + (if dir then 256 else 0) := by
  rw [BitVec.toNat_setWidth_of_le (by omega), BitVec.toNat_append, Nat.shiftLeft_eq, Nat.mul_comm,
    ← Nat.two_pow_add_eq_or_of_lt (BitVec.isLt _), BitVec.toNat_setWidth_of_le (by omega), Nat.add_comm]
  cases dir <;> rfl

/-! ### READ -/

/-- READ is legal on port A: it emits the word of port A's map (44_system.md R231). -/
theorem exec_read_of_port_a {s : State} (idx : BitVec 8) (hport : s.port = .a) :
    exec (.read idx) s = .next { s with io := { s.io with respA := s.io.respA ++ [readbackA s idx.toNat] } } := by
  rw [exec_of_legal rfl, effectOf, readEffect_a hport]

/-- READ is legal on port C: it emits the word of port C's map (44_system.md R231). -/
theorem exec_read_of_port_c {s : State} (idx : BitVec 8) (hport : s.port = .c) :
    exec (.read idx) s = .next { s with io := { s.io with respC := s.io.respC ++ [readbackC s idx.toNat] } } := by
  rw [exec_of_legal rfl, effectOf, readEffect_c hport]

theorem readbackA_of_unlisted (s : State) {idx : Nat} (h : 8 ≤ idx) : readbackA s idx = 0 := by
  obtain ⟨k, rfl⟩ := Nat.exists_eq_add_of_le' h
  rfl

theorem readbackScalarC_of_unlisted (s : State) {idx : Nat} (h : 17 ≤ idx) : readbackScalarC s idx = 0 := by
  obtain ⟨k, rfl⟩ := Nat.exists_eq_add_of_le' h
  rfl

theorem readbackC_of_lt (s : State) {idx : Nat} (h : idx < 32) : readbackC s idx = readbackScalarC s idx :=
  if_pos h

theorem readbackC_fadeF (s : State) (i : Fin 32) : readbackC s (32 + i.val) = s.c.fadeF[i].setWidth 32 := by
  simp [readbackC]

theorem readbackC_fadeC (s : State) (i : Fin 32) :
    readbackC s (64 + i.val) = (colorWord s.c.fadeC[i]).setWidth 32 := by
  simp [readbackC, show ¬ 64 + i.val < 32 by omega, show ¬ 64 + i.val - 32 < 32 by omega]

theorem readbackC_idleL (s : State) (i : Fin 32) :
    readbackC s (96 + i.val) = (colorWord s.c.idleL[i]).setWidth 32 := by
  simp [readbackC, show ¬ 96 + i.val < 32 by omega, show ¬ 96 + i.val - 32 < 32 by omega,
    show ¬ 96 + i.val - 64 < 32 by omega]

theorem readbackC_touchL (s : State) (i : Fin 32) :
    readbackC s (128 + i.val) = (colorWord s.c.touchL[i]).setWidth 32 := by
  simp [readbackC, show ¬ 128 + i.val < 32 by omega, show ¬ 128 + i.val - 32 < 32 by omega,
    show ¬ 128 + i.val - 64 < 32 by omega, show ¬ 128 + i.val - 96 < 32 by omega]

/-- No register is listed between the single ones and the segments', nor after them (44_system.md R232). -/
theorem readbackC_of_unlisted (s : State) {idx : Nat} (h : (17 ≤ idx ∧ idx < 32) ∨ 160 ≤ idx) :
    readbackC s idx = 0 := by
  obtain ⟨hlo, hhi⟩ | h := h
  · rw [readbackC_of_lt s hhi, readbackScalarC_of_unlisted s hlo]
  · rw [readbackC, if_neg (by omega), dif_neg (by omega), dif_neg (by omega), dif_neg (by omega), dif_neg (by omega)]

/-- Settles O25: the word emitted is port A's map at the index, and each layout is its packing's own lemma. -/
theorem readOnPortAEmitsTheRegister : Obligations.ReadOnPortAEmitsTheRegister := by
  unfold Obligations.ReadOnPortAEmitsTheRegister
  refine ⟨reservedBitsAreBad_of_row .read, fun s idx hport => ⟨readbackA s idx.toNat, exec_read_of_port_a idx hport,
    ?bitmap, ?axes, ?trkL, ?trkR, ?gmode, ?bres, ?lastMs, ?status, readbackA_of_unlisted s⟩⟩
  all_goals rintro rfl
  case axes => exact axesWord_bytes s.a.axes
  case trkL => exact trackWord_bytes s.a.trkL
  case trkR => exact trackWord_bytes s.a.trkR
  case gmode => exact BitVec.toNat_setWidth_of_le (by omega)
  case status => exact statusWord_bits s.a.valid s.a.err s.mbox.full
  case bitmap | bres | lastMs => rfl

/-- Settles O26: the word emitted is port C's map at the index: a single register, a segment's, or none. -/
theorem readOnPortCEmitsTheRegister : Obligations.ReadOnPortCEmitsTheRegister := by
  unfold Obligations.ReadOnPortCEmitsTheRegister
  refine fun s idx hport => ⟨readbackC s idx.toNat, exec_read_of_port_c idx hport,
    ?touch, ?bri, ?spd, ?imode, ?tmode, ?icol, ?tcol, ?flags, ?pcol, ?blend, ?pulse, ?phase, ?accP, ?accR, ?accF, ?accB,
    ?status, fun i => ⟨?fadeF, ?fadeC, ?idleL, ?touchL⟩, readbackC_of_unlisted s⟩
  case fadeF => intro h; rw [h, readbackC_fadeF, BitVec.toNat_setWidth_of_le (by omega)]
  case fadeC => intro h; rw [h, readbackC_fadeC, toNat_colorWord_setWidth]
  case idleL => intro h; rw [h, readbackC_idleL, toNat_colorWord_setWidth]
  case touchL => intro h; rw [h, readbackC_touchL, toNat_colorWord_setWidth]
  all_goals
    rintro rfl
    rw [readbackC_of_lt s (by decide)]
  case bri | spd | imode | tmode | blend => exact BitVec.toNat_setWidth_of_le (by omega)
  case icol => exact toNat_colorWord_setWidth s.c.icol
  case tcol => exact toNat_colorWord_setWidth s.c.tcol
  case pcol => exact toNat_colorWord_setWidth s.c.pcol
  case flags => exact statusWord_bits s.c.upc s.c.rawen s.c.pcp
  case status => exact statusWord_bits false s.c.err s.mbox.full
  case pulse => exact toNat_pulseWord s.c.pulseDir s.c.pulseP
  case touch | phase | accP | accR | accF | accB => rfl

end Sys2Proof.Machine
end

section
/-! PROOFS. A silent adapter holds port A (spec/60_exceptions.md R256, spec/70_reset_and_hazards.md R278). -/

namespace Sys2Proof.Machine

/-! ### The events to come -/

theorem takeEffect_events {p : Port} {cmd : Command} {s t : State} (h : takeEffect p cmd s = .next t) :
    t.io.events = s.io.events := by
  obtain ⟨i, -, hx⟩ | rfl := takeEffect_cases h
  · obtain ⟨-, -, -, -, -, -, -, hev⟩ := writersOfTheStreams i _ t hx
    exact hev
  · rw [badCmd_io]

theorem unitTurn_events {p : Port} {s t : State} (h : unitTurn p s = .next t) : t.io.events = s.io.events := by
  obtain ⟨fw, -, rfl⟩ | ⟨-, -, rfl⟩ | ⟨w, rest, -, -, -, rfl⟩ | ⟨w, rest, cmd, -, -, -, htake⟩ := unitTurn_cases h
  · obtain ⟨_, _, _, _, _, hf⟩ := fuseContinue_frame fw s
    rw [hf]
  · rfl
  · simp
  · simpa using takeEffect_events htake

/-- No event adds or drops a later one. -/
theorem handleEvent_events {ev : Event} {s t : State} (h : handleEvent ev s = .next t) :
    t.io.events = s.io.events := by
  cases ev <;> simp only [handleEvent, Host.Outcome.next.injEq] at h
  case unit p => exact unitTurn_events h
  all_goals subst h
  case send p w => exact setPending_io_events s p _
  case time | answer | reset => rfl

/-- What every step keeps, every number of steps keeps. -/
theorem runSteps_preserves {P : State → Prop} (hstep : ∀ u v, P u → step u = .next v → P v) {n : Nat} {s t : State}
    (hs : P s) (h : runSteps n s = .next t) : P t := by
  induction n generalizing s with
  | zero => cases h; exact hs
  | succ n ih =>
    cases hu : step s with
    | next u => exact ih (hstep s u hs hu) (runSteps_succ hu n ▸ h)
    | fault | refused => simp [runSteps, hu] at h

/-! ### The hold -/

/-- A FUSE that sampled the time `sampled` waits, and adapter `j`, whose mask it still needs, has no answer ready. -/
def AwaitsAdapter (j : Fin 32) (sampled : Word) (s : State) : Prop :=
  (∃ got, s.a.fuseWait = some ⟨sampled, got⟩ ∧ got.length ≤ j.val) ∧ j.val < s.cfg.na ∧ s.io.sense[j] = []

/-- The event is none of the two that can end a wait for adapter `j`. -/
def KeepsSilent (j : Fin 32) (ev : Event) : Prop := ev ≠ .reset ∧ ∀ m, ev ≠ .answer j m

/-- From `s` to `t` port A stands still: no register of unit A changes but the wait's own storage (log 11), no word is
taken, and none is emitted. -/
def PortAStands (s t : State) : Prop :=
  t.a = { s.a with fuseWait := t.a.fuseWait } ∧ s.io.cmdA <+: t.io.cmdA ∧ t.io.respA = s.io.respA

theorem PortAStands.refl (s : State) : PortAStands s s := ⟨rfl, List.prefix_rfl, rfl⟩

theorem PortAStands.trans {s t u : State} (hst : PortAStands s t) (htu : PortAStands t u) : PortAStands s u := by
  obtain ⟨ha, hcmd, hresp⟩ := hst
  obtain ⟨ha', hcmd', hresp'⟩ := htu
  exact ⟨ha'.trans (by rw [ha]), hcmd.trans hcmd', hresp'.trans hresp⟩

/-- The condition reads unit A's wait, the parameters and the adapter's answers only. -/
theorem AwaitsAdapter.congr {j : Fin 32} {sampled : Word} {s t : State} (h : AwaitsAdapter j sampled s)
    (ha : t.a = s.a) (hcfg : t.cfg = s.cfg) (hsense : t.io.sense[j] = s.io.sense[j]) : AwaitsAdapter j sampled t := by
  unfold AwaitsAdapter
  rwa [ha, hcfg, hsense]

/-- At its turn the waiting FUSE polls no further than the silent adapter and waits on. -/
theorem AwaitsAdapter.after_turn_a {j : Fin 32} {sampled : Word} {s t : State} (h : AwaitsAdapter j sampled s)
    (ht : unitTurn .a s = .next t) : AwaitsAdapter j sampled t ∧ PortAStands s t := by
  obtain ⟨⟨got, hwait, hgot⟩, hna, hsilent⟩ := h
  obtain ⟨more, sense, hcont, ⟨-, -, hleft, -⟩, hmore⟩ := fuseContinue_of_silent (fw := ⟨sampled, got⟩) hgot hna hsilent
  simp only [unitTurn, heldBy, hwait, hcont, Host.Outcome.next.injEq] at ht
  subst ht
  have hstill : sense[j] = [] := (hleft j (.inr hmore)).trans hsilent
  exact ⟨⟨⟨got ++ more, rfl, by simpa using hmore⟩, hna, hstill⟩, rfl, List.prefix_rfl, rfl⟩

/-- A turn of unit C neither reads nor writes what the wait on port A stands on. -/
theorem AwaitsAdapter.after_turn_c {j : Fin 32} {sampled : Word} {s t : State} (h : AwaitsAdapter j sampled s)
    (ht : unitTurn .c s = .next t) : AwaitsAdapter j sampled t ∧ PortAStands s t := by
  obtain ⟨ha, hcmd, hresp, hsense, -⟩ := unitTurn_leavesOtherUnit ht
  exact ⟨h.congr ha (unitTurn_cfg ht) (by rw [hsense]), by rw [ha], by rw [hcmd], hresp⟩

/-- A word sent on port A stands behind those that already wait there. -/
theorem portAStands_hostSend (p : Port) (w : Word) (s : State) : PortAStands s (hostSend p w s) := by
  cases p
  · exact ⟨rfl, List.prefix_append _ _, rfl⟩
  · exact .refl s

/-- Every event but the two that end the wait keeps the hold. -/
theorem AwaitsAdapter.after_event {j : Fin 32} {sampled : Word} {ev : Event} {s t : State}
    (h : AwaitsAdapter j sampled s) (hev : KeepsSilent j ev) (ht : handleEvent ev s = .next t) :
    AwaitsAdapter j sampled t ∧ PortAStands s t := by
  obtain ⟨hreset, hanswer⟩ := hev
  cases ev <;> simp only [handleEvent, Host.Outcome.next.injEq] at ht
  case unit p =>
    cases p
    · exact h.after_turn_a ht
    · exact h.after_turn_c ht
  all_goals subst ht
  case send p w =>
    exact ⟨h.congr (hostSend_a p w s) (hostSend_cfg p w s) (by simp [hostSend]), portAStands_hostSend p w s⟩
  case time ms => exact ⟨h, .refl s⟩
  case answer a m =>
    have hne : a.val ≠ j.val := fun e => hanswer m (by rw [Fin.ext e])
    exact ⟨h.congr rfl rfl (by simp [adapterAnswer, hne]), .refl s⟩
  case reset => exact absurd rfl hreset

/-- The hold since `s`, seen in a later state `u`: the wait for adapter `j`, no event to come that ends it, and port A
standing still all along. -/
def HeldSince (j : Fin 32) (sampled : Word) (s u : State) : Prop :=
  AwaitsAdapter j sampled u ∧ (∀ ev ∈ u.io.events, KeepsSilent j ev) ∧ PortAStands s u

theorem HeldSince.after_step {j : Fin 32} {sampled : Word} {s u v : State} (h : HeldSince j sampled s u)
    (hv : step u = .next v) : HeldSince j sampled s v := by
  obtain ⟨hawaits, hevents, hstands⟩ := h
  obtain ⟨-, rfl⟩ | ⟨ev, es, hes, hev⟩ := step_cases hv
  · exact ⟨hawaits, hevents, hstands⟩
  · rw [hes, List.forall_mem_cons] at hevents
    obtain ⟨hfirst, hrest⟩ := hevents
    obtain ⟨hawaits', hstands'⟩ :=
      AwaitsAdapter.after_event (s := { u with io := { u.io with events := es } }) hawaits hfirst hev
    exact ⟨hawaits', handleEvent_events hev ▸ hrest, hstands.trans hstands'⟩

/-- Settles O34: the hold stands at the start, and every step keeps it. -/
theorem silentAdapterHoldsPortA : Obligations.SilentAdapterHoldsPortA := by
  unfold Obligations.SilentAdapterHoldsPortA
  intro n s t fw j hwait hgot hna hsilent hevents hrun
  have hstart : HeldSince j fw.t s s := ⟨⟨⟨fw.got, hwait, hgot⟩, hna, hsilent⟩, hevents, .refl s⟩
  have hend : HeldSince j fw.t s t := runSteps_preserves (fun _ _ => HeldSince.after_step) hstart hrun
  obtain ⟨⟨⟨got, hwait', -⟩, -⟩, -, ha, hcmd, hresp⟩ := hend
  exact ⟨⟨⟨fw.t, got⟩, by rw [ha, hwait'], rfl⟩, hcmd, hresp⟩

end Sys2Proof.Machine
end

section
/-! PROOFS. Reset, that the block never halts by itself, and the black frames from reset on
(spec/70_reset_and_hazards.md R270 to R272, R280). -/

namespace Sys2Proof.Machine

/-! ### No state with the invariant stops -/

/-- A parser that a run can reach keeps the word taken, or hands over a command with its ND data words. -/
theorem takeWord_next {s : State} {p : Port} (h : ParserOk (parserOf s p)) (w : Word) : ∃ t, takeWord p w s = .next t := by
  obtain ⟨-, hdone⟩ := acceptWord_spec h w
  unfold takeWord
  split
  case h_1 => exact ⟨_, rfl⟩
  case h_2 cmd hcmd =>
    obtain ⟨-, hlen⟩ := hdone cmd hcmd
    exact takeEffect_next hlen _

theorem unitTurn_next {s : State} (h : Inv s) (p : Port) : ∃ t, unitTurn p s = .next t := by
  unfold unitTurn
  split
  case h_1 => exact ⟨_, rfl⟩
  case h_2 =>
    split
    case h_1 => exact ⟨_, rfl⟩
    case h_2 w rest _ => exact takeWord_next (by rw [parserOf_setPending]; exact parserOf_ok h p) w

theorem handleEvent_next {s : State} (h : Inv s) (ev : Event) : ∃ t, handleEvent ev s = .next t := by
  cases ev
  case unit p => exact unitTurn_next h p
  all_goals exact ⟨_, rfl⟩

/-- Settles O13: with no event nothing happens, and each event goes on; only a unit's turn could stop. -/
theorem invariantStatesGoOn : Obligations.InvariantStatesGoOn := by
  unfold Obligations.InvariantStatesGoOn
  intro s h
  unfold GoesOn
  cases hev : s.io.events with
  | nil => exact ⟨s, by rw [step, hev]⟩
  | cons ev es =>
    rw [step_of_events hev]
    exact handleEvent_next (s := { s with io := { s.io with events := es } }) { h with } ev

/-! ### Black frames -/

/-- BRI = 0 makes every colour black (43_compositor_render.md R191). -/
theorem brighten_zero (c : Color) : brighten 0 c = Color.black := by
  simp [brighten, mapChannels, Color.black]

theorem finalColors_of_bri_zero {c : UnitC} (h : c.bri = 0) : (finalColors c).toList = List.replicate 32 Color.black := by
  simp [finalColors, perSegment_toList, h, brighten_zero]

theorem frameOf_black (lps n : Nat) : frameOf lps (List.replicate n Color.black) = List.replicate (n * lps) 0 := by
  refine List.eq_replicate_iff.mpr ⟨by simp [length_frameOf], fun w hw => ?_⟩
  obtain ⟨c, hc, rfl⟩ := mem_frameOf hw
  rw [List.eq_of_mem_replicate hc]
  rfl

theorem renderLayers_rawen (cfg : Params) (e : Nat) (c : UnitC) : (renderLayers cfg e c).rawen = c.rawen := by
  obtain ⟨_, _, _, _, _, _, _, _, _, _, _, _, hr, -⟩ := renderLayers_frame cfg e c
  rw [hr]

/-- Settles O58: the layers keep BRI and RAWEN, and with BRI = 0 the colours they make are all black. -/
theorem framesAreBlackFromReset : Obligations.FramesAreBlackFromReset := by
  unfold Obligations.FramesAreBlackFromReset
  refine ⟨fun s e hport hraw hbri => ?_, fun cfg => ⟨rfl, rfl⟩⟩
  obtain ⟨t, ht, hc, hframe⟩ := exec_tick_layers e hport hraw
  obtain ⟨-, -, -, hport'⟩ := exec_frame ht
  have hbri' : t.c.bri = 0 := by rw [hc, renderLayers_bri, hbri]
  have hraw' : t.c.rawen = false := by rw [hc, renderLayers_rawen, hraw]
  rw [finalColors_of_bri_zero hbri', frameOf_black] at hframe
  exact ⟨t, ht, hframe, hport'.trans hport, hraw', hbri'⟩

/-! ### Reset -/

theorem inv_resetWith (cfg : Params) : Inv (State.resetWith cfg) :=
  (inv_iff _).mpr ⟨unitAOk_reset cfg, unitCOk_reset cfg⟩

/-- Settles O12: both units are at reset, whatever the parameters. -/
theorem invariantHoldsAfterReset : Obligations.InvariantHoldsAfterReset := by
  unfold Obligations.InvariantHoldsAfterReset
  exact ⟨inv_resetWith, inv_resetWith Config.built⟩

theorem unitC_reset_pulseP (cfg : Params) : (UnitC.reset cfg).pulseP.toNat = cfg.pulseMax :=
  toNat_ofNat_of_le_pulseMax (Nat.le_refl _)

/-- Settles O14: the step is `resetBlock`, whose registers are the table's constants; PULSE_P alone is computed. -/
theorem resetGivesEveryRegisterItsValue : Obligations.ResetGivesEveryRegisterItsValue := by
  unfold Obligations.ResetGivesEveryRegisterItsValue
  intro s es hev
  refine ⟨resetBlock { s with io := { s.io with events := es } }, step_of_events hev, ?_⟩
  rw [resetBlock_c, unitC_reset_pulseP]
  simp [UnitA.reset, Mailbox.reset, UnitC.reset, Track.default, Color.black]

end Sys2Proof.Machine
end
